-- ==== Sys2Proof/Word.lean ====
section
/-! DEFINITION. The machine word of DCTQ and its byte. Every register is 32 bits wide (R33); memory is
byte-addressed (R100). -/

namespace Sys2Proof

/-- A register value or a command word (R33, R150). -/
abbrev Word := BitVec 32

/-- A byte of system memory (R100). -/
abbrev Byte := BitVec 8

end Sys2Proof
end

