-- ==== Sys2Proof/Machine/Tables.lean ====
section
/-! DEFINITION. The tables the spec lists: the cosine tables of R283 to R286 and the reset matrix of R54. "A
model uses those integers and never evaluates a cosine" (R282). -/

namespace Sys2Proof.Machine

/-- `T_2`, row `u` from top to bottom, column `x` from left to right (R283). -/
def cosTable2 : List (List Int) :=
  [[759250125, 759250125],
   [759250125, -759250125]]

/-- `T_4`, row `u` from top to bottom, column `x` from left to right (R284). -/
def cosTable4 : List (List Int) :=
  [[536870912, 536870912, 536870912, 536870912],
   [701455651, 290552444, -290552444, -701455651],
   [536870912, -536870912, -536870912, 536870912],
   [290552444, -701455651, 701455651, -290552444]]

/-- `T_8`, row `u` from top to bottom, column `x` from left to right (R285). -/
def cosTable8 : List (List Int) :=
  [[379625062, 379625062, 379625062, 379625062, 379625062, 379625062, 379625062, 379625062],
   [526555088, 446391849, 298269498, 104738319, -104738319, -298269498, -446391849, -526555088],
   [496004047, 205451603, -205451603, -496004047, -496004047, -205451603, 205451603, 496004047],
   [446391849, -104738319, -526555088, -298269498, 298269498, 526555088, 104738319, -446391849],
   [379625062, -379625062, -379625062, 379625062, 379625062, -379625062, -379625062, 379625062],
   [298269498, -526555088, 104738319, 446391849, -446391849, -104738319, 526555088, -298269498],
   [205451603, -496004047, 496004047, -205451603, -205451603, 496004047, -496004047, 205451603],
   [104738319, -298269498, 446391849, -526555088, 526555088, -446391849, 298269498, -104738319]]

/-- `T_16`, row `u` from top to bottom, column `x` from left to right (R286). -/
def cosTable16 : List (List Int) :=
  [[268435456, 268435456, 268435456, 268435456, 268435456, 268435456, 268435456, 268435456, 268435456, 268435456, 268435456, 268435456, 268435456, 268435456, 268435456, 268435456],
   [377797064, 363278535, 334799415, 293454142, 240831590, 178954016, 110199339, 37209763, -37209763, -110199339, -178954016, -240831590, -293454142, -334799415, -363278535, -377797064],
   [372330673, 315646704, 210908384, 74061176, -74061176, -210908384, -315646704, -372330673, -372330673, -315646704, -210908384, -74061176, 74061176, 210908384, 315646704, 372330673],
   [363278535, 240831590, 37209763, -178954016, -334799415, -377797064, -293454142, -110199339, 110199339, 293454142, 377797064, 334799415, 178954016, -37209763, -240831590, -363278535],
   [350727825, 145276222, -145276222, -350727825, -350727825, -145276222, 145276222, 350727825, 350727825, 145276222, -145276222, -350727825, -350727825, -145276222, 145276222, 350727825],
   [334799415, 37209763, -293454142, -363278535, -110199339, 240831590, 377797064, 178954016, -178954016, -377797064, -240831590, 110199339, 363278535, 293454142, -37209763, -334799415],
   [315646704, -74061176, -372330673, -210908384, 210908384, 372330673, 74061176, -315646704, -315646704, 74061176, 372330673, 210908384, -210908384, -372330673, -74061176, 315646704],
   [293454142, -178954016, -363278535, 37209763, 377797064, 110199339, -334799415, -240831590, 240831590, 334799415, -110199339, -377797064, -37209763, 363278535, 178954016, -293454142],
   [268435456, -268435456, -268435456, 268435456, 268435456, -268435456, -268435456, 268435456, 268435456, -268435456, -268435456, 268435456, 268435456, -268435456, -268435456, 268435456],
   [240831590, -334799415, -110199339, 377797064, -37209763, -363278535, 178954016, 293454142, -293454142, -178954016, 363278535, 37209763, -377797064, 110199339, 334799415, -240831590],
   [210908384, -372330673, 74061176, 315646704, -315646704, -74061176, 372330673, -210908384, -210908384, 372330673, -74061176, -315646704, 315646704, 74061176, -372330673, 210908384],
   [178954016, -377797064, 240831590, 110199339, -363278535, 293454142, 37209763, -334799415, 334799415, -37209763, -293454142, 363278535, -110199339, -240831590, 377797064, -178954016],
   [145276222, -350727825, 350727825, -145276222, -145276222, 350727825, -350727825, 145276222, 145276222, -350727825, 350727825, -145276222, -145276222, 350727825, -350727825, 145276222],
   [110199339, -293454142, 377797064, -334799415, 178954016, 37209763, -240831590, 363278535, -363278535, 240831590, -37209763, -178954016, 334799415, -377797064, 293454142, -110199339],
   [74061176, -210908384, 315646704, -372330673, 372330673, -315646704, 210908384, -74061176, -74061176, 210908384, -315646704, 372330673, -372330673, 315646704, -210908384, 74061176],
   [37209763, -110199339, 178954016, -240831590, 293454142, -334799415, 363278535, -377797064, 377797064, -363278535, 334799415, -293454142, 240831590, -178954016, 110199339, -37209763]]

/-- `T_N` for the legal block sizes (R282); there is no table for another size. -/
def cosTable (n : Nat) : List (List Int) :=
  if n = 2 then cosTable2
  else if n = 4 then cosTable4
  else if n = 8 then cosTable8
  else if n = 16 then cosTable16
  else []

/-- `T_N[u][x]` (R282). -/
def cosEntry (n u x : Nat) : Int := ((cosTable n).getD u []).getD x 0

/-- The columns of `T_N`: entry `u` of column `x` is `T_N[u][x]`. -/
def cosColumns (n : Nat) : List (List Int) :=
  (List.range n).map fun x => (List.range n).map fun u => cosEntry n u x

/-- `QC`, the canonical matrix the corner of `QM` resets to (R54). -/
def qmCanonical : List (List Word) :=
  [[16, 11, 10, 16, 24, 40, 51, 61],
   [12, 12, 14, 19, 26, 58, 60, 55],
   [14, 13, 16, 24, 40, 57, 69, 56],
   [14, 17, 22, 29, 51, 87, 80, 62],
   [18, 22, 37, 56, 68, 109, 103, 77],
   [24, 35, 55, 64, 81, 104, 113, 92],
   [49, 64, 78, 87, 103, 121, 120, 101],
   [72, 92, 95, 98, 112, 100, 103, 99]]

/-- `QM[u][v]` at reset (R54): `QC[u][v]` for `u, v < 8`, and 1 for every other entry. -/
def qmResetEntry (u v : Nat) : Word :=
  if u < 8 ∧ v < 8 then (qmCanonical.getD u []).getD v 1 else 1

/-- The 256 reset values in register order, entry `16*u + v` (R53, R54). -/
def qmResetList : List Word :=
  (List.range 16).flatMap fun u => (List.range 16).map fun v => qmResetEntry u v

end Sys2Proof.Machine
end

