-- ==== Sys2Proof/Machine/Arith.lean ====
section
/-! DEFINITION. The integer primitives of R9 and the block arithmetic of R287, R288, R331 and R332. All of
it is on mathematical integers (R9, R289); a width appears only where a value is stored or clamped. -/

namespace Sys2Proof.Machine

/-- `sgn(a)`: -1 if `a < 0`, else +1 (R9). -/
def sgn (a : Int) : Int := if a < 0 then -1 else 1

/-- `clamp(v, lo, hi)` (R9). -/
def clamp (v lo hi : Int) : Int := if v < lo then lo else if hi < v then hi else v

/-- `rshr(a, k)`: `a / 2^k` to the nearest integer, ties away from zero (R9). -/
def rshr (a : Int) (k : Nat) : Int := sgn a * (((a.natAbs + 2 ^ (k - 1)) / 2 ^ k : Nat) : Int)

/-- `rdiv(a, d)`: `a / d` to the nearest integer, ties away from zero (R9). -/
def rdiv (a : Int) (d : Nat) : Int := sgn a * (((2 * a.natAbs + d) / (2 * d) : Nat) : Int)

/-- A block of `N` rows of `N` values (R10: the first index is the row). -/
abbrev Block := List (List Int)

/-- Element `(x, y)` of a block. -/
def blockAt (b : Block) (x y : Nat) : Int := (b.getD x []).getD y 0

/-- The exact double sum `Σ_x Σ_y p[x] * q[y] * f[x][y]` (R287, R288). -/
def doubleSum (p q : List Int) (f : Block) : Int :=
  (List.zipWith (fun px row => (List.zipWith (fun qy a => px * qy * a) q row).sum) p f).sum

/-- R287, `fdct_N`: `F[u][v] = clamp(rshr(S, 52), -2^31, 2^31 - 1)` with
`S = Σ_x Σ_y T_N[u][x] * T_N[v][y] * f[x][y]`. -/
def fdctBlock (n : Nat) (f : Block) : Block :=
  (cosTable n).map fun tu => (cosTable n).map fun tv =>
    clamp (rshr (doubleSum tu tv f) 52) (-2 ^ 31) (2 ^ 31 - 1)

/-- R288, `idct_N`: `out[x][y] = clamp(rshr(S, 68), -32768, 32767)` with
`S = Σ_u Σ_v T_N[u][x] * T_N[v][y] * G[u][v]`. -/
def idctBlock (n : Nat) (g : Block) : Block :=
  (cosColumns n).map fun cx => (cosColumns n).map fun cy =>
    clamp (rshr (doubleSum cx cy g) 68) (-32768) 32767

/-- R331: `quant(a, Q) = rdiv(a, 256 * Q)`. -/
def quantValue (a q : Int) : Int := rdiv a (256 * q.toNat)

/-- R332: `deq(q, Q) = clamp(q * Q * 256, -2^31, 2^31 - 1)`. -/
def deqValue (v q : Int) : Int := clamp (v * q * 256) (-2 ^ 31) (2 ^ 31 - 1)

/-- A function of a value and its step, applied at every position of a block: the step of position `(u, v)`
is `steps[u][v]` (R333). -/
def zipBlock (f : Int → Int → Int) (b steps : Block) : Block :=
  List.zipWith (fun row qs => List.zipWith f row qs) b steps

/-- R335, the block function of QUANT. -/
def quantBlock (steps a : Block) : Block := zipBlock quantValue a steps

/-- R336, the block function of DEQUANT. -/
def deqBlock (steps a : Block) : Block := zipBlock deqValue a steps

/-- `sext_16` of R9: a 16-bit field as two's complement. -/
def sext16 (v : Nat) : Int := (BitVec.ofNat 16 v).toInt

/-- `sext_32` of R9: a 32-bit field as two's complement. -/
def sext32 (v : Nat) : Int := (BitVec.ofNat 32 v).toInt

end Sys2Proof.Machine
end

