-- ==== Sys2Proof/Syntax.lean ====
section
/-! DEFINITION. The instruction set: the eight commands of the opcode map (R151). A command word carries
no immediates and no register numbers (R153), so a constructor has no arguments. -/

namespace Sys2Proof

/-- A command (R12: "one operation started by a write to CMD"), one constructor per row of
spec/opcode_table.json. -/
inductive Instr where
  /-- R250: write the tiled quantization matrix. -/
  | qmbuild
  /-- R295: forward transform of every tile. -/
  | fdct
  /-- R296: inverse transform of every tile. -/
  | idct
  /-- R335: quantize every tile of a coefficient frame. -/
  | quant
  /-- R336: dequantize every tile of a quantized frame. -/
  | dequant
  /-- R337: forward transform and quantize every tile. -/
  | encode
  /-- R338: dequantize and inverse-transform every tile. -/
  | decode
  /-- R380: compare two sample frames under a tolerance. -/
  | verify
  deriving DecidableEq, Repr

/-- Every command, in the order of the opcode map (R151). -/
def Instr.all : List Instr :=
  [.qmbuild, .fdct, .idct, .quant, .dequant, .encode, .decode, .verify]

end Sys2Proof
end

