-- ==== Sys2Proof/WellFormed.lean ====
section
/-! DEFINITION. Well-formedness of a command word (R150, R151). The two checks are the two ways in which
R155 calls a word illegal. A command as syntax has no operands (R153), so nothing about an `Instr` can be
ill-formed beyond its word. -/

namespace Sys2Proof

/-- `OPC = w[3:0]` (R150). -/
def opcField (w : Word) : BitVec 4 := w.extractLsb' 0 4

/-- `RSV = w[31:4]` (R150). -/
def rsvField (w : Word) : BitVec 28 := w.extractLsb' 4 28

/-- R150: the reserved field "must be 0". -/
def rsvIsZero (w : Word) : Bool := rsvField w == 0

/-- R151: the opcode is one of the eight values 1 to 8. -/
def opcIsLegal (w : Word) : Bool := 1 ≤ (opcField w).toNat && (opcField w).toNat ≤ 8

/-- R151: "A word is legal exactly when RSV = 0 and OPC is one of the eight values". -/
def wordWellFormed (w : Word) : Bool := rsvIsZero w && opcIsLegal w

/-- A command as syntax: there is no operand to check (R153). -/
def Instr.wf (_i : Instr) : Bool := true

end Sys2Proof
end

