-- ==== Sys2Proof/Decode.lean ====
section
/-! DEFINITION. The decoder of R152, total on any word and on any bytes, rejecting by name, and after it
the encoder of the opcode map R151. A command is exactly one 32-bit word (R150); register values on the
host bus are little-endian (R103), so the word's byte at the lowest address is its least significant. -/

namespace Sys2Proof

/-- Why a command word, or a list of bytes, is no command. -/
inductive Reject where
  /-- Fewer than the four bytes of a command word (R150: "Every command is exactly one word"). -/
  | truncated
  /-- `RSV != 0` (R155). -/
  | reservedBits
  /-- `OPC` is 0 or 9..15 (R155). -/
  | illegalOpcode
  deriving DecidableEq, Repr

/-- R151, the opcode map. -/
def instrOfOpc (opc : BitVec 4) : Option Instr :=
  if opc = 1#4 then some .qmbuild
  else if opc = 2#4 then some .fdct
  else if opc = 3#4 then some .idct
  else if opc = 4#4 then some .quant
  else if opc = 5#4 then some .dequant
  else if opc = 6#4 then some .encode
  else if opc = 7#4 then some .decode
  else if opc = 8#4 then some .verify
  else none

/-- R152: "returns the mnemonic of rule R151 when w[31:4] = 0 and 1 <= w[3:0] <= 8. For every other word
it returns illegal". -/
def decodeWord (w : Word) : Except Reject Instr :=
  if rsvIsZero w then
    match instrOfOpc (opcField w) with
    | some i => .ok i
    | none => .error .illegalOpcode
  else .error .reservedBits

/-- Four bytes, lowest address first, as a word (R103). -/
def wordOfBytes (b0 b1 b2 b3 : Byte) : Word :=
  BitVec.ofNat 32 (b0.toNat + 256 * (b1.toNat + 256 * (b2.toNat + 256 * b3.toNat)))

/-- The decoder on bytes: the command and the bytes that follow its word. -/
def decodeBytes : List Byte → Except Reject (Instr × List Byte)
  | b0 :: b1 :: b2 :: b3 :: rest =>
    match decodeWord (wordOfBytes b0 b1 b2 b3) with
    | .ok i => .ok (i, rest)
    | .error r => .error r
  | _ => .error .truncated

/-- The bytes of a word, lowest address first (R103). -/
def bytesOfWord (w : Word) : List Byte :=
  [w.extractLsb' 0 8, w.extractLsb' 8 8, w.extractLsb' 16 8, w.extractLsb' 24 8]

/-- The `word` column of R151. -/
def encode : Instr → Word
  | .qmbuild => 0x00000001#32
  | .fdct => 0x00000002#32
  | .idct => 0x00000003#32
  | .quant => 0x00000004#32
  | .dequant => 0x00000005#32
  | .encode => 0x00000006#32
  | .decode => 0x00000007#32
  | .verify => 0x00000008#32

/-- A command's word as the bytes of memory or of the host bus (R103). -/
def encodeBytes (i : Instr) : List Byte := bytesOfWord (encode i)

/-- The word whose low `nbits` bits are those of `w` and whose other bits are 0. -/
def tableWord (nbits w : Nat) : Word := BitVec.ofNat 32 (w % 2 ^ nbits)

/-- What the decoder reads from an instruction whose bits are `w`, numbered as spec/opcode_table.json
numbers them. -/
def decodeTableWord (nbits w : Nat) : Option Instr :=
  match decodeBytes (bytesOfWord (tableWord nbits w)) with
  | .ok (i, _) => some i
  | .error _ => none

end Sys2Proof
end

