-- ==== Sys2Proof/Config.lean ====
section
/-! DEFINITION. What an implementation of DCTQ fixes (R8), the parameters a platform gives it, and the
free values. A free value is an opaque constant: nothing in Lean can evaluate it, so a statement that is
proved holds whatever it is (log entry 7). -/

namespace Sys2Proof

/-- A stretch of byte addresses `[base, base + size)`. -/
structure Span where
  /-- the first address -/
  base : Nat
  /-- how many bytes -/
  size : Nat
  deriving DecidableEq, Repr

/-- The platform DCTQ sits on: the OPEN parameters of R8, and which memory a frame may not cover (R113). No
step changes it. -/
structure Platform where
  /-- `REG_BASE`, the address of the register window (R8, R115). -/
  regBase : Nat
  /-- `IRQ_LINE`, the interrupt number of `irq` (R8, R480). -/
  irqLine : Nat
  /-- `DMA_COHERENT` (R8, R129). -/
  dmaCoherent : Bool
  /-- Memory with read side effects and device registers (R113). -/
  devices : List Span
  deriving DecidableEq, Repr

namespace Config

/-- `2^ADDR_W` bytes of DMA space (R8, R100). -/
def dmaSpace : Nat := 2 ^ 32

/-- The register window is 4096 bytes (R33). -/
def windowBytes : Nat := 4096

/-- The constant the `ID` register reads (R32). -/
def idWord : Word := 0x44435431#32

/-- `QMAX`, the largest legal quantization step (R8, R55). -/
def qmax : Int := 65535

/-- The platform of `State.reset`. DESIGN CHOICE (log entry 2): the spec leaves the three parameters OPEN.
The window stands just above the DMA space, so that no frame can cover it, and there is no device memory. -/
def platform : Platform :=
  { regBase := 0x100000000, irqLine := 0, dmaCoherent := true, devices := [] }

/-- A free choice: which of several alternatives the hardware takes. Applied to the step's draw (the
counter `freeCount`) and to a number that says what is chosen (U12, U13, U17, U18). -/
opaque freePick : Nat → Nat → Nat

/-- A free byte: "any value" of the byte at an address. Applied to the step's draw and to the address
(U14, U15, U16, and R129). -/
opaque freeByte : Nat → Nat → Byte

end Config

end Sys2Proof
end

