-- ==== Sys2Proof/Machine/State.lean ====
section
/-! DEFINITION. The state of DCTQ and of the agents around it, as plain data; the ways a step can stop; and
the state after reset (R66). -/

namespace Sys2Proof.Machine

/-- The engine's phase (R60). -/
inductive Phase where
  /-- no command runs -/
  | idle
  /-- a command has been accepted and its checks are due -/
  | check
  /-- the command's work units are being done -/
  | run
  deriving DecidableEq, Repr

/-- The error codes of R451. -/
inductive ErrCode where
  | none
  | invalidShape
  | invalidQmatrix
  | allocationFailure
  | illegalCommand
  | misaligned
  | overlap
  | busError
  | aborted
  deriving DecidableEq, Repr

/-- An error as a check reports it: code, `ERRINFO` and `ERRDATA` (R450, R470). -/
structure ErrRec where
  code : ErrCode
  info : Word
  data : Word
  deriving DecidableEq, Repr

/-- How the memory agent answers a DMA access (R7, R110, R225). -/
inductive Answer where
  /-- data, or an acknowledgement of a write -/
  | ok
  /-- a bus error (R110) -/
  | error
  /-- no response (R225) -/
  | silent
  deriving DecidableEq, Repr

/-- A stretch of memory whose DMA reads, or writes, are answered in one way (U22). -/
structure AnswerSpan where
  span : Span
  onRead : Bool
  onWrite : Bool
  answer : Answer
  deriving DecidableEq, Repr

/-- The three frame operands (R41, R42, R43). -/
inductive FrameName where
  | src
  | src2
  | dst
  deriving DecidableEq, Repr

/-- One DMA element access: the operand, the byte address and the element size (R111). SRC and SRC2 are only
read, DST is only written (R101). -/
structure Access where
  frame : FrameName
  addr : Nat
  size : Nat
  deriving DecidableEq, Repr

/-- A read that has got its data: the access and the value of its bytes. -/
structure ReadData where
  access : Access
  value : Nat
  deriving DecidableEq, Repr

/-- How far a unit that waits for a DMA response has come (R215, R225): an access that has got its response has
it for good. -/
structure UnitWait where
  /-- the reads that have got their data -/
  reads : List ReadData
  /-- the writes that have been acknowledged -/
  acks : List Access
  /-- the accesses that are issued and have no response yet -/
  asked : List Access
  deriving DecidableEq, Repr

/-- What a host access gets back (R422: "each gets data or an error response"). -/
inductive Response where
  /-- the data of a register read (R411) -/
  | data (w : Word)
  /-- a write was taken -/
  | ack
  /-- a bus error response on the host bus (R410) -/
  | error
  /-- the bytes of a host load from memory, lowest address first -/
  | bytes (bs : List Byte)
  deriving DecidableEq, Repr

/-- One coming action of the agents of R7. The order of the list is the interleaving of host accesses,
memory-agent changes, reset and engine steps that the run takes (R414, U24). -/
inductive Event where
  /-- the engine takes one step (R226) -/
  | engine
  /-- the host reads the register window: access width in bytes, offset (R410) -/
  | regRead (width offset : Nat)
  /-- the host writes the register window: access width in bytes, offset, word (R410) -/
  | regWrite (width offset : Nat) (value : Word)
  /-- the host stores bytes to system memory through its own path (R100, R124, R125) -/
  | memStore (addr : Nat) (bs : List Byte)
  /-- the host loads bytes of system memory through its own path (R100, R125) -/
  | memLoad (addr count : Nat)
  /-- a host barrier (R124) -/
  | fence
  /-- the host cleans its caches over `[base, base + size)` (R129) -/
  | cacheClean (base size : Nat)
  /-- the host invalidates its caches over `[base, base + size)` (R129) -/
  | cacheInvalidate (base size : Nat)
  /-- the memory agent changes how it answers DMA accesses (R110, R225) -/
  | memAgent (answers : List AnswerSpan)
  /-- the platform asserts the reset input (R520) -/
  | reset
  deriving DecidableEq, Repr

/-- System memory: byte cells at strictly rising addresses, no entry equal to what an unlisted address
reads as (log entry 1). -/
abbrev Memory := List Host.Cell

/-- What a byte of memory that nothing has written reads as. DESIGN CHOICE (log entry 1): the spec gives
memory no contents. -/
def Memory.unlisted : Byte := 0#8

/-- The state of the machine. Every field is plain data. -/
structure State where
  /-- `CTRL.IE` (R36) -/
  ie : Bool
  /-- `CTRL.ABORT`, the abort-pending bit (R36, R215) -/
  abort : Bool
  /-- `STATUS.BUSY` (R35) -/
  busy : Bool
  /-- `STATUS.DONE` (R35) -/
  done : Bool
  /-- `STATUS.ERR` (R35) -/
  err : Bool
  /-- `STATUS.WDROP` (R35) -/
  wdrop : Bool
  /-- `STATUS.QM_UNALIGNED` (R35, R254) -/
  qmUnaligned : Bool
  /-- `STATUS.ERRCODE` (R35, R451) -/
  errcode : BitVec 4
  /-- `LASTCMD`, the last word accepted as a command (R37) -/
  lastcmd : Word
  /-- `CFG.LOG2N` (R38) -/
  log2n : BitVec 3
  /-- `DIM`: ROWS in [15:0], COLS in [31:16] (R39) -/
  dim : Word
  /-- `DIM2`: ROWS2 in [15:0], COLS2 in [31:16] (R40) -/
  dim2 : Word
  /-- `SRC` (R41) -/
  src : Word
  /-- `SRC2` (R42) -/
  src2 : Word
  /-- `DST` (R43) -/
  dst : Word
  /-- `TOL` (R44) -/
  tol : Word
  /-- `RPT_EXCEED` (R46) -/
  rptExceed : Word
  /-- `RPT_TOTAL` (R46) -/
  rptTotal : Word
  /-- `RPT_MAXERR` (R47) -/
  rptMaxerr : Word
  /-- `RPT_FLAGS.PASSED` (R48) -/
  rptPassed : Bool
  /-- `ERRINFO` (R49) -/
  errinfo : Word
  /-- `ERRDATA` (R50) -/
  errdata : Word
  /-- the QM register file, entry `16*u + v` is `QM[u][v]` (R53) -/
  qm : Vector Word 256
  /-- the engine's phase (R60) -/
  phase : Phase
  /-- the work-unit cursor (R61); `PROGRESS` reads it (R52) -/
  unit : Nat
  /-- VERIFY's running count `acc_exceed` (R65) -/
  accExceed : Nat
  /-- VERIFY's running maximum `acc_max` (R65) -/
  accMax : Nat
  /-- unit `unit` has started and waits for DMA responses, and how far it has come (R215, R225) -/
  wait : Option UnitWait
  /-- system memory as the DMA port sees it (R100) -/
  mem : Memory
  /-- the platform's parameters (R8, R113) -/
  platform : Platform
  /-- how the memory agent answers (R110); the first span that meets an access decides -/
  answers : List AnswerSpan
  /-- host stores, oldest first, that are not yet visible to DMA (R124, R129); each is the bytes of one store
  inside one aligned 4-byte word (log entry 9) -/
  pending : List (List Host.Cell)
  /-- byte addresses the host wrote while the running command was busy (R125) -/
  touched : List Nat
  /-- host stores, oldest first, that reached memory while the running command was busy, so that nothing orders
  them before its `CMD` write (R124, U18) -/
  landed : List (List Host.Cell)
  /-- memory as it stood at the running command's acceptance (R125: "that element's old value") -/
  memOld : Memory
  /-- regions of ended commands that the host has not invalidated since (R129) -/
  dmaWritten : List Span
  /-- what the last host access got back (R422) -/
  hostResp : Option Response
  /-- the coming actions of the agents (R7, R414) -/
  agenda : List Event
  /-- the model's counter of steps, to which the free values are applied (log entry 7) -/
  freeCount : Nat
  deriving DecidableEq, Repr

/-- The ways the model stops with a fault. -/
inductive Fault where
  /-- Raised by an engine step in phase RUN when the operand registers do not pass the checks, or the
  cursor has passed the last unit, or LASTCMD is no command. R202 defines the operands "once the checks
  have passed", and R62 keeps them fixed from then on, so no run of DCTQ is in such a state. Safe: nothing
  is claimed of it. -/
  | runOutsideCommand
  deriving DecidableEq, Repr

/-- The ways the model refuses. -/
inductive Refusal where
  /-- Raised by `exec` for an instruction that has no meaning yet. Safe. -/
  | notModelled (mnemonic : String)
  /-- Raised by the check step of a command whose checks pass and one of whose frame regions covers memory
  with side effects, device registers or DCTQ's own window; the argument is the operand (1 SRC, 2 SRC2,
  3 DST). R113: such a command "has no specified effect. The model refuses such a command". Safe. -/
  | sideEffectRegion (operand : Nat)
  deriving DecidableEq, Repr

/-- The state after reset on a platform (R66, R520). The fields below `wait` are no state of DCTQ;
what they hold here is the model's choice (log entries 1 to 7). -/
def State.resetOn (p : Platform) : State where
  ie := false
  abort := false
  busy := false
  done := false
  err := false
  wdrop := false
  qmUnaligned := false
  errcode := 0#4
  lastcmd := 0#32
  log2n := 3#3
  dim := 0#32
  dim2 := 0#32
  src := 0#32
  src2 := 0#32
  dst := 0#32
  tol := 0#32
  rptExceed := 0#32
  rptTotal := 0#32
  rptMaxerr := 0#32
  rptPassed := false
  errinfo := 0#32
  errdata := 0#32
  qm := ⟨qmResetList.toArray, by simp [qmResetList]⟩
  phase := .idle
  unit := 0
  accExceed := 0
  accMax := 0
  wait := none
  mem := []
  platform := p
  answers := []
  pending := []
  touched := []
  landed := []
  memOld := []
  dmaWritten := []
  hostResp := none
  agenda := []
  freeCount := 0

/-- The machine right after reset (R66), on the platform of `Config`. -/
def State.reset : State := State.resetOn Config.platform

end Sys2Proof.Machine
end

