-- ==== Sys2Proof/Machine/Ops.lean ====
section
/-! DEFINITION. The named operations over memory and registers; acceptance of a command (R201); ending a
command with or without an error, as one operation (R220, R450), and the host's return from it (R475). -/

namespace Sys2Proof.Machine

/-! ## System memory, byte by byte -/

/-- The byte at an address. The list is in rising order, so the search stops at the first higher one. -/
def Memory.read : Memory → Nat → Byte
  | [], _ => Memory.unlisted
  | (k, b) :: rest, a => if k = a then b else if a < k then Memory.unlisted else Memory.read rest a

/-- Store one byte and keep the canonical form: no entry is listed that equals what an unlisted address
reads as. -/
def Memory.write : Memory → Nat → Byte → Memory
  | [], a, v => if v = Memory.unlisted then [] else [(a, v)]
  | (k, b) :: rest, a, v =>
    if k < a then (k, b) :: Memory.write rest a v
    else if k = a then (if v = Memory.unlisted then rest else (a, v) :: rest)
    else if v = Memory.unlisted then (k, b) :: rest
    else (a, v) :: (k, b) :: rest

/-- The addresses of a memory rise strictly, each is above `lo` or equal to it, and no entry equals what an
unlisted address reads as. -/
def Memory.wfFrom : Nat → Memory → Bool
  | _, [] => true
  | lo, (k, b) :: rest =>
    decide (lo ≤ k) && decide (k < Config.dmaSpace) && decide (b ≠ Memory.unlisted) &&
      Memory.wfFrom (k + 1) rest

/-- The canonical form of memory: strictly rising addresses inside the DMA space (R100), no entry equal to
what an unlisted address reads as. -/
def Memory.wf (m : Memory) : Bool := Memory.wfFrom 0 m

/-- `count` bytes from `a` on, lowest address first. -/
def Memory.readBytes (m : Memory) : Nat → Nat → List Byte
  | _, 0 => []
  | a, count + 1 => m.read a :: Memory.readBytes m (a + 1) count

/-- The little-endian value of `n` bytes at `a` (R9 `MemRead`, R103). -/
def Memory.readLE (m : Memory) : Nat → Nat → Nat
  | _, 0 => 0
  | a, n + 1 => (m.read a).toNat + 256 * Memory.readLE m (a + 1) n

/-- Store the low `8n` bits of `v`, little-endian, at `a` (R9 `MemWrite`, R103). -/
def Memory.writeLE : Memory → Nat → Nat → Nat → Memory
  | m, _, 0, _ => m
  | m, a, n + 1, v => Memory.writeLE (m.write a (BitVec.ofNat 8 v)) (a + 1) n (v / 256)

/-- Store bytes, the first one first. -/
def Memory.writeCells (m : Memory) (cells : List Host.Cell) : Memory :=
  cells.foldl (fun m c => m.write c.1 c.2) m

/-- Let the `n` bytes at `a` hold any value (U14, U15, U16). -/
def Memory.writeFree (m : Memory) (draw a n : Nat) : Memory :=
  (List.range n).foldl (fun m k => m.write (a + k) (Config.freeByte draw (a + k))) m

/-! ## The QM register file (R53) -/

/-- The register index of `QM[u][v]`. -/
def qmIndex (u v : Nat) : Fin 256 := Fin.ofNat 256 (16 * u + v)

/-- The register `QM[u][v]` as stored. -/
def State.qmGet (s : State) (u v : Nat) : Word := s.qm.get (qmIndex u v)

/-- Store a QM register by its index. -/
def State.qmSet (s : State) (k : Fin 256) (w : Word) : State :=
  { s with qm := s.qm.set k.val w k.isLt }

/-! ## Free choices -/

/-- A draw among alternatives (U13): the only one where there is one, a free one where there are several. -/
def pickFree {α : Type} (draw key : Nat) : List α → Option α
  | [] => none
  | [x] => some x
  | x :: y :: rest => (x :: y :: rest)[Config.freePick draw key % (rest.length + 2)]?

/-! ## Acceptance, the end of a command, and acknowledgement -/

/-- R201: the word `w` is accepted as a command, atomically. `memOld`, `touched` and `landed` are the model's
own records of R124 and R125 and start afresh. -/
def acceptCommand (w : Word) (s : State) : State :=
  { s with
    lastcmd := w
    done := false
    err := false
    errcode := 0#4
    qmUnaligned := false
    errinfo := 0#32
    errdata := 0#32
    unit := 0
    accExceed := 0
    accMax := 0
    abort := false
    busy := true
    phase := .check
    wait := none
    touched := []
    landed := []
    memOld := s.mem }

/-- The 4-bit code of R451. -/
def errCodeBits : ErrCode → BitVec 4
  | .none => 0#4
  | .invalidShape => 1#4
  | .invalidQmatrix => 2#4
  | .allocationFailure => 3#4
  | .illegalCommand => 4#4
  | .misaligned => 5#4
  | .overlap => 6#4
  | .busError => 7#4
  | .aborted => 8#4

/-- R220, `complete(code, info, data)`: the running command ends, atomically. With a code other than `none`
this is `raise Err` of R9, the one way an error is taken (R450, R471): the record is written, the phase goes
to IDLE, BUSY to 0, DONE to 1, ABORT to 0, and control goes nowhere else. -/
def endCommand (code : ErrCode) (info data : Word) (s : State) : State :=
  { s with
    errcode := errCodeBits code
    err := decide (code ≠ .none)
    errinfo := info
    errdata := data
    abort := false
    busy := false
    done := true
    phase := .idle
    wait := none
    touched := []
    landed := []
    memOld := [] }

/-- `raise Err(code, info, data)` of R9, with the error as one value. -/
def raiseErr (e : ErrRec) (s : State) : State := endCommand e.code e.info e.data s

/-- R475: the host acknowledges a completion by writing 1 to `STATUS.DONE`; the record stays. -/
def acknowledge (s : State) : State := { s with done := false }

/-- How far the unit that is due has come: nothing where it has not started (R215). -/
def State.waited (s : State) : UnitWait := s.wait.getD ⟨[], [], []⟩

/-- The model's step counter moves on, so that every step has a draw of its own (log entry 7). -/
def State.tick (s : State) : State := { s with freeCount := s.freeCount + 1 }

end Sys2Proof.Machine
end

