-- ==== Sys2Proof/Machine/Operands.lean ====
section
/-! DEFINITION. The operands of the commands: the fields of the operand registers (R154), the element kinds
(R101, R102), element and tile addresses (R104, R105), the positions of a work unit (R210), and the engine's
reads and writes of elements. -/

namespace Sys2Proof.Machine

/-! ## Register operands (R154, R202) -/

/-- `ROWS = DIM[15:0]`. -/
def State.rows (s : State) : Nat := (s.dim.extractLsb' 0 16).toNat
/-- `COLS = DIM[31:16]`. -/
def State.cols (s : State) : Nat := (s.dim.extractLsb' 16 16).toNat
/-- `ROWS2 = DIM2[15:0]`. -/
def State.rows2 (s : State) : Nat := (s.dim2.extractLsb' 0 16).toNat
/-- `COLS2 = DIM2[31:16]`. -/
def State.cols2 (s : State) : Nat := (s.dim2.extractLsb' 16 16).toNat
/-- `N = 2^CFG.LOG2N` (R11). -/
def State.blockSize (s : State) : Nat := 2 ^ s.log2n.toNat
/-- `TR = ROWS div N` (R202). -/
def State.tileRows (s : State) : Nat := s.rows / s.blockSize
/-- `TC = COLS div N` (R202). -/
def State.tileCols (s : State) : Nat := s.cols / s.blockSize
/-- A step as the engine reads it: `sext_32(QM[u][v])` (R53). -/
def State.qmStep (s : State) (u v : Nat) : Int := (s.qmGet u v).toInt
/-- The steps of the `N×N` corner, as a block (R333). -/
def State.qmBlock (s : State) : Block :=
  (List.range s.blockSize).map fun u => (List.range s.blockSize).map fun v => s.qmStep u v

/-! ## Commands by kind (R458) -/

/-- `TILE` of R458. -/
def isTile : Instr → Bool
  | .qmbuild => false
  | .fdct => true
  | .idct => true
  | .quant => true
  | .dequant => true
  | .encode => true
  | .decode => true
  | .verify => false

/-- `USESQM` of R458. -/
def usesQm : Instr → Bool
  | .qmbuild => true
  | .fdct => false
  | .idct => false
  | .quant => true
  | .dequant => true
  | .encode => true
  | .decode => true
  | .verify => false

/-- The commands that read `CFG.LOG2N`: all but VERIFY (R153). -/
def usesBlockSize : Instr → Bool
  | .qmbuild => true
  | .fdct => true
  | .idct => true
  | .quant => true
  | .dequant => true
  | .encode => true
  | .decode => true
  | .verify => false

/-! ## Frames (R101, R102) -/

/-- The kinds of frames (R102). -/
inductive FrameKind where
  /-- 16-bit two's complement -/
  | sample
  /-- 32-bit two's complement, Q23.8 -/
  | coefficient
  /-- 32-bit two's complement integer -/
  | quantized
  /-- 32-bit two's complement integer, written only -/
  | tiledQm
  deriving DecidableEq, Repr

/-- The element size of a kind (R102). -/
def FrameKind.esize : FrameKind → Nat
  | .sample => 2
  | .coefficient => 4
  | .quantized => 4
  | .tiledQm => 4

/-- The kind of the frame at `SRC`, if the command reads it (R101). -/
def srcKind : Instr → Option FrameKind
  | .qmbuild => none
  | .fdct => some .sample
  | .idct => some .coefficient
  | .quant => some .coefficient
  | .dequant => some .quantized
  | .encode => some .sample
  | .decode => some .quantized
  | .verify => some .sample

/-- The kind of the frame at `SRC2`, if the command reads it (R101). -/
def src2Kind : Instr → Option FrameKind
  | .qmbuild => none
  | .fdct => none
  | .idct => none
  | .quant => none
  | .dequant => none
  | .encode => none
  | .decode => none
  | .verify => some .sample

/-- The kind of the frame at `DST`, if the command writes it (R101). -/
def dstKind : Instr → Option FrameKind
  | .qmbuild => some .tiledQm
  | .fdct => some .coefficient
  | .idct => some .sample
  | .quant => some .quantized
  | .dequant => some .coefficient
  | .encode => some .quantized
  | .decode => some .sample
  | .verify => none

/-- The number `ERRINFO` gives an operand: 1 SRC, 2 SRC2, 3 DST (R455, R456, R466). -/
def FrameName.number : FrameName → Nat
  | .src => 1
  | .src2 => 2
  | .dst => 3

/-- The operand's base register. -/
def State.base (s : State) : FrameName → Word
  | .src => s.src
  | .src2 => s.src2
  | .dst => s.dst

/-- `operands(op)` of R458 without the bases: the frames a command uses with their element sizes, in the
order SRC, SRC2, DST. -/
def frames (i : Instr) : List (FrameName × Nat) :=
  ((srcKind i).map fun k => (FrameName.src, k.esize)).toList ++
  ((src2Kind i).map fun k => (FrameName.src2, k.esize)).toList ++
  ((dstKind i).map fun k => (FrameName.dst, k.esize)).toList

/-- The bytes of a frame, `ROWS * COLS * esize` (R104). -/
def State.frameBytes (s : State) (esize : Nat) : Nat := s.rows * s.cols * esize

/-- The region of a frame, `[b, b + ROWS*COLS*esize)` (R104). -/
def State.region (s : State) (f : FrameName) (esize : Nat) : Span :=
  { base := (s.base f).toNat, size := s.frameBytes esize }

/-- R104: `addr(b, i, j) = b + (i * COLS + j) * esize`, exact, no wrap. -/
def State.elemAddr (s : State) (f : FrameName) (esize i j : Nat) : Nat :=
  (s.base f).toNat + (i * s.cols + j) * esize

/-! ## Spans -/

/-- Two stretches share a byte. -/
def spanMeets (p q : Span) : Bool :=
  decide (p.base < q.base + q.size) && decide (q.base < p.base + p.size) &&
    decide (0 < p.size) && decide (0 < q.size)

/-- A byte lies in the stretch. -/
def spanHas (p : Span) (a : Nat) : Bool := decide (p.base ≤ a) && decide (a < p.base + p.size)

/-- What is left of the stretch `p` without the bytes of `q`: the part below and the part above, where they
are not empty. -/
def spanMinus (p q : Span) : List Span :=
  if spanMeets p q then
    [⟨p.base, q.base - p.base⟩, ⟨q.base + q.size, p.base + p.size - (q.base + q.size)⟩].filter
      fun r => decide (0 < r.size)
  else [p]

/-- The stretch lies inside the other. -/
def spanInside (p q : Span) : Bool :=
  decide (q.base ≤ p.base) && decide (p.base + p.size ≤ q.base + q.size)

/-! ## Work units (R210) -/

/-- The number of work units `U` (R210). -/
def unitCount (i : Instr) (s : State) : Nat :=
  if isTile i then s.tileRows * s.tileCols else s.rows

/-- The frame position `(i, j)` of block element `(x, y)` of tile number `t` (R105, R211). -/
def State.tilePos (s : State) (t x y : Nat) : Nat × Nat :=
  (t / s.tileCols * s.blockSize + x, t % s.tileCols * s.blockSize + y)

/-- The block positions `(x, y)` of an `n×n` block, row by row. -/
def blockPositions (n : Nat) : List (Nat × Nat) :=
  (List.range n).flatMap fun x => (List.range n).map fun y => (x, y)

/-- The frame positions of unit `t`: those of a tile, or those of a frame row (R210). -/
def unitPositions (i : Instr) (s : State) (t : Nat) : List (Nat × Nat) :=
  if isTile i then (blockPositions s.blockSize).map fun p => s.tilePos t p.1 p.2
  else (List.range s.cols).map fun j => (t, j)

/-- The accesses of unit `t` to one frame. -/
def frameAccesses (i : Instr) (s : State) (t : Nat) (f : FrameName) : Option FrameKind → List Access
  | none => []
  | some k => (unitPositions i s t).map fun p =>
      { frame := f, addr := s.elemAddr f k.esize p.1 p.2, size := k.esize }

/-- Every DMA read of unit `t` (R211, R252, R383). -/
def unitReads (i : Instr) (s : State) (t : Nat) : List Access :=
  frameAccesses i s t .src (srcKind i) ++ frameAccesses i s t .src2 (src2Kind i)

/-- Every DMA write of unit `t` (R211, R252, R383). -/
def unitWrites (i : Instr) (s : State) (t : Nat) : List Access :=
  frameAccesses i s t .dst (dstKind i)

/-! ## Element reads and writes (R102, R211) -/

/-- Host stores that nothing orders before the `CMD` write of the running command, oldest first: those that have
reached memory since, and those that are still under way (R124). -/
def State.lateStores (s : State) : List (List Host.Cell) := s.landed ++ s.pending

/-- Memory without the late stores. Where one has landed that is memory at acceptance, as far as the engine reads
it: no unit reads what another wrote (R122), and a tile is read before it is written (R120). -/
def State.dmaBase (s : State) : Memory := if s.landed.isEmpty then s.mem else s.memOld

/-- Memory as one element read of the engine sees it. With no late host store it is memory itself. With late
stores the read may get the stored value or an older one (R124, U18), also where the store has landed in the
meantime: some number of the oldest late stores, drawn for this access, is taken as done. A store is whole or not
done at all, and lies inside one aligned word as every element does, so an element is never read half stored. -/
def State.dmaView (s : State) (f : FrameName) (a : Nat) : Memory :=
  match s.lateStores with
  | [] => s.mem
  | c :: rest =>
    s.dmaBase.writeCells
      ((c :: rest).take (Config.freePick s.freeCount (16 * a + f.number) % (rest.length + 2))).flatten

/-- `MemRead` of the engine (R9): the data this read has got while its unit waited (R225), or memory now. -/
def State.dmaRead (s : State) (f : FrameName) (a n : Nat) : Nat :=
  match s.waited.reads.find? fun r => decide (r.access = ⟨f, a, n⟩) with
  | some r => r.value
  | none => (s.dmaView f a).readLE a n

/-- `readElem` of R102: the element `(i, j)` of a frame, sign-extended from its size. -/
def State.readElem (s : State) (f : FrameName) (k : FrameKind) (i j : Nat) : Int :=
  match k with
  | .sample => sext16 (s.dmaRead f (s.elemAddr f 2 i j) 2)
  | .coefficient => sext32 (s.dmaRead f (s.elemAddr f 4 i j) 4)
  | .quantized => sext32 (s.dmaRead f (s.elemAddr f 4 i j) 4)
  | .tiledQm => sext32 (s.dmaRead f (s.elemAddr f 4 i j) 4)

/-- Phase 1 of R211: tile number `t` of the frame at `SRC` as a block. -/
def State.readTile (s : State) (k : FrameKind) (t : Nat) : Block :=
  (List.range s.blockSize).map fun x => (List.range s.blockSize).map fun y =>
    s.readElem .src k (s.tilePos t x y).1 (s.tilePos t x y).2

/-- One element write: address, element size and value. -/
structure ElemWrite where
  addr : Nat
  size : Nat
  value : Int
  deriving DecidableEq, Repr

/-- `writeElem` of R102: `MemWrite(a, esize, w mod 2^(8*esize))`. -/
def writeElem (m : Memory) (w : ElemWrite) : Memory :=
  m.writeLE w.addr w.size (w.value % 2 ^ (8 * w.size)).toNat

/-- Phase 2 of a unit: its writes, one after another. Their order is not observable here, since they touch
different elements (R120, R122). -/
def writeElems (m : Memory) (ws : List ElemWrite) : Memory := ws.foldl writeElem m

/-- `writeElem(DST, kind, i, j, value)` (R102, R211). -/
def State.dstWrite (s : State) (k : FrameKind) (i j : Nat) (v : Int) : ElemWrite :=
  { addr := s.elemAddr .dst k.esize i j, size := k.esize, value := v }

/-- Phase 2 of R211: the destination tile number `t` from a block. -/
def State.tileWrites (s : State) (k : FrameKind) (t : Nat) (b : Block) : List ElemWrite :=
  (blockPositions s.blockSize).map fun p =>
    s.dstWrite k (s.tilePos t p.1 p.2).1 (s.tilePos t p.1 p.2).2 (blockAt b p.1 p.2)

/-- What one work unit does when every access of it is answered: its writes, and VERIFY's accumulators
afterwards. -/
structure UnitWork where
  writes : List ElemWrite
  accExceed : Nat
  accMax : Nat
  deriving DecidableEq, Repr

end Sys2Proof.Machine
end

