-- ==== Sys2Proof/Machine/Flags.lean ====
section
/-! DEFINITION. The flag-like bits (R56): the words that STATUS, CTRL, CFG and RPT_FLAGS read as, the two
flags that a completion computes, and the interrupt output. -/

namespace Sys2Proof.Machine

/-- A bit as a number. -/
def bitNat (b : Bool) : Nat := if b then 1 else 0

/-- The word `STATUS` reads as (R35): BUSY [0], DONE [1], ERR [2], WDROP [3], QM_UNALIGNED [4], ERRCODE
[11:8]; the reserved fields read 0. -/
def State.statusWord (s : State) : Word :=
  BitVec.ofNat 32 (bitNat s.busy + 2 * bitNat s.done + 4 * bitNat s.err + 8 * bitNat s.wdrop +
    16 * bitNat s.qmUnaligned + 256 * s.errcode.toNat)

/-- The word `CTRL` reads as (R36): IE [0], ABORT [1]. -/
def State.ctrlWord (s : State) : Word := BitVec.ofNat 32 (bitNat s.ie + 2 * bitNat s.abort)

/-- The word `CFG` reads as (R38): LOG2N [2:0]. -/
def State.cfgWord (s : State) : Word := s.log2n.setWidth 32

/-- The word `RPT_FLAGS` reads as (R48): PASSED [0]. -/
def State.rptFlagsWord (s : State) : Word := BitVec.ofNat 32 (bitNat s.rptPassed)

/-- The word `PROGRESS` reads as (R52). -/
def State.progressWord (s : State) : Word := BitVec.ofNat 32 s.unit

/-- R64, R480: `irq = CTRL.IE and STATUS.DONE` at every moment. -/
def State.irq (s : State) : Bool := s.ie && s.done

/-- The level of a line of the platform's interrupt controller, as far as DCTQ drives it (R480: `irq` goes
to line `IRQ_LINE`). -/
def State.irqAt (s : State) (line : Nat) : Bool := s.irq && decide (line = s.platform.irqLine)

/-- R254: `STATUS.QM_UNALIGNED` at QMBUILD's success: `ROWS mod N != 0` or `COLS mod N != 0`. -/
def qmUnalignedFlag (s : State) : Bool :=
  decide (s.rows % s.blockSize ≠ 0) || decide (s.cols % s.blockSize ≠ 0)

/-- R386: `passed = (toleratedDifferenceCount == 0)`. -/
def passedFlag (exceed : Nat) : Bool := decide (exceed = 0)

/-- R383: the difference `d` exceeds the tolerance, `256 * d > zext_32(TOL)`. -/
def exceedsTol (tol : Word) (d : Nat) : Bool := decide (tol.toNat < 256 * d)

end Sys2Proof.Machine
end

