-- ==== Sys2Proof/Machine/Engine.lean ====
section
/-! DEFINITION. The command engine every command runs on: the check step (R205, R458), the run step (R212)
with abort (R215) and bus error (R216), and completion (R220, R221). -/

namespace Sys2Proof.Machine

/-! ## The checks, in the order of R458 -/

/-- The legal values of `CFG.LOG2N` (R38). -/
def log2nLegal (s : State) : Bool := decide (1 ≤ s.log2n.toNat) && decide (s.log2n.toNat ≤ 4)

/-- `INVALID_SHAPE` and its subcodes (R452). -/
def checkShape (i : Instr) (s : State) : Option ErrRec :=
  if usesBlockSize i = true ∧ log2nLegal s = false then some ⟨.invalidShape, 1, s.log2n.setWidth 32⟩
  else if s.rows = 0 then some ⟨.invalidShape, 2, 0⟩
  else if s.cols = 0 then some ⟨.invalidShape, 3, 0⟩
  else if isTile i = true ∧ s.rows % s.blockSize ≠ 0 then
    some ⟨.invalidShape, 4, BitVec.ofNat 32 s.rows⟩
  else if isTile i = true ∧ s.cols % s.blockSize ≠ 0 then
    some ⟨.invalidShape, 5, BitVec.ofNat 32 s.cols⟩
  else if i = .verify ∧ s.rows2 ≠ s.rows then some ⟨.invalidShape, 6, BitVec.ofNat 32 s.rows2⟩
  else if i = .verify ∧ s.cols2 ≠ s.cols then some ⟨.invalidShape, 7, BitVec.ofNat 32 s.cols2⟩
  else none

/-- A step is legal: `1 <= sext_32(QM[u][v]) <= QMAX` (R55). -/
def qmLegal (s : State) (u v : Nat) : Bool :=
  decide (1 ≤ s.qmStep u v) && decide (s.qmStep u v ≤ Config.qmax)

/-- `INVALID_QMATRIX`: the first bad entry of the `N×N` corner, `u` outer, `v` inner (R453). -/
def checkQm (i : Instr) (s : State) : Option ErrRec :=
  if usesQm i then
    match (blockPositions s.blockSize).find? fun p => !qmLegal s p.1 p.2 with
    | some p => some ⟨.invalidQmatrix, BitVec.ofNat 32 (16 * p.1 + p.2), s.qmGet p.1 p.2⟩
    | none => none
  else none

/-- `MISALIGNED`: the first operand whose base is no multiple of its element size (R455, R106). -/
def checkAlign (i : Instr) (s : State) : Option ErrRec :=
  match (frames i).find? fun f => decide ((s.base f.1).toNat % f.2 ≠ 0) with
  | some f => some ⟨.misaligned, BitVec.ofNat 32 f.1.number, s.base f.1⟩
  | none => none

/-- `ALLOCATION_FAILURE`: the first operand whose region does not fit the DMA space (R456, R108). -/
def checkFit (i : Instr) (s : State) : Option ErrRec :=
  match (frames i).find? fun f =>
      decide (Config.dmaSpace < (s.base f.1).toNat + s.frameBytes f.2) with
  | some f => some ⟨.allocationFailure, BitVec.ofNat 32 f.1.number, s.base f.1⟩
  | none => none

/-- `OVERLAP`: the two regions of a tile command share a byte and are no exact alias (R457, R109). -/
def checkOverlap (i : Instr) (s : State) : Option ErrRec :=
  if isTile i then
    match srcKind i, dstKind i with
    | some ks, some kd =>
      if s.src.toNat < s.dst.toNat + s.frameBytes kd.esize ∧
          s.dst.toNat < s.src.toNat + s.frameBytes ks.esize ∧
          ¬ (s.src = s.dst ∧ ks.esize = kd.esize) then
        some ⟨.overlap, 1, s.dst⟩
      else none
    | _, _ => none
  else none

/-- R458: the first check that fails, for a legal command word. -/
def check (i : Instr) (s : State) : Option ErrRec :=
  match checkShape i s with
  | some e => some e
  | none =>
    match checkQm i s with
    | some e => some e
    | none =>
      match checkAlign i s with
      | some e => some e
      | none =>
        match checkFit i s with
        | some e => some e
        | none => checkOverlap i s

/-- The memory a frame may not cover: memory with side effects, device registers, and DCTQ's own register
window (R113). -/
def forbiddenSpans (p : Platform) : List Span :=
  { base := p.regBase, size := Config.windowBytes } :: p.devices

/-- The first operand whose region covers such memory (R113, U19). -/
def sideEffectFrame (i : Instr) (s : State) : Option FrameName :=
  match (frames i).find? fun f =>
      (forbiddenSpans s.platform).any fun d => spanMeets (s.region f.1 f.2) d with
  | some f => some f.1
  | none => none

/-- R129: the DST region of a command that ends, of which the host's caches may hold stale copies until the
host invalidates them; recorded only where DMA is not coherent. DESIGN CHOICE (log entry 20): an invalidation
counts from the end of the command on, when `DONE` becomes 1; one before it does not, since the rule asks for one
"after seeing DONE = 1". -/
def noteDmaWritten (i : Instr) (s : State) : List Span :=
  match dstKind i, s.platform.dmaCoherent with
  | some k, false =>
    s.region .dst k.esize :: s.dmaWritten.filter fun r => !spanInside r (s.region .dst k.esize)
  | _, _ => s.dmaWritten

/-- R205, the check step: one engine step, no memory access. -/
def checkStep (i : Instr) (s : State) : Host.Outcome State Fault Refusal :=
  match check i s with
  | some e => .next (raiseErr e s)
  | none =>
    match sideEffectFrame i s with
    | some f => .refused (.sideEffectRegion f.number)
    | none => .next { s with phase := .run }

/-! ## The answers of the memory agent -/

/-- Whether a span decides the answer to an access. -/
def AnswerSpan.decides (p : AnswerSpan) (write : Bool) (a : Access) : Bool :=
  (if write then p.onWrite else p.onRead) && spanMeets p.span { base := a.addr, size := a.size }

/-- How an access is answered: the first span that decides it, and `ok` where none does. -/
def State.answerOf (s : State) (write : Bool) (a : Access) : Answer :=
  match s.answers.find? fun p => p.decides write a with
  | some p => p.answer
  | none => .ok

/-- What can stop a phase of a unit: an access without a response, or a bus error of one access. -/
inductive Trouble where
  | silent (a : Access)
  | error (a : Access)
  deriving DecidableEq, Repr

/-- The trouble of one access. -/
def State.troubleOf (s : State) (write : Bool) (a : Access) : Option Trouble :=
  match s.answerOf write a with
  | .ok => none
  | .error => some (.error a)
  | .silent => some (.silent a)

/-- An access is issued and waits for its response (R225). -/
def State.isAsked (s : State) (a : Access) : Bool := decide (a ∈ s.waited.asked)

/-- An access of a waiting unit has been issued: it was before, or it is now. R120 leaves the order of the
accesses of a phase open, and with it which of them are issued before one that gets no response; so that is a
free choice for each access (log entry 21). -/
def State.isIssued (s : State) (a : Access) : Bool :=
  s.isAsked a || Config.freePick s.freeCount (16 * a.addr + 8 + a.frame.number) % 2 == 1

/-- What the accesses of a phase can meet. Where an access that is already issued gets a bus error, that is an
error response the engine has got, and it does not wait any more (R110: "at once"). -/
def State.troubles (s : State) (write : Bool) (accesses : List Access) : List Trouble :=
  if accesses.any fun a => s.isAsked a && decide (s.answerOf write a = .error) then
    (accesses.filter fun a => decide (s.answerOf write a = .error)).map .error
  else accesses.filterMap (s.troubleOf write)

/-- The trouble a phase of accesses meets, if any. The order of the accesses is unspecified (R120), so where
several of them are in trouble the one met is a draw among them (R216, U13). -/
def State.phaseTrouble (s : State) (write : Bool) (accesses : List Access) : Option Trouble :=
  pickFree s.freeCount (if write then 4 else 12) (s.troubles write accesses)

/-- The reads of the unit that is due which have not got their data yet. -/
def openReads (i : Instr) (s : State) : List Access :=
  (unitReads i s s.unit).filter fun a => !decide (a ∈ s.waited.reads.map fun r => r.access)

/-- The writes of the unit that is due which have not been acknowledged yet. -/
def openWrites (i : Instr) (s : State) : List Access :=
  (unitWrites i s s.unit).filter fun a => !decide (a ∈ s.waited.acks)

/-- The accesses that get their response in a step in which their phase waits. -/
def State.answeredNow (s : State) (write : Bool) (accesses : List Access) : List Access :=
  accesses.filter fun a => s.isIssued a && decide (s.answerOf write a = .ok)

/-- The accesses that stay without a response in a step in which their phase waits for `x`. -/
def State.askedNow (s : State) (write : Bool) (x : Access) (accesses : List Access) : List Access :=
  accesses.filter fun a => (decide (a = x) || s.isIssued a) && decide (s.answerOf write a = .silent)

/-- The data that reads get. -/
def State.fetch (s : State) (accesses : List Access) : List ReadData :=
  accesses.map fun a => { access := a, value := s.dmaRead a.frame a.addr a.size }

/-- Let DST elements hold any value (U14, U15, U16). -/
def freeElems (draw : Nat) (m : Memory) (accesses : List Access) : Memory :=
  accesses.foldl (fun m a => m.writeFree draw a.addr a.size) m

/-! ## Host writes to active regions (R125) -/

/-- One of the bytes of an element is in a list of byte addresses. -/
def Access.touches (a : Access) (bytes : List Nat) : Bool :=
  bytes.any fun b => decide (a.addr ≤ b) && decide (b < a.addr + a.size)

/-- The byte addresses of the host stores under way. -/
def State.pendingAddrs (s : State) : List Nat := s.pending.flatten.map fun c => c.1

/-- The DST elements of unit `t` that R125 leaves open: those of a tile that contains a source element the
host wrote while the command was busy, and those whose own bytes the host wrote, or has stored and not yet
made visible. -/
def disturbedOf (i : Instr) (s : State) (t : Nat) : List Access :=
  if (unitReads i s t).any fun a => a.touches s.touched then unitWrites i s t
  else (unitWrites i s t).filter fun a => a.touches s.touched || a.touches s.pendingAddrs

/-- All of them. A host that keeps its duty (R125) has neither written nor left anything pending, and there
are none. -/
def disturbed (i : Instr) (s : State) : List Access :=
  match s.touched, s.pending with
  | [], [] => []
  | _, _ => (List.range (unitCount i s)).flatMap fun t => disturbedOf i s t

/-- The stores under way without the bytes that satisfy `p`. -/
def dropCells (p : Host.Cell → Bool) (pending : List (List Host.Cell)) : List (List Host.Cell) :=
  (pending.map fun st => st.filter fun c => !p c).filter fun st => !st.isEmpty

/-- R125 at the end of a command: each disturbed element ends as any value, and a host store to it that was
still under way is part of that. -/
def settle (i : Instr) (s : State) : State :=
  match disturbed i s with
  | [] => s
  | a :: rest =>
    { s with
      mem := freeElems s.freeCount s.mem (a :: rest)
      pending := dropCells (fun c => (a :: rest).any fun b => b.touches [c.1]) s.pending }

/-- What the end of a command's run leaves of the memory around it: R125, and R129's stale copies. -/
def closeRun (i : Instr) (s : State) : State := { settle i s with dmaWritten := noteDmaWritten i s }

/-- R220 for a command in phase RUN. -/
def endRun (i : Instr) (code : ErrCode) (info data : Word) (s : State) : State :=
  endCommand code info data (closeRun i s)

/-! ## The run step (R212) -/

/-- The effect of unit `unit` when every access of it has been answered: the writes, the accumulators, the
cursor (R211, R212, R383). -/
def applyUnit (w : UnitWork) (s : State) : State :=
  { s with
    mem := writeElems s.mem w.writes
    accExceed := w.accExceed
    accMax := w.accMax
    unit := s.unit + 1
    wait := none }

/-- R216: a bus error of an access ends the command with `BUS_ERROR`. -/
def busError (i : Instr) (a : Access) (s : State) : State :=
  endRun i .busError (BitVec.ofNat 32 a.frame.number) (BitVec.ofNat 32 a.addr) s

/-- A unit waits for the response of the read `x` (R225). It has started, so no abort ends it (R215), and what
its other reads have got it keeps. -/
def waitForRead (i : Instr) (x : Access) (s : State) : State :=
  { s with
    wait := some
      { reads := s.waited.reads ++ s.fetch (s.answeredNow false (openReads i s))
        acks := s.waited.acks
        asked := s.askedNow false x (openReads i s) } }

/-- A unit waits for the response of the write `x` (R225): every read has got its data, and what its other
writes have got it keeps. -/
def waitForWrite (i : Instr) (x : Access) (s : State) : State :=
  { s with
    wait := some
      { reads := s.waited.reads ++ s.fetch (openReads i s)
        acks := s.waited.acks ++ s.answeredNow true (openWrites i s)
        asked := s.askedNow true x (openWrites i s) } }

/-- R212: after a unit, either the next one is due or the command completes (R221). -/
def afterUnit (i : Instr) (finish : State → State) (s : State) : State :=
  if s.unit = unitCount i s then endRun i .none 0 0 (finish s) else s

/-- One unit: every read, then every write (R120). An access that has got its response is not made again. -/
def runUnit (i : Instr) (work : State → Nat → UnitWork) (finish : State → State) (s : State) : State :=
  match s.phaseTrouble false (openReads i s) with
  | some (.silent a) => waitForRead i a s
  | some (.error a) => busError i a s
  | none =>
    match s.phaseTrouble true (openWrites i s) with
    | some (.silent a) => waitForWrite i a s
    | some (.error a) =>
      busError i a { s with mem := freeElems s.freeCount s.mem (unitWrites i s s.unit) }
    | none => afterUnit i finish (applyUnit (work s s.unit) s)

/-- The state a RUN step is defined in: the operands have passed the checks (R202) and a unit is due
(R212). -/
def runReady (i : Instr) (s : State) : Bool :=
  (check i s).isNone && decide (s.unit < unitCount i s)

/-- R212: the abort test between units (R215), then the unit. -/
def runStep (i : Instr) (work : State → Nat → UnitWork) (finish : State → State) (s : State) :
    Host.Outcome State Fault Refusal :=
  if runReady i s = false then .fault .runOutsideCommand
  else if s.abort = true ∧ s.wait = none then
    .next (endRun i .aborted 0 (BitVec.ofNat 32 s.unit) s)
  else .next (runUnit i work finish s)

/-- One engine step of a command, by phase (R200). An idle engine changes nothing (R496). -/
def commandStep (i : Instr) (work : State → Nat → UnitWork) (finish : State → State) (s : State) :
    Host.Outcome State Fault Refusal :=
  match s.phase with
  | .idle => .next s
  | .check => checkStep i s
  | .run => runStep i work finish s

/-- One engine step of an accepted word that is no command: R454, `ILLEGAL_COMMAND` at the check step, "No
other check is made and no memory is touched". -/
def illegalStep (s : State) : Host.Outcome State Fault Refusal :=
  match s.phase with
  | .idle => .next s
  | .check => .next (raiseErr ⟨.illegalCommand, 0, s.lastcmd⟩ s)
  | .run => .fault .runOutsideCommand

/-- The completion action of the commands that have none (R221). -/
def noAction (s : State) : State := s

/-- The work of a tile unit (R211): read the tile, apply the block function, write the tile. -/
def tileWork (ks kd : FrameKind) (blockfn : State → Block → Block) (s : State) (t : Nat) : UnitWork :=
  { writes := s.tileWrites kd t (blockfn s (s.readTile ks t))
    accExceed := s.accExceed
    accMax := s.accMax }

end Sys2Proof.Machine
end

