-- ==== Sys2Proof/Machine/Pipeline.lean ====
section
/-! DEFINITION. The tiled pipeline commands QUANT (R335), DEQUANT (R336), ENCODE (R337) and DECODE (R338). -/

namespace Sys2Proof.Machine

/-- R335: `blockfn(A)[u][v] = quant(A[u][v], sext_32(QM[u][v]))`. -/
def quantWork (s : State) (t : Nat) : UnitWork :=
  tileWork .coefficient .quantized (fun s b => quantBlock s.qmBlock b) s t

/-- QUANT (R335). -/
def execQuant (s : State) : Host.Outcome State Fault Refusal := commandStep .quant quantWork noAction s

/-- R336: `blockfn(A)[u][v] = deq(A[u][v], sext_32(QM[u][v]))`. -/
def dequantWork (s : State) (t : Nat) : UnitWork :=
  tileWork .quantized .coefficient (fun s b => deqBlock s.qmBlock b) s t

/-- DEQUANT (R336). -/
def execDequant (s : State) : Host.Outcome State Fault Refusal :=
  commandStep .dequant dequantWork noAction s

/-- R337: `blockfn(f)[u][v] = quant(fdct_N(f)[u][v], sext_32(QM[u][v]))`. -/
def encodeWork (s : State) (t : Nat) : UnitWork :=
  tileWork .sample .quantized (fun s b => quantBlock s.qmBlock (fdctBlock s.blockSize b)) s t

/-- ENCODE (R337). -/
def execEncode (s : State) : Host.Outcome State Fault Refusal := commandStep .encode encodeWork noAction s

/-- R338: `blockfn(q) = idct_N(G)` with `G[u][v] = deq(q[u][v], sext_32(QM[u][v]))`. -/
def decodeWork (s : State) (t : Nat) : UnitWork :=
  tileWork .quantized .sample (fun s b => idctBlock s.blockSize (deqBlock s.qmBlock b)) s t

/-- DECODE (R338). -/
def execDecode (s : State) : Host.Outcome State Fault Refusal := commandStep .decode decodeWork noAction s

end Sys2Proof.Machine
end

