-- ==== Sys2Proof/Machine/QmBuild.lean ====
section
/-! DEFINITION. QMBUILD, the tiled quantization-matrix builder (R250 to R256). -/

namespace Sys2Proof.Machine

/-- R252, unit `i` of QMBUILD: element `(i, j)` becomes `sext_32(QM[i mod N][j mod N])`, for every column. -/
def qmbuildWork (s : State) (t : Nat) : UnitWork :=
  { writes := (List.range s.cols).map fun j =>
      s.dstWrite .tiledQm t j (s.qmStep (t % s.blockSize) (j % s.blockSize))
    accExceed := s.accExceed
    accMax := s.accMax }

/-- R254, the completion action of QMBUILD. -/
def qmbuildFinish (s : State) : State := { s with qmUnaligned := qmUnalignedFlag s }

/-- QMBUILD (R250). -/
def execQmbuild (s : State) : Host.Outcome State Fault Refusal :=
  commandStep .qmbuild qmbuildWork qmbuildFinish s

end Sys2Proof.Machine
end

