-- ==== Sys2Proof/Machine/Transform.lean ====
section
/-! DEFINITION. The block transform commands FDCT (R295) and IDCT (R296). -/

namespace Sys2Proof.Machine

/-- R295: the tile unit with `blockfn = fdct_N`. -/
def fdctWork (s : State) (t : Nat) : UnitWork :=
  tileWork .sample .coefficient (fun s b => fdctBlock s.blockSize b) s t

/-- FDCT (R295). -/
def execFdct (s : State) : Host.Outcome State Fault Refusal := commandStep .fdct fdctWork noAction s

/-- R296: the tile unit with `blockfn = idct_N`. -/
def idctWork (s : State) (t : Nat) : UnitWork :=
  tileWork .coefficient .sample (fun s b => idctBlock s.blockSize b) s t

/-- IDCT (R296). -/
def execIdct (s : State) : Host.Outcome State Fault Refusal := commandStep .idct idctWork noAction s

end Sys2Proof.Machine
end

