-- ==== Sys2Proof/Machine/Verify.lean ====
section
/-! DEFINITION. VERIFY, the fidelity comparator (R380 to R388). -/

namespace Sys2Proof.Machine

/-- R383: the absolute differences of frame row `i`. -/
def rowDiffs (s : State) (i : Nat) : List Nat :=
  (List.range s.cols).map fun j =>
    (s.readElem .src .sample i j - s.readElem .src2 .sample i j).natAbs

/-- R383, unit `i` of VERIFY: count the differences over the tolerance, keep the largest. It writes no
memory. DESIGN CHOICE (log entry 10): R125 opens only DST elements and says nothing of the report of a VERIFY one of
whose frames the host writes while BUSY; the report is then that of the values the reads got, each the stored or an
older one (R124). -/
def verifyWork (s : State) (t : Nat) : UnitWork :=
  { writes := []
    accExceed := s.accExceed + ((rowDiffs s t).filter (exceedsTol s.tol)).length
    accMax := (rowDiffs s t).foldl max s.accMax }

/-- R386, the completion action of VERIFY: the four report registers together. -/
def verifyFinish (s : State) : State :=
  { s with
    rptExceed := BitVec.ofNat 32 s.accExceed
    rptTotal := BitVec.ofNat 32 (s.rows * s.cols)
    rptMaxerr := BitVec.ofNat 32 s.accMax
    rptPassed := passedFlag s.accExceed }

/-- VERIFY (R380). -/
def execVerify (s : State) : Host.Outcome State Fault Refusal :=
  commandStep .verify verifyWork verifyFinish s

end Sys2Proof.Machine
end

