-- ==== Sys2Proof/Machine/HostAccess.lean ====
section
/-! DEFINITION. The host's accesses to the register window (R33, R34, R410 to R421). -/

namespace Sys2Proof.Machine

/-- What stands at an offset of the window (R33). -/
inductive Reg where
  | id
  | ctrl
  | status
  | cmd
  | cfg
  | dim
  | dim2
  | src
  | src2
  | dst
  | tol
  | rptExceed
  | rptTotal
  | rptMaxerr
  | rptFlags
  | errinfo
  | errdata
  | progress
  | qm (k : Fin 256)
  | reserved
  deriving DecidableEq, Repr

/-- The register map of R33 below the QM file. -/
def regMap : List (Nat × Reg) :=
  [(0x000, .id), (0x004, .ctrl), (0x008, .status), (0x00C, .cmd), (0x010, .cfg), (0x014, .dim),
   (0x018, .dim2), (0x01C, .src), (0x020, .src2), (0x024, .dst), (0x028, .tol), (0x02C, .rptExceed),
   (0x030, .rptTotal), (0x034, .rptMaxerr), (0x038, .rptFlags), (0x03C, .errinfo), (0x040, .errdata),
   (0x044, .progress)]

/-- The register at an aligned offset (R33, R51, R53). -/
def regAt (off : Nat) : Reg :=
  match regMap.find? fun r => r.1 == off with
  | some r => r.2
  | none =>
    if 0x100 ≤ off ∧ off < 0x500 then .qm (Fin.ofNat 256 ((off - 0x100) / 4)) else .reserved

/-- R410: a 32-bit access at a multiple of 4 in `0x000..0xFFC`. -/
def accessOk (width off : Nat) : Bool :=
  width == 4 && off % 4 == 0 && decide (off < Config.windowBytes)

/-- R411: what a read returns. -/
def regRead (s : State) : Reg → Word
  | .id => Config.idWord
  | .ctrl => s.ctrlWord
  | .status => s.statusWord
  | .cmd => s.lastcmd
  | .cfg => s.cfgWord
  | .dim => s.dim
  | .dim2 => s.dim2
  | .src => s.src
  | .src2 => s.src2
  | .dst => s.dst
  | .tol => s.tol
  | .rptExceed => s.rptExceed
  | .rptTotal => s.rptTotal
  | .rptMaxerr => s.rptMaxerr
  | .rptFlags => s.rptFlagsWord
  | .errinfo => s.errinfo
  | .errdata => s.errdata
  | .progress => s.progressWord
  | .qm k => s.qm.get k
  | .reserved => 0#32

/-- R415: while BUSY a write to a locked register, or to CMD, changes nothing but `WDROP`. -/
def whenIdle (s : State) (write : State → State) : State :=
  if s.busy then { s with wdrop := true } else write s

/-- R418: a write to CTRL, never locked. -/
def writeCtrl (w : Word) (s : State) : State :=
  { s with
    ie := w.getLsbD 0
    abort := if w.getLsbD 1 = true ∧ s.busy = true then true else s.abort }

/-- R417, the WDROP half of a STATUS write: write 1 to clear. -/
def clearWdrop (w : Word) (s : State) : State := { s with wdrop := s.wdrop && !w.getLsbD 3 }

/-- R417: a write to STATUS clears DONE (the acknowledge of R475) and WDROP, each by a 1 in its bit. -/
def writeStatus (w : Word) (s : State) : State :=
  clearWdrop w (if w.getLsbD 1 then acknowledge s else s)

/-- R412: what a write does, by the register's access type (R34). -/
def regWrite (w : Word) (s : State) : Reg → State
  | .id => s
  | .ctrl => writeCtrl w s
  | .status => writeStatus w s
  | .cmd => whenIdle s (acceptCommand w)
  | .cfg => whenIdle s fun s => { s with log2n := w.extractLsb' 0 3 }
  | .dim => whenIdle s fun s => { s with dim := w }
  | .dim2 => whenIdle s fun s => { s with dim2 := w }
  | .src => whenIdle s fun s => { s with src := w }
  | .src2 => whenIdle s fun s => { s with src2 := w }
  | .dst => whenIdle s fun s => { s with dst := w }
  | .tol => whenIdle s fun s => { s with tol := w }
  | .rptExceed => s
  | .rptTotal => s
  | .rptMaxerr => s
  | .rptFlags => s
  | .errinfo => s
  | .errdata => s
  | .progress => s
  | .qm k => whenIdle s fun s => s.qmSet k w
  | .reserved => s

/-- What the last host access got back. -/
def respond (r : Response) (s : State) : State := { s with hostResp := some r }

/-- A host read of the window: data, or an error response and no effect (R410, R411). -/
def hostRead (width off : Nat) (s : State) : State :=
  if accessOk width off then respond (.data (regRead s (regAt off))) s else respond .error s

/-- A host write to the window: its effect, or an error response and no effect (R410, R412). -/
def hostWrite (width off : Nat) (w : Word) (s : State) : State :=
  if accessOk width off then respond .ack (regWrite w s (regAt off)) else respond .error s

end Sys2Proof.Machine
end

