-- ==== Sys2Proof/Machine/Environment.lean ====
section
/-! DEFINITION. The agents around the engine: the host's own path to system memory (R100, R124, R125, R129),
the memory agent (R110, R225), and the reset input (R520). -/

namespace Sys2Proof.Machine

/-! ## Host stores -/

/-- The cells a host store writes. DESIGN CHOICE (log entry 14): every address of the DMA space is plain memory
here, also one inside the register window (`REG_BASE` below 2^32) or a device span; addresses outside the DMA space
are not this memory, and their bytes are dropped. -/
def storeCells (a : Nat) (bs : List Byte) : List Host.Cell :=
  (bs.zipIdx.map fun p => (a + p.2, p.1)).filter fun c => decide (c.1 < Config.dmaSpace)

/-- The aligned 4-byte word that holds an address. -/
def wordSpan (a : Nat) : Span := { base := 4 * (a / 4), size := 4 }

/-- The bytes of a host store, one store for each aligned word they lie in. An element lies inside one such word
(R106), so the store of an element is one store. -/
def splitWords : List Host.Cell → List (List Host.Cell)
  | [] => []
  | c :: cs =>
    match splitWords cs with
    | (d :: ds) :: rest => if d.1 / 4 = c.1 / 4 then (c :: d :: ds) :: rest else [c] :: (d :: ds) :: rest
    | [] :: rest => [c] :: rest
    | [] => [[c]]

/-- A host store to system memory, not to the register window, whose accesses are `hostRead` and `hostWrite` (log
entry 14): it is under way until a fence or a cache clean makes it visible to DMA (R124, R129). While a command
runs, the addresses are remembered (R125). -/
def hostStore (a : Nat) (bs : List Byte) (s : State) : State :=
  { s with
    pending := s.pending ++ splitWords (storeCells a bs)
    touched := if s.busy then s.touched ++ (storeCells a bs).map (fun c => c.1) else s.touched
    hostResp := some .ack }

/-- The stores under way that satisfy `p` reach memory, oldest first; the others stay under way. A store that
lands while a command runs was a host write at that time (R125), and nothing orders it before the `CMD` write
(R124). DESIGN CHOICE (log entry 22): a store that lands
writes its own bytes only; no neighbouring byte is written back with it. -/
def drainWhere (p : List Host.Cell → Bool) (s : State) : State :=
  { s with
    mem := s.mem.writeCells (s.pending.filter p).flatten
    pending := s.pending.filter fun st => !p st
    touched :=
      if s.busy then s.touched ++ (s.pending.filter p).flatten.map (fun c => c.1) else s.touched
    landed := if s.busy then s.landed ++ s.pending.filter p else s.landed }

/-- Every store under way reaches memory. -/
def drainStores (s : State) : State := drainWhere (fun _ => true) s

/-- R129: the host cleans its caches over a region. The stores to words that share a byte with the region reach
memory. DESIGN CHOICE (log entry 9): the rule speaks of cleaning "over the source regions" and names no unit; a
clean here reaches whole aligned words, and nothing outside the words the region meets. -/
def cleanCaches (base size : Nat) (s : State) : State :=
  drainWhere (fun st => st.any fun c => spanMeets (wordSpan c.1) { base := base, size := size }) s

/-- A host barrier: with coherent DMA it makes the stores before it visible (R124); without, the host's
caches still hold them (R129). -/
def hostFence (s : State) : State := if s.platform.dmaCoherent then drainStores s else s

/-- R129: the host invalidates its caches over a region. DESIGN CHOICE (log entry 20): the rule names no unit;
exactly the bytes of the region lose their stale copies, so a host may invalidate a region in pieces. DESIGN CHOICE
(log entry 22): the host's own stores under way over the region are neither discarded nor written back; they stay
under way. -/
def invalidate (base size : Nat) (s : State) : State :=
  { s with dmaWritten := s.dmaWritten.flatMap fun r => spanMinus r { base := base, size := size } }

/-! ## Host loads -/

/-- The work of unit `t` of a command (R211, R252, R383). -/
def workOf (i : Instr) (s : State) (t : Nat) : UnitWork :=
  match i with
  | .qmbuild => qmbuildWork s t
  | .fdct => fdctWork s t
  | .idct => idctWork s t
  | .quant => quantWork s t
  | .dequant => dequantWork s t
  | .encode => encodeWork s t
  | .decode => decodeWork s t
  | .verify => verifyWork s t

/-- The command whose regions are active (R125: "while STATUS.BUSY = 1"): one in phase RUN, or one in phase
CHECK whose checks will pass. -/
def activeCommand (s : State) : Option Instr :=
  match s.phase with
  | .idle => none
  | .check => (decodeWord s.lastcmd).toOption.filter fun i => (check i s).isNone
  | .run => (decodeWord s.lastcmd).toOption

/-- The unit and the access that write a byte of the running command's DST frame. -/
def writerOf (i : Instr) (s : State) (a : Nat) : Option (Nat × Access) :=
  (List.range (unitCount i s)).findSome? fun t =>
    ((unitWrites i s t).find? fun w => w.touches [a]).map fun w => (t, w)

/-- A DST element whose new value is open when the host loads it while the command runs (R125, R124): the host
wrote it or an element of its source tile while BUSY, or has a store to it under way, or a store under way to
the source tile of a unit that is not done. -/
def loadOpen (i : Instr) (s : State) (t : Nat) (w : Access) : Bool :=
  w.touches s.touched || w.touches s.pendingAddrs ||
    (unitReads i s t).any fun r => r.touches s.touched || (decide (s.unit ≤ t) && r.touches s.pendingAddrs)

/-- R125: a byte of a DST element while the command runs, the old or the new one of the element; the choice
is one for the element, since an element access is atomic (R111). Where the host has broken R125 the element's
new value is any value, and so is what a load gets. DESIGN CHOICE (log entry 10): the rule does not say whether
a host that stored to the element itself gets back its own store; "any value" covers it. -/
def activeByte (i : Instr) (s : State) (t : Nat) (w : Access) (a : Nat) : Byte :=
  if loadOpen i s t w then Config.freeByte s.freeCount a
  else if Config.freePick s.freeCount (16 * w.addr) % 2 = 0 then s.memOld.read a
  else if t < s.unit then s.mem.read a
  else (writeElems s.mem (workOf i s t).writes).read a

/-- The unit and the access that write a byte of the active command's DST frame, with the command. -/
def activeWriter (s : State) (a : Nat) : Option (Instr × Nat × Access) :=
  (activeCommand s).bind fun i => (writerOf i s a).map fun p => (i, p)

/-- R129: the host's caches may hold a stale copy of a byte. -/
def isStale (s : State) (a : Nat) : Bool := s.dmaWritten.any fun r => spanHas r a

/-- A byte outside every active DST frame as the host loads it: its own latest store first; a byte its caches
may hold stale, any value (R129); else memory. -/
def quietByte (s : State) (a : Nat) : Byte :=
  match s.pending.flatten.reverse.find? fun c => c.1 == a with
  | some c => c.2
  | none => if isStale s a then Config.freeByte s.freeCount a else s.mem.read a

/-- A byte as the host loads it: a byte of an active DST frame, any value where the host's caches may hold it
stale (R129), else old or new (R125); every other byte as `quietByte` says. -/
def hostByte (s : State) (a : Nat) : Byte :=
  match activeWriter s a with
  | some (i, t, w) =>
    if isStale s a then Config.freeByte s.freeCount a else activeByte i s t w a
  | none => quietByte s a

/-- A host load from system memory. DESIGN CHOICE (log entry 14): every address of the DMA space is plain memory
here, also one inside the register window (`REG_BASE` below 2^32) or a device span; a load that leaves the DMA space
gets an error response. -/
def hostLoad (a count : Nat) (s : State) : State :=
  if a + count ≤ Config.dmaSpace then
    respond (.bytes ((List.range count).map fun k => hostByte s (a + k))) s
  else respond .error s

/-! ## Reset -/

/-- R520: what a reset leaves of memory and of the host's stores and caches. A command in phase RUN is
abandoned; its current unit's DST elements may each hold any value. What the host disturbed is open as at every
end of a command (R125), and in phase CHECK nothing else is. -/
def abandon (s : State) : State :=
  match activeCommand s, s.phase with
  | some i, .run => closeRun i { s with mem := freeElems s.freeCount s.mem (unitWrites i s s.unit) }
  | some i, .check => settle i s
  | some _, .idle => s
  | none, _ => s

/-- R520: every register, field and hidden state takes its reset value; memory, the memory agent, the host's
stores and caches and the coming actions are not DCTQ's and stay. -/
def resetStep (s : State) : State :=
  { State.resetOn s.platform with
    mem := (abandon s).mem
    pending := (abandon s).pending
    answers := s.answers
    dmaWritten := (abandon s).dmaWritten
    hostResp := s.hostResp
    agenda := s.agenda
    freeCount := s.freeCount }

/-! ## One action of an agent -/

/-- The effect of an agent's action. The engine's own step is taken by `step`, which does not come here with
it. -/
def envStep (e : Event) (s : State) : State :=
  match e with
  | .engine => s
  | .regRead width off => hostRead width off s
  | .regWrite width off w => hostWrite width off w s
  | .memStore a bs => hostStore a bs s
  | .memLoad a count => hostLoad a count s
  | .fence => hostFence s
  | .cacheClean base size => cleanCaches base size s
  | .cacheInvalidate base size => invalidate base size s
  | .memAgent answers => { s with answers := answers }
  | .reset => resetStep s

end Sys2Proof.Machine
end

