-- ==== Sys2Proof/Machine/Step.lean ====
section
/-! DEFINITION. One step of the machine: the head of the agenda acts, and the engine where the agenda is
empty (R414, R540). The engine fetches nothing (R31): the command it runs is the word that acceptance left in
LASTCMD (R201, R37). -/

namespace Sys2Proof.Machine

/-- One engine step (R226). Idle, the engine changes no state (R496). Otherwise LASTCMD is decoded (R152)
and the command's step is taken, or that of an illegal word (R454). -/
def engineStep (s : State) : Host.Outcome State Fault Refusal :=
  match s.phase with
  | .idle => .next s
  | .check =>
    match decodeWord s.lastcmd with
    | .ok i => exec i s
    | .error _ => illegalStep s
  | .run =>
    match decodeWord s.lastcmd with
    | .ok i => exec i s
    | .error _ => illegalStep s

/-- One step. The model's step counter moves on first (log entry 7). -/
def step (s : State) : Host.Outcome State Fault Refusal :=
  match s.agenda with
  | [] => engineStep s.tick
  | .engine :: rest => engineStep { s.tick with agenda := rest }
  | e :: rest => .next (envStep e { s.tick with agenda := rest })

/-- `s` with a command word accepted (R201), so that the very next step is an engine step that runs it (log
entry 8). The word's bits above `nbits` are 0. -/
def State.withFetchWord (s : State) (nbits w : Nat) : State :=
  { acceptCommand (tableWord nbits w) s with agenda := .engine :: s.agenda }

end Sys2Proof.Machine
end

