-- ==== Sys2Proof/Safety.lean ====
section
/-! DEFINITION. What the statements speak of: the states in which a unit is due, the host's duties, the
states a unit and a command leave, the invariants of a run, and the block and frame functions of the spec as
the statements write them. -/

namespace Sys2Proof.Machine

/-! ## Situations of a command -/

/-- Command `i` has passed its checks and its unit `unit` is due (R202, R212). -/
def UnitDue (i : Instr) (s : State) : Prop :=
  s.phase = .run ∧ check i s = none ∧ s.unit < unitCount i s

/-- No abort ends the command before this unit: none is pending, or the unit has already started (R215). -/
def NotAborted (s : State) : Prop := s.abort = false ∨ s.wait ≠ none

/-- The memory agent answers every access of the unit that is due, and that has no response yet, with data or
an acknowledgement (R110). -/
def UnitAnswered (i : Instr) (s : State) : Prop :=
  (∀ a ∈ openReads i s, s.answerOf false a = .ok) ∧
  (∀ a ∈ openWrites i s, s.answerOf true a = .ok)

/-- The data that a waiting unit has got is what memory holds. With a quiet host this is an invariant
(`WaitInv`); a unit that has not waited has got none. -/
def ReadsAgree (s : State) : Prop :=
  ∀ r ∈ s.waited.reads, r.value = s.mem.readLE r.access.addr r.access.size

/-- The host has kept its duties: no store of it is under way (R124), it has written nothing while the command
ran (R125), and no store of it has landed meanwhile. -/
def HostQuiet (s : State) : Prop := s.pending = [] ∧ s.touched = [] ∧ s.landed = []

/-- What the statements about a unit that completes assume. -/
def UnitRuns (i : Instr) (s : State) : Prop :=
  UnitDue i s ∧ NotAborted s ∧ UnitAnswered i s ∧ HostQuiet s ∧ ReadsAgree s

/-- Nothing can end the run of a command but its completion: no abort is pending, the host is quiet and
moves no more, and every access is answered. -/
def RunsFreely (s : State) : Prop :=
  s.abort = false ∧ s.agenda = [] ∧ s.answers = [] ∧ HostQuiet s ∧ s.wait = none

/-! ## States after a unit and after a command -/

/-- `s` after a unit that is not the last: memory `m`, the cursor one further (R212). -/
def afterInnerUnit (m : Memory) (s : State) : State :=
  { s with mem := m, unit := s.unit + 1, wait := none }

/-- `s` after the last unit of a command without completion action: memory `m`, the cursor one further, and
what `complete(0, 0, 0)` writes (R220, R221). `dmaWritten` is the model's record of R129 (log entry 20). -/
def afterLastUnit (i : Instr) (m : Memory) (s : State) : State :=
  { s with
    mem := m
    unit := s.unit + 1
    wait := none
    dmaWritten := noteDmaWritten i s
    errcode := 0#4
    err := false
    errinfo := 0#32
    errdata := 0#32
    abort := false
    busy := false
    done := true
    phase := .idle
    touched := []
    landed := []
    memOld := [] }

/-- `s` after a unit of a command without completion action (R212, R221). -/
def afterTileUnit (i : Instr) (m : Memory) (s : State) : State :=
  if s.unit + 1 = unitCount i s then afterLastUnit i m s else afterInnerUnit m s

/-- `s` after a command has ended with an error, but for memory (R220, R450). -/
def afterError (code : BitVec 4) (info data : Word) (s : State) : State :=
  { s with
    errcode := code
    err := true
    errinfo := info
    errdata := data
    abort := false
    busy := false
    done := true
    phase := .idle
    wait := none
    touched := []
    landed := []
    memOld := [] }

/-- `s` after a command has ended with an error in phase RUN, but for memory (R215, R216); `dmaWritten` as in
`afterLastUnit`. -/
def afterRunError (i : Instr) (code : BitVec 4) (info data : Word) (s : State) : State :=
  { afterError code info data s with dmaWritten := noteDmaWritten i s }

/-- An outcome is the end of `s`'s command with an error: what `complete` writes (R220, R450), and every other
register and all of memory as in `s`. The model's own records of a running command (log entries 4 and 6) are
left open. -/
def EndsInError (o : Host.Outcome State Fault Refusal) (code : BitVec 4) (info data : Word) (s : State) :
    Prop :=
  ∃ wait touched landed memOld, o = .next
    { s with
      errcode := code
      err := true
      errinfo := info
      errdata := data
      abort := false
      busy := false
      done := true
      phase := .idle
      wait := wait
      touched := touched
      landed := landed
      memOld := memOld }

/-! ## Frames and tiles as the rules index them -/

/-- `a` is one of the bytes of an element of `size` bytes at `base`. -/
def InElem (a base size : Nat) : Prop := base ≤ a ∧ a < base + size

/-- The byte address of DST element `(x, y)` of tile `t` (R104, R105). -/
def tileAddr (s : State) (f : FrameName) (k : FrameKind) (t x y : Nat) : Nat :=
  s.elemAddr f k.esize (t / s.tileCols * s.blockSize + x) (t % s.tileCols * s.blockSize + y)

/-- Every byte of memory reads in `m` as it does in `s`, but for the bytes of the DST elements of tile `t`
(R112). -/
def OnlyTileWritten (s : State) (k : FrameKind) (t : Nat) (m : Memory) : Prop :=
  ∀ a, (∀ x < s.blockSize, ∀ y < s.blockSize, ¬ InElem a (tileAddr s .dst k t x y) k.esize) →
    m.read a = s.mem.read a

/-- Every byte of memory reads in `m` as it does in `s`, but for the bytes of the DST elements of frame row
`i` (R112). -/
def OnlyRowWritten (s : State) (k : FrameKind) (i : Nat) (m : Memory) : Prop :=
  ∀ a, (∀ j < s.cols, ¬ InElem a (s.elemAddr .dst k.esize i j) k.esize) → m.read a = s.mem.read a

/-- The 16-bit sample, sign-extended, that memory holds for element `(x, y)` of tile `t` of the frame at SRC
(R102, R105). -/
def srcSample (s : State) (t x y : Nat) : Int :=
  (BitVec.ofNat 16 (s.mem.readLE (tileAddr s .src .sample t x y) 2)).toInt

/-- The 32-bit word, sign-extended, that memory holds for element `(x, y)` of tile `t` of the frame at SRC
(R102, R105). -/
def srcWord (s : State) (t x y : Nat) : Int :=
  (BitVec.ofNat 32 (s.mem.readLE (tileAddr s .src .coefficient t x y) 4)).toInt

/-- The sample that memory `m` holds for element `(i, j)` of the frame at a base (R102, R104). -/
def sampleAt (m : Memory) (s : State) (f : FrameName) (i j : Nat) : Int :=
  (BitVec.ofNat 16 (m.readLE ((s.base f).toNat + (i * s.cols + j) * 2) 2)).toInt

/-- The sum of `g 0`, ..., `g (n - 1)`. -/
def sumBelow (n : Nat) (g : Nat → Int) : Int := ((List.range n).map g).sum

/-- R287 as the rule writes it: `F[u][v]` for a block given by its values. -/
def fdctValue (n : Nat) (f : Nat → Nat → Int) (u v : Nat) : Int :=
  clamp (rshr (sumBelow n fun x => sumBelow n fun y => cosEntry n u x * cosEntry n v y * f x y) 52)
    (-2 ^ 31) (2 ^ 31 - 1)

/-- R288 as the rule writes it: `out[x][y]` for a block given by its values. -/
def idctValue (n : Nat) (g : Nat → Nat → Int) (x y : Nat) : Int :=
  clamp (rshr (sumBelow n fun u => sumBelow n fun v => cosEntry n u x * cosEntry n v y * g u v) 68)
    (-32768) 32767

/-- The value that the rules of the six tile commands give DST element `(x, y)` of tile `t` (R295, R296, R335
to R338); QMBUILD and VERIFY have no tiles. -/
def tileValue (i : Instr) (s : State) (t x y : Nat) : Int :=
  match i with
  | .fdct => fdctValue s.blockSize (srcSample s t) x y
  | .idct => idctValue s.blockSize (srcWord s t) x y
  | .quant => rdiv (srcWord s t x y) (256 * (s.qmStep x y).toNat)
  | .dequant => clamp (srcWord s t x y * s.qmStep x y * 256) (-2 ^ 31) (2 ^ 31 - 1)
  | .encode => rdiv (fdctValue s.blockSize (srcSample s t) x y) (256 * (s.qmStep x y).toNat)
  | .decode =>
    idctValue s.blockSize
      (fun u v => clamp (srcWord s t u v * s.qmStep u v * 256) (-2 ^ 31) (2 ^ 31 - 1)) x y
  | .qmbuild => 0
  | .verify => 0

/-- Element `(x, y)` of DST tile `t` holds the value in `m`, as its kind stores it (R102). -/
def TileHolds (s : State) (k : FrameKind) (t : Nat) (value : Nat → Nat → Int) (m : Memory) : Prop :=
  ∀ x < s.blockSize, ∀ y < s.blockSize,
    (m.readLE (tileAddr s .dst k t x y) k.esize : Int) = value x y % 2 ^ (8 * k.esize)

/-- A block of `n` rows of `n` values. -/
def IsBlock (n : Nat) (b : Block) : Prop := b.length = n ∧ ∀ row ∈ b, row.length = n

/-- Every value of a block is a 16-bit sample (R102). -/
def IsSampleBlock (n : Nat) (b : Block) : Prop :=
  IsBlock n b ∧ ∀ row ∈ b, ∀ a ∈ row, -32768 ≤ a ∧ a ≤ 32767

/-- The legal block sizes (R11). -/
def LegalSize (n : Nat) : Prop := n = 2 ∨ n = 4 ∨ n = 8 ∨ n = 16

/-- The `n×n` block whose every value is `c`. -/
def constBlock (n : Nat) (c : Int) : Block := List.replicate n (List.replicate n c)

/-! ## Invariants of a run -/

/-- A host store under way has bytes, and they lie in memory. -/
def PendingOk (s : State) : Prop := ∀ st ∈ s.pending, st ≠ [] ∧ ∀ c ∈ st, c.1 < Config.dmaSpace

/-- Memory, and its copy for R125, are in canonical form. -/
def MemInv (s : State) : Prop := s.mem.wf = true ∧ s.memOld.wf = true ∧ PendingOk s

/-- The status bits agree with each other and with the phase: BUSY is 0 exactly when the engine is IDLE (R60);
ERR is 1 exactly when ERRCODE is not 0, which is never above 8 (R35, R451); while a command runs there is no
DONE, no error record and no QM_UNALIGNED (R201); an abort is pending, and a unit has started, only while a
command runs (R36, R215). -/
def StatusInv (s : State) : Prop :=
  (s.busy = false ↔ s.phase = .idle) ∧
  (s.err = true ↔ s.errcode ≠ 0#4) ∧
  s.errcode.toNat ≤ 8 ∧
  (s.busy = true → s.done = false ∧ s.errcode = 0#4 ∧ s.errinfo = 0#32 ∧ s.errdata = 0#32 ∧
    s.qmUnaligned = false) ∧
  (s.abort = true → s.busy = true) ∧
  (s.wait ≠ none → s.phase = .run)

/-- A running command has passed its checks, a unit of it is due, and its accumulators are within their
bounds; a command in its check step has done nothing yet (R201, R202, R205, R212, R385). -/
def CommandInv (s : State) : Prop :=
  (s.phase = .check → s.unit = 0 ∧ s.accExceed = 0 ∧ s.accMax = 0) ∧
  (s.phase = .run → ∃ i, decodeWord s.lastcmd = .ok i ∧ check i s = none ∧ sideEffectFrame i s = none ∧
    s.unit < unitCount i s ∧ s.accExceed ≤ s.unit * s.cols ∧ s.accMax ≤ 65535)

/-- What a waiting unit keeps (R225): the accesses without a response are reads of the unit, or, once every
read has got its data, writes of it; and with a quiet host the data is what memory holds. -/
def WaitInv (s : State) : Prop :=
  ∀ i, s.phase = .run → decodeWord s.lastcmd = .ok i →
    ((∀ a ∈ s.waited.asked, a ∈ openReads i s) ∨
      (openReads i s = [] ∧ ∀ a ∈ s.waited.asked, a ∈ openWrites i s)) ∧
    (HostQuiet s → ReadsAgree s)

/-- The report agrees with itself (R46 to R48): PASSED is set only beside a count of 0, and the maximum is
that of 16-bit samples. -/
def ReportInv (s : State) : Prop :=
  (s.rptPassed = true → s.rptExceed = 0#32) ∧ s.rptMaxerr.toNat ≤ 65535

/-- The invariant of every run. -/
def Inv (s : State) : Prop := MemInv s ∧ StatusInv s ∧ CommandInv s ∧ WaitInv s ∧ ReportInv s

/-! ## Endless runs and fairness (R225) -/

/-- An endless run of the machine. -/
def IsRun (r : Nat → State) : Prop := ∀ n, Sys2Proof.Machine.step (r n) = .next (r (n + 1))

/-- The next step is the engine's. -/
def EngineMoves (s : State) : Prop := s.agenda = [] ∨ s.agenda.head? = some .engine

/-- The memory agent answers `a`, with data, an acknowledgement or a bus error, where the engine asks now. -/
def Responds (s : State) (a : Access) : Prop := s.answerOf (decide (a.frame = .dst)) a ≠ .silent

/-- R225: "A model takes the memory agent's responses as weakly fair". An access that is issued without a
response, and is not given one before, meets an engine step at which the memory agent answers it. -/
def WeaklyFair (r : Nat → State) : Prop :=
  ∀ n, ∀ a ∈ (r n).waited.asked, ∃ m, n ≤ m ∧ EngineMoves (r m) ∧
    (a ∉ (r m).waited.asked ∨ Responds (r m) a)

/-! ## Comparing two runs -/

/-- A change of the state carried through an outcome. -/
def mapNext (f : State → State) :
    Host.Outcome State Fault Refusal → Host.Outcome State Fault Refusal
  | .next s => .next (f s)
  | .fault r => .fault r
  | .refused r => .refused r

/-- The completion action of a command (R221). -/
def finishOf : Instr → State → State
  | .qmbuild => qmbuildFinish
  | .fdct => noAction
  | .idct => noAction
  | .quant => noAction
  | .dequant => noAction
  | .encode => noAction
  | .decode => noAction
  | .verify => verifyFinish

end Sys2Proof.Machine
end

