-- ==== Sys2Proof/Certificates/Slice0/Obligations.lean ====
section
/-! DEFINITION. The statements about DCTQ for the provers. The rule each one rests on is named in its
docstring and in OBLIGATIONS.json. -/

open Sys2Proof Sys2Proof.Machine

/-! ## Encoding (30_encoding.md) -/

/-- Words written out bit by bit from R150 and R151: four legal ones, and one of each illegal kind of R155. -/
def Obligations.SpecWordsDecode : Prop :=
  decodeWord 0b00000000000000000000000000000001#32 = .ok .qmbuild ∧
  decodeWord 0b00000000000000000000000000000010#32 = .ok .fdct ∧
  decodeWord 0b00000000000000000000000000000110#32 = .ok .encode ∧
  decodeWord 0b00000000000000000000000000001000#32 = .ok .verify ∧
  decodeWord 0b00000000000000000000000000000000#32 = .error .illegalOpcode ∧
  decodeWord 0b00000000000000000000000000001001#32 = .error .illegalOpcode ∧
  decodeWord 0b00000000000000000000000000010010#32 = .error .reservedBits ∧
  decodeWord 0b10000000000000000000000000000010#32 = .error .reservedBits

/-- R151, R152: decoding the bytes of a command gives the command back and leaves the bytes after it, and no
other word decodes to it. -/
def Obligations.DecodeAndEncodeAgree : Prop :=
  (∀ (i : Instr) (rest : List Byte), decodeBytes (encodeBytes i ++ rest) = .ok (i, rest)) ∧
  (∀ (w : Word) (i : Instr), decodeWord w = .ok i ↔ w = encode i)

/-- R151: "A word is legal exactly when RSV = 0 and OPC is one of the eight values below"; the opcode names
the command by its place in the map. -/
def Obligations.WordIsLegalExactlyByTheMap : Prop :=
  ∀ w : Word,
    (decodeWord w).toOption =
      if w.extractLsb' 4 28 = 0#28 ∧ 1 ≤ (w.extractLsb' 0 4).toNat ∧ (w.extractLsb' 0 4).toNat ≤ 8
      then [Instr.qmbuild, .fdct, .idct, .quant, .dequant, .encode, .decode, .verify][
        (w.extractLsb' 0 4).toNat - 1]?
      else none

/-! ## A step (40_command_engine.md, 45_host_access.md) -/

/-- R200, R205, R212, R414: where the engine moves and a command runs whose word decodes, the step is the
command's; the model's step counter (log entry 7) and the agenda move on. An idle engine changes nothing
(R496). Any other head of the agenda is that agent's action. -/
def Obligations.StepRunsTheDecodedCommand : Prop :=
  (∀ (s : State) (i : Instr), s.phase ≠ .idle → decodeWord s.lastcmd = .ok i → s.agenda = [] →
    step s = exec i { s with freeCount := s.freeCount + 1 }) ∧
  (∀ (s : State) (i : Instr) (rest : List Event), s.phase ≠ .idle → decodeWord s.lastcmd = .ok i →
    s.agenda = .engine :: rest → step s = exec i { s with freeCount := s.freeCount + 1, agenda := rest }) ∧
  (∀ s : State, s.phase = .idle → s.agenda = [] → step s = .next { s with freeCount := s.freeCount + 1 }) ∧
  (∀ (s : State) (e : Event) (rest : List Event), e ≠ .engine → s.agenda = e :: rest →
    step s = .next (envStep e { s with freeCount := s.freeCount + 1, agenda := rest }))

/-- R201, R205: a command word that the host writes while idle is run by the engine step after the write. -/
def Obligations.WrittenCommandRunsNext : Prop :=
  ∀ (s : State) (i : Instr) (rest : List Event), s.busy = false →
    s.agenda = .regWrite 4 0x00C (encode i) :: .engine :: rest →
    ∃ t u, step s = .next t ∧ t.phase = .check ∧ t.lastcmd = encode i ∧ t.agenda = .engine :: rest ∧
      u = { t with freeCount := t.freeCount + 1, agenda := rest } ∧ step t = exec i u

/-- R454: an accepted word with a reserved bit, or an opcode of 0 or 9 to 15, ends with ILLEGAL_COMMAND,
`ERRINFO = 0` and `ERRDATA = w`, and touches no memory. -/
def Obligations.IllegalWordEndsItsCommand : Prop :=
  ∀ s : State, s.phase = .check →
    (s.lastcmd.extractLsb' 4 28 ≠ 0#28 ∨ s.lastcmd.extractLsb' 0 4 = 0#4 ∨
      9 ≤ (s.lastcmd.extractLsb' 0 4).toNat) →
    EndsInError (engineStep s) 4#4 0#32 s.lastcmd s

/-! ## Host register access (45_host_access.md, 10_state.md) -/

/-- R201: acceptance, field by field, and everything else as it was; a CMD write while busy only sets WDROP.
Of the model's own fields `wait`, `touched`, `landed`, `memOld` and `hostResp` (log entries 4 to 6) nothing
is said. -/
def Obligations.CmdWriteAccepts : Prop :=
  (∀ (s : State) (w : Word), s.busy = false →
    ∃ wait touched landed memOld resp, hostWrite 4 0x00C w s =
      { s with
        lastcmd := w, done := false, err := false, errcode := 0#4, qmUnaligned := false
        errinfo := 0#32, errdata := 0#32, unit := 0, accExceed := 0, accMax := 0, abort := false
        busy := true, phase := .check
        wait := wait, touched := touched, landed := landed, memOld := memOld, hostResp := resp }) ∧
  (∀ (s : State) (w : Word), s.busy = true →
    ∃ resp, hostWrite 4 0x00C w s = { s with wdrop := true, hostResp := resp })

/-- R415: a write to a locked register or to CMD while BUSY is 1 changes nothing except WDROP; while BUSY is 0
it stores the word (for CFG its bits [2:0], R419; CMD is CmdWriteAccepts), and nothing else changes.
`hostResp` is the model's record of the bus response (log entry 5). -/
def Obligations.LockedWritesStoreOnlyWhileIdle : Prop :=
  (∀ (s : State) (off : Nat) (w : Word), s.busy = true →
    (off ∈ [0x00C, 0x010, 0x014, 0x018, 0x01C, 0x020, 0x024, 0x028] ∨
      (off % 4 = 0 ∧ 0x100 ≤ off ∧ off ≤ 0x4FC)) →
    ∃ r, hostWrite 4 off w s = { s with wdrop := true, hostResp := r }) ∧
  (∀ (s : State) (w : Word), s.busy = false →
    (∃ r, hostWrite 4 0x010 w s = { s with log2n := BitVec.ofNat 3 (w.toNat % 8), hostResp := r }) ∧
    (∃ r, hostWrite 4 0x014 w s = { s with dim := w, hostResp := r }) ∧
    (∃ r, hostWrite 4 0x018 w s = { s with dim2 := w, hostResp := r }) ∧
    (∃ r, hostWrite 4 0x01C w s = { s with src := w, hostResp := r }) ∧
    (∃ r, hostWrite 4 0x020 w s = { s with src2 := w, hostResp := r }) ∧
    (∃ r, hostWrite 4 0x024 w s = { s with dst := w, hostResp := r }) ∧
    (∃ r, hostWrite 4 0x028 w s = { s with tol := w, hostResp := r })) ∧
  (∀ (s : State) (w : Word) (u v : Nat), s.busy = false → u < 16 → v < 16 →
    ∃ (q : Vector Word 256) (r : Option Response),
      hostWrite 4 (0x100 + 4 * (16 * u + v)) w s = { s with qm := q, hostResp := r } ∧
      ∀ k : Fin 256, q.get k = if k.val = 16 * u + v then w else s.qm.get k)

/-- R413, R51: a write to a read-only register or to a reserved offset changes nothing, whether busy or not,
and a reserved offset reads 0. -/
def Obligations.ReadOnlyAndReservedIgnoreWrites : Prop :=
  (∀ (s : State) (off : Nat) (w : Word),
    (off ∈ [0x000, 0x02C, 0x030, 0x034, 0x038, 0x03C, 0x040, 0x044] ∨
      (off % 4 = 0 ∧ (0x048 ≤ off ∧ off ≤ 0x0FC ∨ 0x500 ≤ off ∧ off ≤ 0xFFC))) →
    ∃ r, hostWrite 4 off w s = { s with hostResp := r }) ∧
  (∀ (s : State) (off : Nat), off % 4 = 0 → (0x048 ≤ off ∧ off ≤ 0x0FC ∨ 0x500 ≤ off ∧ off ≤ 0xFFC) →
    hostRead 4 off s = { s with hostResp := some (.data 0#32) })

/-- R417, R418: a STATUS write clears DONE and WDROP by a 1 in their bits, and clearing DONE lowers `irq`; a
CTRL write stores IE and sets ABORT while busy, and never clears it. Both act whether busy or not, and change
nothing else. -/
def Obligations.StatusAndCtrlWritesAct : Prop :=
  (∀ (s : State) (w : Word),
    (∃ r, hostWrite 4 0x008 w s =
      { s with
        done := if w.getLsbD 1 = true then false else s.done
        wdrop := if w.getLsbD 3 = true then false else s.wdrop
        hostResp := r }) ∧
    (w.getLsbD 1 = true → (hostWrite 4 0x008 w s).irq = false)) ∧
  (∀ (s : State) (w : Word),
    ∃ r, hostWrite 4 0x004 w s =
      { s with
        ie := w.getLsbD 0
        abort := if w.getLsbD 1 = true ∧ s.busy = true then true else s.abort
        hostResp := r })

/-- R410: an access of another width, at an offset that is no multiple of 4, or outside the window has no
effect on DCTQ and gets an error response. -/
def Obligations.MalformedAccessHasNoEffect : Prop :=
  ∀ (s : State) (width off : Nat) (w : Word), (width ≠ 4 ∨ off % 4 ≠ 0 ∨ 0xFFC < off) →
    hostRead width off s = { s with hostResp := some .error } ∧
    hostWrite width off w s = { s with hostResp := some .error }

/-- R411, R33, R32: what a read of each offset returns, and that it changes nothing else. The words of CTRL,
STATUS, CFG and RPT_FLAGS are given by their fields (R35, R36, R38, R48). -/
def Obligations.WindowReads : Prop :=
  ∀ s : State,
    hostRead 4 0x000 s = { s with hostResp := some (.data 0x44435431#32) } ∧
    hostRead 4 0x00C s = { s with hostResp := some (.data s.lastcmd) } ∧
    hostRead 4 0x014 s = { s with hostResp := some (.data s.dim) } ∧
    hostRead 4 0x018 s = { s with hostResp := some (.data s.dim2) } ∧
    hostRead 4 0x01C s = { s with hostResp := some (.data s.src) } ∧
    hostRead 4 0x020 s = { s with hostResp := some (.data s.src2) } ∧
    hostRead 4 0x024 s = { s with hostResp := some (.data s.dst) } ∧
    hostRead 4 0x028 s = { s with hostResp := some (.data s.tol) } ∧
    hostRead 4 0x02C s = { s with hostResp := some (.data s.rptExceed) } ∧
    hostRead 4 0x030 s = { s with hostResp := some (.data s.rptTotal) } ∧
    hostRead 4 0x034 s = { s with hostResp := some (.data s.rptMaxerr) } ∧
    hostRead 4 0x03C s = { s with hostResp := some (.data s.errinfo) } ∧
    hostRead 4 0x040 s = { s with hostResp := some (.data s.errdata) } ∧
    hostRead 4 0x044 s = { s with hostResp := some (.data (BitVec.ofNat 32 s.unit)) } ∧
    (∃ w, hostRead 4 0x004 s = { s with hostResp := some (.data w) } ∧
      w.getLsbD 0 = s.ie ∧ w.getLsbD 1 = s.abort ∧ w.extractLsb' 2 30 = 0#30) ∧
    (∃ w, hostRead 4 0x008 s = { s with hostResp := some (.data w) } ∧
      w.getLsbD 0 = s.busy ∧ w.getLsbD 1 = s.done ∧ w.getLsbD 2 = s.err ∧ w.getLsbD 3 = s.wdrop ∧
      w.getLsbD 4 = s.qmUnaligned ∧ w.extractLsb' 5 3 = 0#3 ∧ w.extractLsb' 8 4 = s.errcode ∧
      w.extractLsb' 12 20 = 0#20) ∧
    (∃ w, hostRead 4 0x010 s = { s with hostResp := some (.data w) } ∧
      w.extractLsb' 0 3 = s.log2n ∧ w.extractLsb' 3 29 = 0#29) ∧
    (∃ w, hostRead 4 0x038 s = { s with hostResp := some (.data w) } ∧
      w.getLsbD 0 = s.rptPassed ∧ w.extractLsb' 1 31 = 0#31) ∧
    (∀ k : Fin 256, hostRead 4 (0x100 + 4 * k.val) s = { s with hostResp := some (.data (s.qm.get k)) }) ∧
    (∀ off : Nat, off % 4 = 0 → (0x048 ≤ off ∧ off ≤ 0x0FC ∨ 0x500 ≤ off ∧ off ≤ 0xFFC) →
      hostRead 4 off s = { s with hostResp := some (.data 0#32) })

/-- R421: during a command a host write changes CTRL.IE, CTRL.ABORT, STATUS.DONE and STATUS.WDROP at most: no
operand, not the phase, not the cursor, not the accumulators, not memory. -/
def Obligations.HostWriteDuringACommand : Prop :=
  ∀ (s : State) (width off : Nat) (w : Word), s.busy = true →
    ∃ ie abort done wdrop, hostWrite width off w s =
      { s with
        ie := ie, abort := abort, done := done, wdrop := wdrop
        hostResp := (hostWrite width off w s).hostResp }

/-! ## The check step (60_exceptions.md) -/

/-- R205, R458, R102, R109: the checks pass exactly when the shape is one the command takes, the steps it uses
are legal, and its frames are aligned, fit the DMA space and do not overlap but as an exact alias. -/
def Obligations.ChecksPassExactly : Prop :=
  ∀ (i : Instr) (s : State),
    check i s = none ↔
      ((i ≠ .verify → 1 ≤ s.log2n.toNat ∧ s.log2n.toNat ≤ 4) ∧ s.rows ≠ 0 ∧ s.cols ≠ 0 ∧
       (i ≠ .qmbuild ∧ i ≠ .verify → s.rows % 2 ^ s.log2n.toNat = 0 ∧ s.cols % 2 ^ s.log2n.toNat = 0) ∧
       (i = .verify → s.rows2 = s.rows ∧ s.cols2 = s.cols)) ∧
      (i ≠ .fdct ∧ i ≠ .idct ∧ i ≠ .verify → ∀ u < 2 ^ s.log2n.toNat, ∀ v < 2 ^ s.log2n.toNat,
        1 ≤ (s.qmGet u v).toInt ∧ (s.qmGet u v).toInt ≤ 65535) ∧
      (∀ f ∈ frames i, (s.base f.1).toNat % f.2 = 0) ∧
      (∀ f ∈ frames i, (s.base f.1).toNat + s.rows * s.cols * f.2 ≤ 2 ^ 32) ∧
      (∀ es ed, (FrameName.src, es) ∈ frames i → (FrameName.dst, ed) ∈ frames i →
        (∀ a, ¬ ((s.src.toNat ≤ a ∧ a < s.src.toNat + s.rows * s.cols * es) ∧
          (s.dst.toNat ≤ a ∧ a < s.dst.toNat + s.rows * s.cols * ed))) ∨
        (s.src = s.dst ∧ es = ed))

/-- R452: INVALID_SHAPE, each subcode with the value it records, in the order of R458; nothing else changes but
what ends a command. -/
def Obligations.InvalidShapeIsReported : Prop :=
  ∀ (i : Instr) (s : State), s.phase = .check →
    (i ≠ .verify → ¬ (1 ≤ s.log2n.toNat ∧ s.log2n.toNat ≤ 4) →
      EndsInError (exec i s) 1#4 1#32 (BitVec.ofNat 32 s.log2n.toNat) s) ∧
    ((i ≠ .verify → 1 ≤ s.log2n.toNat ∧ s.log2n.toNat ≤ 4) →
      (s.rows = 0 → EndsInError (exec i s) 1#4 2#32 0#32 s) ∧
      (s.rows ≠ 0 → s.cols = 0 → EndsInError (exec i s) 1#4 3#32 0#32 s) ∧
      (s.rows ≠ 0 → s.cols ≠ 0 →
        (i ≠ .qmbuild → i ≠ .verify →
          (s.rows % 2 ^ s.log2n.toNat ≠ 0 →
            EndsInError (exec i s) 1#4 4#32 (BitVec.ofNat 32 s.rows) s) ∧
          (s.rows % 2 ^ s.log2n.toNat = 0 → s.cols % 2 ^ s.log2n.toNat ≠ 0 →
            EndsInError (exec i s) 1#4 5#32 (BitVec.ofNat 32 s.cols) s)) ∧
        (i = .verify →
          (s.rows2 ≠ s.rows → EndsInError (exec i s) 1#4 6#32 (BitVec.ofNat 32 s.rows2) s) ∧
          (s.rows2 = s.rows → s.cols2 ≠ s.cols →
            EndsInError (exec i s) 1#4 7#32 (BitVec.ofNat 32 s.cols2) s))))

/-- R453: INVALID_QMATRIX reports the first bad entry of the corner in row-major order; FDCT, IDCT and VERIFY
never raise it. -/
def Obligations.InvalidQmatrixReportsTheFirstBadEntry : Prop :=
  (∀ (i : Instr) (s : State) (u v : Nat), s.phase = .check → checkShape i s = none →
    (i = .qmbuild ∨ i = .quant ∨ i = .dequant ∨ i = .encode ∨ i = .decode) →
    u < s.blockSize → v < s.blockSize →
    ¬ (1 ≤ (s.qmGet u v).toInt ∧ (s.qmGet u v).toInt ≤ 65535) →
    (∀ u' < s.blockSize, ∀ v' < s.blockSize, (u' < u ∨ (u' = u ∧ v' < v)) →
      1 ≤ (s.qmGet u' v').toInt ∧ (s.qmGet u' v').toInt ≤ 65535) →
    EndsInError (exec i s) 2#4 (BitVec.ofNat 32 (16 * u + v)) (s.qmGet u v) s) ∧
  (∀ (i : Instr) (s t : State), (i = .fdct ∨ i = .idct ∨ i = .verify) → s.phase ≠ .idle →
    exec i s = .next t → t.phase = .idle → t.errcode ≠ 2#4)

/-- R455 and R456: once the shape and the steps are legal, the first frame in the order SRC, SRC2, DST whose
base is misaligned is reported, and where none is, the first whose region does not fit. -/
def Obligations.FrameErrorsReportTheFirstFrame : Prop :=
  ∀ (i : Instr) (s : State) (before after : List (FrameName × Nat)) (f : FrameName × Nat),
    s.phase = .check → checkShape i s = none → checkQm i s = none → frames i = before ++ f :: after →
    ((∀ g ∈ before, (s.base g.1).toNat % g.2 = 0) → (s.base f.1).toNat % f.2 ≠ 0 →
      EndsInError (exec i s) 5#4 (BitVec.ofNat 32 f.1.number) (s.base f.1) s) ∧
    ((∀ g ∈ frames i, (s.base g.1).toNat % g.2 = 0) →
      (∀ g ∈ before, (s.base g.1).toNat + s.rows * s.cols * g.2 ≤ 2 ^ 32) →
      2 ^ 32 < (s.base f.1).toNat + s.rows * s.cols * f.2 →
      EndsInError (exec i s) 3#4 (BitVec.ofNat 32 f.1.number) (s.base f.1) s)

/-- R457: a source region and a DST region that share a byte and are no exact alias end a tile command with
OVERLAP; QMBUILD and VERIFY never do. -/
def Obligations.OverlapIsReported : Prop :=
  (∀ (i : Instr) (s : State) (es ed a : Nat), s.phase = .check →
    checkShape i s = none → checkQm i s = none → checkAlign i s = none → checkFit i s = none →
    (FrameName.src, es) ∈ frames i → (FrameName.dst, ed) ∈ frames i →
    (s.src.toNat ≤ a ∧ a < s.src.toNat + s.rows * s.cols * es) →
    (s.dst.toNat ≤ a ∧ a < s.dst.toNat + s.rows * s.cols * ed) →
    ¬ (s.src = s.dst ∧ es = ed) →
    EndsInError (exec i s) 6#4 1#32 s.dst s) ∧
  (∀ (i : Instr) (s t : State), (i = .qmbuild ∨ i = .verify) → s.phase ≠ .idle → exec i s = .next t →
    t.phase = .idle → t.errcode ≠ 6#4)

/-- R472: a check step that ends the command changes nothing but what `complete` writes, and its code is not
0; one that does not only moves the phase to RUN. -/
def Obligations.CheckStepIsPrecise : Prop :=
  ∀ (i : Instr) (s t : State), s.phase = .check → exec i s = .next t →
    (t.phase = .idle ∧ t.errcode ≠ 0#4 ∧ t = afterError t.errcode t.errinfo t.errdata s) ∨
    (check i s = none ∧ t = { s with phase := .run })

/-- R113, U19: a command whose checks pass is refused exactly when one of its frame regions shares a byte with
DCTQ's own window or with memory that has side effects. -/
def Obligations.SideEffectRegionIsRefused : Prop :=
  ∀ (i : Instr) (s : State), s.phase = .check → check i s = none →
    ((∃ n, exec i s = .refused (.sideEffectRegion n)) ↔
      ∃ f ∈ frames i, ∃ a, (s.base f.1).toNat ≤ a ∧ a < (s.base f.1).toNat + s.rows * s.cols * f.2 ∧
        ((s.platform.regBase ≤ a ∧ a < s.platform.regBase + 4096) ∨
          ∃ d ∈ s.platform.devices, d.base ≤ a ∧ a < d.base + d.size))

/-- R459: which codes each command can end with, and which ERRINFO goes with codes 1, 3, 5 and 7. -/
def Obligations.ErrorCodesOfEachCommand : Prop :=
  ∀ (i : Instr) (s t : State), s.phase ≠ .idle → exec i s = .next t → t.phase = .idle →
    (t.errcode = 0#4 ∨ t.errcode = 1#4 ∨ t.errcode = 2#4 ∨ t.errcode = 3#4 ∨ t.errcode = 5#4 ∨
      t.errcode = 6#4 ∨ t.errcode = 7#4 ∨ t.errcode = 8#4) ∧
    (t.errcode = 1#4 →
      (i = .qmbuild → t.errinfo ∈ [1#32, 2#32, 3#32]) ∧
      (i = .verify → t.errinfo ∈ [2#32, 3#32, 6#32, 7#32]) ∧
      (i ≠ .qmbuild → i ≠ .verify → t.errinfo ∈ [1#32, 2#32, 3#32, 4#32, 5#32])) ∧
    (t.errcode = 2#4 → i ≠ .fdct ∧ i ≠ .idct ∧ i ≠ .verify) ∧
    ((t.errcode = 3#4 ∨ t.errcode = 5#4 ∨ t.errcode = 7#4) →
      (i = .qmbuild → t.errinfo = 3#32) ∧
      (i = .verify → t.errinfo ∈ [1#32, 2#32]) ∧
      (i ≠ .qmbuild → i ≠ .verify → t.errinfo ∈ [1#32, 3#32])) ∧
    (t.errcode = 6#4 → i ≠ .qmbuild ∧ i ≠ .verify ∧ t.errinfo = 1#32)

/-! ## One work unit of each command (41 to 44): its effect, and that nothing else changes -/

/-- R250, R252, R254: the unit that is due writes frame row `unit`, element `(unit, j)` becoming
`QM[unit mod N][j mod N]`; after the last one the command completes and QM_UNALIGNED tells whether the shape is
tile-aligned. -/
def Obligations.QmbuildUnitResult : Prop :=
  ∀ s : State, UnitRuns .qmbuild s → s.mem.wf = true →
    ∃ m, exec .qmbuild s =
        .next (if s.unit + 1 = s.rows then
            { afterLastUnit .qmbuild m s with
              qmUnaligned := decide (s.rows % s.blockSize ≠ 0 ∨ s.cols % s.blockSize ≠ 0) }
          else afterInnerUnit m s) ∧
      (∀ j < s.cols, m.readLE (s.elemAddr .dst 4 s.unit j) 4 =
        (s.qmGet (s.unit % s.blockSize) (j % s.blockSize)).toNat) ∧
      OnlyRowWritten s .tiledQm s.unit m ∧ m.wf = true

/-- R295, R287: one tile of FDCT. -/
def Obligations.FdctUnitResult : Prop :=
  ∀ s : State, UnitRuns .fdct s → s.mem.wf = true →
    ∃ m, exec .fdct s = .next (afterTileUnit .fdct m s) ∧
      TileHolds s .coefficient s.unit
        (fun u v => fdctValue s.blockSize (fun x y => srcSample s s.unit x y) u v) m ∧
      OnlyTileWritten s .coefficient s.unit m ∧ m.wf = true

/-- R296, R288: one tile of IDCT. -/
def Obligations.IdctUnitResult : Prop :=
  ∀ s : State, UnitRuns .idct s → s.mem.wf = true →
    ∃ m, exec .idct s = .next (afterTileUnit .idct m s) ∧
      TileHolds s .sample s.unit
        (fun x y => idctValue s.blockSize (fun u v => srcWord s s.unit u v) x y) m ∧
      OnlyTileWritten s .sample s.unit m ∧ m.wf = true

/-- R335, R331, R333: one tile of QUANT, in place or not. -/
def Obligations.QuantUnitResult : Prop :=
  ∀ s : State, UnitRuns .quant s → s.mem.wf = true →
    ∃ m, exec .quant s = .next (afterTileUnit .quant m s) ∧
      TileHolds s .quantized s.unit
        (fun u v => rdiv (srcWord s s.unit u v) (256 * (s.qmGet u v).toInt.toNat)) m ∧
      OnlyTileWritten s .quantized s.unit m ∧ m.wf = true

/-- R336, R332, R333: one tile of DEQUANT, in place or not. -/
def Obligations.DequantUnitResult : Prop :=
  ∀ s : State, UnitRuns .dequant s → s.mem.wf = true →
    ∃ m, exec .dequant s = .next (afterTileUnit .dequant m s) ∧
      TileHolds s .coefficient s.unit
        (fun u v => clamp (srcWord s s.unit u v * (s.qmGet u v).toInt * 256) (-2 ^ 31) (2 ^ 31 - 1)) m ∧
      OnlyTileWritten s .coefficient s.unit m ∧ m.wf = true

/-- R337: one tile of ENCODE, the quantized forward transform. -/
def Obligations.EncodeUnitResult : Prop :=
  ∀ s : State, UnitRuns .encode s → s.mem.wf = true →
    ∃ m, exec .encode s = .next (afterTileUnit .encode m s) ∧
      TileHolds s .quantized s.unit
        (fun u v => rdiv (fdctValue s.blockSize (fun x y => srcSample s s.unit x y) u v)
          (256 * (s.qmGet u v).toInt.toNat)) m ∧
      OnlyTileWritten s .quantized s.unit m ∧ m.wf = true

/-- R338: one tile of DECODE, the inverse transform of the dequantized tile. -/
def Obligations.DecodeUnitResult : Prop :=
  ∀ s : State, UnitRuns .decode s → s.mem.wf = true →
    ∃ m, exec .decode s = .next (afterTileUnit .decode m s) ∧
      TileHolds s .sample s.unit
        (fun x y => idctValue s.blockSize
          (fun u v => clamp (srcWord s s.unit u v * (s.qmGet u v).toInt * 256) (-2 ^ 31) (2 ^ 31 - 1))
          x y) m ∧
      OnlyTileWritten s .sample s.unit m ∧ m.wf = true

/-- R383, R386: one row of VERIFY; after the last one the report is written with the completion. Memory does
not change at all. -/
def Obligations.VerifyUnitResult : Prop :=
  ∀ (s : State) (d : Nat → Nat) (e x : Nat), UnitRuns .verify s →
    (∀ j, d j = (sampleAt s.mem s .src s.unit j - sampleAt s.mem s .src2 s.unit j).natAbs) →
    e = s.accExceed + ((List.range s.cols).filter fun j => s.tol.toNat < 256 * d j).length →
    x = ((List.range s.cols).map d).foldl max s.accMax →
    exec .verify s =
      .next (if s.unit + 1 = s.rows then
          { afterLastUnit .verify s.mem s with
            accExceed := e, accMax := x
            rptExceed := BitVec.ofNat 32 e, rptTotal := BitVec.ofNat 32 (s.rows * s.cols)
            rptMaxerr := BitVec.ofNat 32 x, rptPassed := decide (e = 0) }
        else { afterInnerUnit s.mem s with accExceed := e, accMax := x })

/-! ## Abort, bus errors and waiting (40_command_engine.md) -/

/-- R215, R467, R460: a pending abort ends the command before the unit that is due, whatever its accesses would
have met: ABORTED, `ERRDATA` the number of completed units, memory unchanged. `dmaWritten` is the model's record of
R129 (log entry 20), here and in the statements that follow. -/
def Obligations.AbortEndsBetweenUnits : Prop :=
  ∀ (i : Instr) (s : State), UnitDue i s → s.abort = true → s.wait = none → HostQuiet s →
    exec i s = .next (afterRunError i 8#4 0#32 (BitVec.ofNat 32 s.unit) s)

/-- R216, R466, read side: a unit with a read that gets an error response, and none without a response, ends
with BUS_ERROR for one of the failing reads, and memory is unchanged. The accesses spoken of are those that have
no response yet (R225, log entry 21): all of the unit's, where it has not waited. -/
def Obligations.ReadBusErrorEndsTheCommand : Prop :=
  ∀ (i : Instr) (s : State), UnitDue i s → NotAborted s → HostQuiet s →
    (∃ a ∈ openReads i s, s.answerOf false a = .error) →
    (∀ a ∈ openReads i s, s.answerOf false a ≠ .silent) →
    ∃ a ∈ openReads i s, s.answerOf false a = .error ∧
      exec i s = .next
        (afterRunError i 7#4 (BitVec.ofNat 32 a.frame.number) (BitVec.ofNat 32 a.addr) s)

/-- R216, R466, write side: every read is answered, a write gets an error response and none goes without one:
BUS_ERROR for one of the failing writes. Only bytes of the unit's own DST elements may have changed; what they
hold is free (log entry 7), so nothing is said of it. -/
def Obligations.WriteBusErrorEndsTheCommand : Prop :=
  ∀ (i : Instr) (s : State), UnitDue i s → NotAborted s → HostQuiet s → s.mem.wf = true →
    (∀ a ∈ openReads i s, s.answerOf false a = .ok) →
    (∃ a ∈ openWrites i s, s.answerOf true a = .error) →
    (∀ a ∈ openWrites i s, s.answerOf true a ≠ .silent) →
    ∃ a ∈ openWrites i s, s.answerOf true a = .error ∧ ∃ m,
      exec i s = .next { afterRunError i 7#4 3#32 (BitVec.ofNat 32 a.addr) s with mem := m } ∧
      (∀ b, (∀ w ∈ unitWrites i s s.unit, ¬ InElem b w.addr w.size) → m.read b = s.mem.read b) ∧
      m.wf = true

/-- R225, R215: a unit one of whose accesses gets no response, and none an error, waits: the phase, the cursor
and memory stay, and from then on no abort ends it. What the unit has got it keeps; an access that was issued
and is answered now is got; what is still issued has no response, and there is some such access. R110: where an
access that was issued gets an error response, that ends the command at once, whatever the other accesses meet.
`wait` is the model's record of the unit (log entries 6 and 21). -/
def Obligations.SilentAccessWaits : Prop :=
  (∀ (i : Instr) (s : State), UnitDue i s → NotAborted s →
    (∀ a ∈ openReads i s, s.answerOf false a ≠ .error) →
    ((∃ a ∈ openReads i s, s.answerOf false a = .silent) ∨
      ((∃ a ∈ openWrites i s, s.answerOf true a = .silent) ∧
        ∀ a ∈ openWrites i s, s.answerOf true a ≠ .error)) →
    ∃ w, exec i s = .next { s with wait := some w } ∧
      (∀ r ∈ s.waited.reads, r ∈ w.reads) ∧ (∀ a ∈ s.waited.acks, a ∈ w.acks) ∧
      (∀ a ∈ s.waited.asked, a ∈ openReads i s → s.answerOf false a = .ok →
        ∃ r ∈ w.reads, r.access = a) ∧
      (openReads i s = [] → ∀ a ∈ s.waited.asked, a ∈ openWrites i s → s.answerOf true a = .ok →
        a ∈ w.acks) ∧
      w.asked ≠ [] ∧ ∀ a ∈ w.asked, ¬ Responds s a) ∧
  (∀ (i : Instr) (s : State) (a : Access), UnitDue i s → NotAborted s → a ∈ s.waited.asked →
    ((a ∈ openReads i s ∧ s.answerOf false a = .error) ∨
      (openReads i s = [] ∧ a ∈ openWrites i s ∧ s.answerOf true a = .error)) →
    ∃ t, exec i s = .next t ∧ t.phase = .idle ∧ t.done = true ∧ t.errcode = 7#4 ∧ t.unit = s.unit)

/-- R225: with the memory agent's responses weakly fair, every command ends: from every state of an endless run
in which BUSY is 1 there is a later one in which it is 0. -/
def Obligations.FairResponsesEndEveryCommand : Prop :=
  ∀ r : Nat → State, IsRun r → Inv (r 0) → WeaklyFair r →
    ∀ n, (r n).busy = true → ∃ m, n ≤ m ∧ (r m).busy = false

/-- R213, R212: in phase RUN a command ends by an abort, by a bus error of an access of the unit, or by its
last unit, and by nothing else. -/
def Obligations.OnlyAbortOrBusErrorEndsARunEarly : Prop :=
  ∀ (i : Instr) (s t : State), s.phase = .run → exec i s = .next t → t.phase = .idle →
    (t.errcode = 8#4 ∧ s.abort = true ∧ s.wait = none) ∨
    (t.errcode = 7#4 ∧ ((∃ a ∈ unitReads i s s.unit, s.answerOf false a = .error) ∨
      (∃ a ∈ unitWrites i s s.unit, s.answerOf true a = .error))) ∨
    (t.errcode = 0#4 ∧ s.unit + 1 = unitCount i s ∧ t.unit = unitCount i s)

/-! ## Whole commands -/

/-- R211, R330, R121, R123 for the six tile commands: from the check step on, a command whose checks pass and
that nothing disturbs completes in one step for the checks and one for each tile; every DST element holds the
value its tile of the source frame, as it stood at the start, gives it; every byte outside DST is unchanged; and
every register but those of completion keeps its value. `freeCount` and `dmaWritten` are the model's own
(log entries 7 and 20). -/
def Obligations.TileCommandWritesItsWholeFrame : Prop :=
  ∀ (i : Instr) (kd : FrameKind) (s : State), isTile i = true → dstKind i = some kd →
    decodeWord s.lastcmd = .ok i → s.phase = .check → s.unit = 0 → check i s = none →
    sideEffectFrame i s = none → RunsFreely s → s.mem.wf = true →
    ∃ m, Sys2Proof.core.run (1 + unitCount i s) s =
        .next { afterLastUnit i m s with
          unit := unitCount i s, freeCount := s.freeCount + (1 + unitCount i s) } ∧
      (∀ t < unitCount i s, TileHolds s kd t (tileValue i s t) m) ∧
      (∀ a, ¬ InElem a s.dst.toNat (s.rows * s.cols * kd.esize) → m.read a = s.mem.read a) ∧
      m.wf = true

/-- R252, R253, R254 for the whole of QMBUILD: every element `(i, j)` holds `QM[i mod N][j mod N]`, which is in
1..65535; every byte outside DST is unchanged; QM_UNALIGNED tells whether the shape is tile-aligned. -/
def Obligations.QmbuildWritesTheTiledMatrix : Prop :=
  ∀ s : State, decodeWord s.lastcmd = .ok .qmbuild → s.phase = .check → s.unit = 0 →
    check .qmbuild s = none → sideEffectFrame .qmbuild s = none → RunsFreely s → s.mem.wf = true →
    ∃ m, Sys2Proof.core.run (1 + s.rows) s =
        .next { afterLastUnit .qmbuild m s with
          unit := s.rows, freeCount := s.freeCount + (1 + s.rows)
          qmUnaligned := decide (s.rows % s.blockSize ≠ 0 ∨ s.cols % s.blockSize ≠ 0) } ∧
      (∀ i < s.rows, ∀ j < s.cols,
        m.readLE (s.dst.toNat + (i * s.cols + j) * 4) 4 =
          (s.qmGet (i % s.blockSize) (j % s.blockSize)).toNat ∧
        1 ≤ m.readLE (s.dst.toNat + (i * s.cols + j) * 4) 4 ∧
        m.readLE (s.dst.toNat + (i * s.cols + j) * 4) 4 ≤ 65535) ∧
      (∀ a, ¬ InElem a s.dst.toNat (s.rows * s.cols * 4) → m.read a = s.mem.read a) ∧ m.wf = true

/-- R383, R386, R114 for the whole of VERIFY: the report holds the number of positions over the tolerance, the
number of samples, the largest difference and whether there is none over it; memory does not change. -/
def Obligations.VerifyReportsBothFrames : Prop :=
  ∀ (s : State) (d : Nat × Nat → Nat) (e x : Nat), decodeWord s.lastcmd = .ok .verify →
    s.phase = .check → s.unit = 0 → s.accExceed = 0 → s.accMax = 0 → check .verify s = none →
    sideEffectFrame .verify s = none → RunsFreely s →
    (∀ p, d p = (sampleAt s.mem s .src p.1 p.2 - sampleAt s.mem s .src2 p.1 p.2).natAbs) →
    e = (((List.range s.rows).flatMap fun i => (List.range s.cols).map fun j => (i, j)).filter
      fun p => s.tol.toNat < 256 * d p).length →
    x = (((List.range s.rows).flatMap fun i => (List.range s.cols).map fun j => (i, j)).map d).foldl max 0 →
    Sys2Proof.core.run (1 + s.rows) s =
      .next { afterLastUnit .verify s.mem s with
        unit := s.rows, freeCount := s.freeCount + (1 + s.rows), accExceed := e, accMax := x
        rptExceed := BitVec.ofNat 32 e, rptTotal := BitVec.ofNat 32 (s.rows * s.cols)
        rptMaxerr := BitVec.ofNat 32 x, rptPassed := decide (e = 0) }

/-- The state in which the host has had a command accepted, with SRC and DST as given. -/
def startOn (i : Instr) (src dst : Word) (s : State) : State :=
  { acceptCommand (encode i) s with src := src, dst := dst }

/-- R340: "ENCODE writes the same words as FDCT followed by QUANT on its output. DECODE writes the same samples
as DEQUANT followed by IDCT", for runs that end without error, whatever buffer lies between the stages. -/
def Obligations.FusedEqualsStaged : Prop :=
  ∀ (first second fused : Instr) (kd : FrameKind) (s t1 t2 t3 : State) (src buf out : Word),
    ((first = .fdct ∧ second = .quant ∧ fused = .encode) ∨
      (first = .dequant ∧ second = .idct ∧ fused = .decode)) → dstKind fused = some kd →
    s.agenda = [] → s.answers = [] → s.pending = [] → s.mem.wf = true →
    Sys2Proof.core.run (1 + unitCount first s) (startOn first src buf s) = .next t1 →
    t1.phase = .idle → t1.errcode = 0#4 →
    Sys2Proof.core.run (1 + unitCount second s) (startOn second buf out t1) = .next t2 →
    t2.phase = .idle → t2.errcode = 0#4 →
    Sys2Proof.core.run (1 + unitCount fused s) (startOn fused src out s) = .next t3 →
    t3.phase = .idle → t3.errcode = 0#4 →
    ∀ a, InElem a out.toNat (s.rows * s.cols * kd.esize) → t2.mem.read a = t3.mem.read a

/-- R330: the tiles of a tile-aligned frame are disjoint and cover every element exactly once. -/
def Obligations.TilesPartitionTheFrame : Prop :=
  ∀ (i : Instr) (s : State), isTile i = true → checkShape i s = none →
    (∀ r < s.rows, ∀ c < s.cols, ∃ t < unitCount i s, ∃ x < s.blockSize, ∃ y < s.blockSize,
      s.tilePos t x y = (r, c)) ∧
    (∀ t < unitCount i s, ∀ x < s.blockSize, ∀ y < s.blockSize,
      (s.tilePos t x y).1 < s.rows ∧ (s.tilePos t x y).2 < s.cols ∧
      ∀ t' < unitCount i s, ∀ x' < s.blockSize, ∀ y' < s.blockSize,
        s.tilePos t x y = s.tilePos t' x' y' → t = t' ∧ x = x' ∧ y = y')

/-! ## The arithmetic (42_transform.md, 43_pipeline.md) -/

/-- R290: for every sample block, every `|F[u][v]| <= 2^27`, so the clamp of R287 never engages: the value is
the rounded sum itself. -/
def Obligations.ForwardTransformNeverClamps : Prop :=
  ∀ (n : Nat) (f : Block), LegalSize n → IsSampleBlock n f → ∀ u < n, ∀ v < n,
    |blockAt (fdctBlock n f) u v| ≤ 2 ^ 27 ∧
    blockAt (fdctBlock n f) u v =
      rshr (sumBelow n fun x => sumBelow n fun y => cosEntry n u x * cosEntry n v y * blockAt f x y) 52

/-- R292: `idct_N(fdct_N(f)) = f` exactly, for every legal `N` and every sample block; and before its final
rounding the inverse is within 0.0040, 0.0081, 0.0192 and 0.0406 of the sample for `N = 2, 4, 8, 16`. -/
def Obligations.RoundTripIsExact : Prop :=
  ∀ (n : Nat) (f : Block) (bound : Int),
    ((n = 2 ∧ bound = 40) ∨ (n = 4 ∧ bound = 81) ∨ (n = 8 ∧ bound = 192) ∨ (n = 16 ∧ bound = 406)) →
    IsSampleBlock n f →
    idctBlock n (fdctBlock n f) = f ∧
    ∀ x < n, ∀ y < n,
      10000 * |(sumBelow n fun u => sumBelow n fun v =>
          cosEntry n u x * cosEntry n v y * blockAt (fdctBlock n f) u v) - 2 ^ 68 * blockAt f x y| ≤
        bound * 2 ^ 68

/-- R293: a constant block has no coefficient but the one at `(0, 0)`, which is `N * c * 256` for `N = 4` and
`N = 16` and the rounded one for `N = 2` and `N = 8` (204800 for `N = 8`, `c = 100`); a block
whose only word is at `(0, 0)` has a constant inverse. -/
def Obligations.ConstantBlocks : Prop :=
  (∀ (n : Nat) (c : Int), LegalSize n → -32768 ≤ c → c ≤ 32767 → ∀ u < n, ∀ v < n, ¬ (u = 0 ∧ v = 0) →
    blockAt (fdctBlock n (constBlock n c)) u v = 0) ∧
  (∀ (n : Nat) (c : Int), (n = 4 ∨ n = 16) → -32768 ≤ c → c ≤ 32767 →
    blockAt (fdctBlock n (constBlock n c)) 0 0 = n * c * 256) ∧
  (∀ (n : Nat) (c : Int), (n = 2 ∨ n = 8) → -32768 ≤ c → c ≤ 32767 →
    blockAt (fdctBlock n (constBlock n c)) 0 0 =
      rshr (cosEntry n 0 0 * cosEntry n 0 0 * (n * n * c)) 52) ∧
  blockAt (fdctBlock 8 (constBlock 8 100)) 0 0 = 204800 ∧
  (∀ (n : Nat) (g : Block), LegalSize n → IsBlock n g →
    (∀ u < n, ∀ v < n, ¬ (u = 0 ∧ v = 0) → blockAt g u v = 0) →
    ∃ c, idctBlock n g = constBlock n c)

/-- R331: `quant(a, Q) = sgn(a) * ((2*|a| + 256*Q) div (512*Q))` and `|quant(a, Q)| <= 2^23`; it is the nearest
integer to `a / (256*Q)`. -/
def Obligations.QuantRoundsToNearest : Prop :=
  ∀ a q : Int, -2 ^ 31 ≤ a → a ≤ 2 ^ 31 - 1 → 1 ≤ q → q ≤ 65535 →
    quantValue a q = sgn a * ((2 * |a| + 256 * q) / (512 * q)) ∧
    |quantValue a q| ≤ 2 ^ 23 ∧ 2 * |quantValue a q * (256 * q) - a| ≤ 256 * q

/-- R332: `deq(q, Q) = clamp(q*Q*256)`; the clamp engages only when `|q*Q| >= 2^23`, and never for a `q` that
`quant` produced from a coefficient of a sample block (`|a| <= 2^27`, R290): there
`|q*Q| <= 2^19 + Q/2 < 2^23`. -/
def Obligations.DequantClampsOnlyOutOfRange : Prop :=
  (∀ v q : Int, -2 ^ 31 ≤ v → v ≤ 2 ^ 31 - 1 → 1 ≤ q → q ≤ 65535 →
    (deqValue v q = if v * q * 256 < -2 ^ 31 then -2 ^ 31
      else if 2 ^ 31 - 1 < v * q * 256 then 2 ^ 31 - 1 else v * q * 256) ∧
    (deqValue v q ≠ v * q * 256 → 2 ^ 23 ≤ |v * q|)) ∧
  (∀ a q : Int, |a| ≤ 2 ^ 27 → 1 ≤ q → q ≤ 65535 →
    2 * |quantValue a q * q| ≤ 2 ^ 20 + q ∧ |quantValue a q * q| < 2 ^ 23 ∧
    deqValue (quantValue a q) q = quantValue a q * q * 256)

/-- R343: with a unit step matrix the lossy round trip is not exact, but its error is at most 1, 2, 4 or 7 for
`N = 2, 4, 8, 16`. The two examples are the rule's own. -/
def Obligations.UnitStepRoundTripBound : Prop :=
  (∀ (n : Nat) (f : Block) (bound : Int),
    ((n = 2 ∧ bound = 1) ∨ (n = 4 ∧ bound = 2) ∨ (n = 8 ∧ bound = 4) ∨ (n = 16 ∧ bound = 7)) →
    IsSampleBlock n f → ∀ x < n, ∀ y < n,
    |blockAt (idctBlock n (deqBlock (constBlock n 1) (quantBlock (constBlock n 1) (fdctBlock n f)))) x y -
      blockAt f x y| ≤ bound) ∧
  quantBlock (constBlock 2 1) (fdctBlock 2 [[0, 1], [0, 0]]) = [[1, -1], [1, -1]] ∧
  idctBlock 2 (deqBlock (constBlock 2 1) [[1, -1], [1, -1]]) = [[0, 2], [0, 0]] ∧
  idctBlock 8 (deqBlock (constBlock 8 1) (quantBlock (constBlock 8 1)
    (fdctBlock 8 ([1, 0, 0, 0, 0, 0, 0, 0] :: List.replicate 7 (List.replicate 8 0))))) = constBlock 8 0

/-! ## Memory and the agents around the engine (20_memory.md) -/

/-- R124, R129. First part: a host store that the host has made visible is in memory, every other byte of memory is
unchanged, and nothing of it is under way; on a coherent platform a fence does it, on every platform a cache clean
over the stored bytes does. Where this comes before the CMD write, the engine's reads of that command get what
memory holds, the stored bytes among it. Second part: once no command is active, a load of a byte that the host has
invalidated reads memory, while the other bytes stay as stale as they were. Third part: the bytes of one store
inside an aligned word read for the engine as stored or as before, whole, where the store is under way, and where it
was made while a command is busy and has been fenced or cleaned since. Fourth part, U18's case: the same for a store
made before the CMD write that is fenced or cleaned only after acceptance, or not at all. The units that a clean and
an invalidation work on, and that a landing store leaves the bytes beside it as they are, are the model's choice (log
entries 9, 14, 20 and 22). -/
def Obligations.FencesAndCacheCareMakeMemoryVisible : Prop :=
  (∀ (s : State) (a : Nat) (bs : List Byte) (t : State), s.pending = [] → s.mem.wf = true →
    a + bs.length ≤ 2 ^ 32 →
    ((s.platform.dmaCoherent = true ∧ t = hostFence (hostStore a bs s)) ∨
      t = cleanCaches a bs.length (hostStore a bs s)) →
    t.pending = [] ∧ t.mem.readBytes a bs.length = bs ∧
    (∀ b, ¬ InElem b a bs.length → t.mem.read b = s.mem.read b) ∧ t.mem.wf = true ∧
    ∀ (w : Word) (f : FrameName) (x n : Nat), (acceptCommand w t).dmaRead f x n = t.mem.readLE x n) ∧
  (∀ (s : State) (base size b : Nat), s.phase = .idle → s.pending = [] →
    (InElem b base size → hostByte (invalidate base size s) b = s.mem.read b) ∧
    (¬ InElem b base size → hostByte (invalidate base size s) b = hostByte s b)) ∧
  (∀ (s : State) (f : FrameName) (a : Nat) (bs : List Byte) (t : State), s.pending = [] → s.landed = [] →
    s.wait = none → s.mem.wf = true →
    (s.busy = true → s.memOld.wf = true ∧ ∀ b, InElem b a bs.length → s.memOld.read b = s.mem.read b) →
    a % 4 + bs.length ≤ 4 → a + bs.length ≤ 2 ^ 32 →
    (t = hostStore a bs s ∨ t = hostFence (hostStore a bs s) ∨
      t = cleanCaches a bs.length (hostStore a bs s)) →
    t.dmaRead f a bs.length = s.mem.readLE a bs.length ∨
    t.dmaRead f a bs.length = (s.mem.writeCells (storeCells a bs)).readLE a bs.length) ∧
  (∀ (s : State) (w : Word) (f : FrameName) (a : Nat) (bs : List Byte) (t : State), s.pending = [] →
    s.mem.wf = true → a % 4 + bs.length ≤ 4 → a + bs.length ≤ 2 ^ 32 →
    (t = acceptCommand w (hostStore a bs s) ∨ t = hostFence (acceptCommand w (hostStore a bs s)) ∨
      t = cleanCaches a bs.length (acceptCommand w (hostStore a bs s))) →
    t.dmaRead f a bs.length = s.mem.readLE a bs.length ∨
    t.dmaRead f a bs.length = (s.mem.writeCells (storeCells a bs)).readLE a bs.length)

/-- R125, R111, U17: while BUSY is 1, a host load of a DST element that the host has not disturbed returns the
element's old value (memory as it was at acceptance) or its new one, and all its bytes are of the same one. -/
def Obligations.HostLoadIsOldOrNew : Prop :=
  ∀ (s : State) (i : Instr) (t : Nat) (w : Access), (s.phase = .run ∨ s.phase = .check) →
    decodeWord s.lastcmd = .ok i → check i s = none → s.pending = [] → s.dmaWritten = [] →
    t < unitCount i s → w ∈ unitWrites i s t →
    (∀ b ∈ s.touched, ¬ InElem b w.addr w.size ∧ ∀ r ∈ unitReads i s t, ¬ InElem b r.addr r.size) →
    (∀ b, InElem b w.addr w.size → hostByte s b = s.memOld.read b) ∨
    (∀ b, InElem b w.addr w.size → hostByte s b =
      if t < s.unit then s.mem.read b else (writeElems s.mem (workOf i s t).writes).read b)

/-- R520: the reset step. Every register, field and hidden state takes its reset value; a running command is
abandoned and does not complete; `irq` is 0; of memory only bytes of the current unit's DST elements may change
(where the host keeps the duties of R124 and R125). Nothing is said of the fields that are not DCTQ's own (log
entry 16). -/
def Obligations.ResetStepResult : Prop :=
  ∀ (s : State) (rest : List Event), s.agenda = .reset :: rest →
    ∃ t, step s = .next t ∧
      t = { State.resetOn s.platform with
        mem := t.mem, answers := t.answers, pending := t.pending, touched := t.touched
        landed := t.landed, memOld := t.memOld
        dmaWritten := t.dmaWritten, hostResp := t.hostResp, agenda := t.agenda, freeCount := t.freeCount } ∧
      t.done = false ∧ t.err = false ∧ t.errcode = 0#4 ∧ t.phase = .idle ∧ t.irq = false ∧
      (Inv s → HostQuiet s →
        t.mem.wf = true ∧ (s.phase ≠ .run → t.mem = s.mem) ∧
        (∀ i, s.phase = .run → decodeWord s.lastcmd = .ok i →
          ∀ a, (∀ w ∈ unitWrites i s s.unit, ¬ InElem a w.addr w.size) → t.mem.read a = s.mem.read a))

/-- R66, R54: what the registers hold after reset, on every platform. The agents' fields are the model's choice
(log entries 1 to 7), and nothing is said of them. -/
def Obligations.ResetValues : Prop :=
  ∀ (p : Platform) (s : State), s = State.resetOn p →
    regRead s .id = 0x44435431#32 ∧ regRead s .ctrl = 0#32 ∧ regRead s .status = 0#32 ∧
    regRead s .cmd = 0#32 ∧ regRead s .cfg = 3#32 ∧ regRead s .dim = 0#32 ∧ regRead s .dim2 = 0#32 ∧
    regRead s .src = 0#32 ∧ regRead s .src2 = 0#32 ∧ regRead s .dst = 0#32 ∧ regRead s .tol = 0#32 ∧
    regRead s .rptExceed = 0#32 ∧ regRead s .rptTotal = 0#32 ∧ regRead s .rptMaxerr = 0#32 ∧
    regRead s .rptFlags = 0#32 ∧ regRead s .errinfo = 0#32 ∧ regRead s .errdata = 0#32 ∧
    regRead s .progress = 0#32 ∧ s.phase = .idle ∧ s.unit = 0 ∧ s.accExceed = 0 ∧ s.accMax = 0 ∧
    s.irq = false ∧
    (∀ u < 16, ∀ v < 16, s.qmGet u v =
      if u < 8 ∧ v < 8 then
        ([[16, 11, 10, 16, 24, 40, 51, 61], [12, 12, 14, 19, 26, 58, 60, 55],
          [14, 13, 16, 24, 40, 57, 69, 56], [14, 17, 22, 29, 51, 87, 80, 62],
          [18, 22, 37, 56, 68, 109, 103, 77], [24, 35, 55, 64, 81, 104, 113, 92],
          [49, 64, 78, 87, 103, 121, 120, 101], [72, 92, 95, 98, 112, 100, 103, 99]].getD u []).getD v 0
      else 1#32)

/-! ## Invariants and whole-machine rules -/

/-- Every state after reset meets the invariant. -/
def Obligations.ResetMeetsInv : Prop := ∀ p : Platform, Inv (State.resetOn p)

/-- Memory keeps its canonical form: every step that goes on keeps the invariant of memory, in every state of
the running command that R205 allows. -/
def Obligations.StepKeepsMemInv : Prop :=
  ∀ s t : State, MemInv s → CommandInv s → step s = .next t → MemInv t

/-- R35, R60, R201, R220: every step that goes on keeps the status bits, the error code, the phase, the abort
bit and the unit's bit in agreement. -/
def Obligations.StepKeepsStatusInv : Prop :=
  ∀ s t : State, StatusInv s → step s = .next t → StatusInv t

/-- Every step that goes on keeps the whole invariant: memory in canonical form, the status bits in agreement
(R35, R60), a running command checked and inside its units (R205, R62, R61), the accumulators and the report
within their bounds (R385, R46 to R48), and what a waiting unit keeps (R225). -/
def Obligations.StepKeepsInv : Prop :=
  ∀ s t : State, Inv s → step s = .next t → Inv t

/-- From a state that meets the invariant a step never faults, and it is refused only at the check step of a
command whose region covers memory with side effects (R113). -/
def Obligations.NoFaultUnderInv : Prop :=
  ∀ s : State, Inv s →
    (∃ t, step s = .next t) ∨
    (s.phase = .check ∧ ∃ i n, decodeWord s.lastcmd = .ok i ∧ check i s = none ∧
      sideEffectFrame i s ≠ none ∧ step s = .refused (.sideEffectRegion n))

/-- R62: from acceptance to completion no operand changes, and neither does the accepted word. -/
def Obligations.OperandsStayFixedWhileBusy : Prop :=
  ∀ s t : State, step s = .next t → s.busy = true → t.busy = true →
    t.lastcmd = s.lastcmd ∧ t.log2n = s.log2n ∧ t.dim = s.dim ∧ t.dim2 = s.dim2 ∧ t.src = s.src ∧
    t.src2 = s.src2 ∧ t.dst = s.dst ∧ t.tol = s.tol ∧ t.qm = s.qm ∧ t.platform = s.platform

/-- R56, by the table's rows: what sets and what clears each flag, in a step that is no reset. -/
def Obligations.FlagsChangeOnlyAsListed : Prop :=
  ∀ s t : State, StatusInv s → step s = .next t → s.agenda.head? ≠ some .reset →
    (s.busy = false → t.busy = true → ∃ w rest, s.agenda = .regWrite 4 0x00C w :: rest) ∧
    (s.busy = true → t.busy = false → s.phase ≠ .idle ∧ t.phase = .idle ∧ t.done = true) ∧
    (s.done = false → t.done = true → s.busy = true ∧ t.busy = false) ∧
    (s.done = true → t.done = false →
      (∃ w rest, s.agenda = .regWrite 4 0x008 w :: rest ∧ w.getLsbD 1 = true) ∨
      (∃ w rest, s.agenda = .regWrite 4 0x00C w :: rest ∧ s.busy = false)) ∧
    (s.err = false → t.err = true → s.busy = true ∧ t.busy = false ∧ t.errcode ≠ 0#4) ∧
    (s.err = true → t.err = false → ∃ w rest, s.agenda = .regWrite 4 0x00C w :: rest ∧ s.busy = false) ∧
    (s.wdrop = false → t.wdrop = true → ∃ off w rest, s.agenda = .regWrite 4 off w :: rest ∧
      s.busy = true ∧
      (off ∈ [0x00C, 0x010, 0x014, 0x018, 0x01C, 0x020, 0x024, 0x028] ∨ (0x100 ≤ off ∧ off ≤ 0x4FC))) ∧
    (s.wdrop = true → t.wdrop = false →
      ∃ w rest, s.agenda = .regWrite 4 0x008 w :: rest ∧ w.getLsbD 3 = true) ∧
    (s.qmUnaligned = false → t.qmUnaligned = true → s.phase = .run ∧
      decodeWord s.lastcmd = .ok .qmbuild ∧ t.phase = .idle ∧ t.errcode = 0#4 ∧
      (s.rows % s.blockSize ≠ 0 ∨ s.cols % s.blockSize ≠ 0)) ∧
    (s.qmUnaligned = true → t.qmUnaligned = false →
      ∃ w rest, s.agenda = .regWrite 4 0x00C w :: rest ∧ s.busy = false) ∧
    (s.abort = false → t.abort = true → ∃ w rest, s.agenda = .regWrite 4 0x004 w :: rest ∧
      w.getLsbD 1 = true ∧ s.busy = true) ∧
    (s.abort = true → t.abort = false → s.busy = true ∧ t.busy = false) ∧
    (s.rptPassed ≠ t.rptPassed → s.phase = .run ∧ decodeWord s.lastcmd = .ok .verify ∧
      t.phase = .idle ∧ t.errcode = 0#4)

/-- R45: a step that is no reset changes a report register only as the completion without error of a VERIFY. -/
def Obligations.OnlyVerifyWritesTheReport : Prop :=
  ∀ s t : State, step s = .next t → s.agenda.head? ≠ some .reset →
    (s.phase = .run ∧ decodeWord s.lastcmd = .ok .verify ∧ t.phase = .idle ∧ t.errcode = 0#4 ∧
      t.rptTotal = BitVec.ofNat 32 (s.rows * s.cols)) ∨
    (t.rptExceed = s.rptExceed ∧ t.rptTotal = s.rptTotal ∧ t.rptMaxerr = s.rptMaxerr ∧
      t.rptPassed = s.rptPassed)

/-- R480: `irq` rises only with the completion of a command while IE is 1, or with a CTRL write that sets IE
while DONE is 1. -/
def Obligations.IrqRisesOnlyByCompletionOrEnable : Prop :=
  ∀ s t : State, step s = .next t → s.irq = false → t.irq = true →
    (s.ie = true ∧ s.phase ≠ .idle ∧ t.phase = .idle ∧ t.done = true) ∨
    (∃ w rest, s.agenda = .regWrite 4 0x004 w :: rest ∧ w.getLsbD 0 = true ∧ s.done = true)

/-- R153, R53, U28: a register a command does not read may hold any value: changing it changes nothing of what the
command does. QMBUILD, QUANT, DEQUANT, ENCODE and DECODE read `QM[u][v]` for `u, v < N` only, so to them the QM file
may be any that agrees on that corner; FDCT, IDCT and VERIFY read none of it. -/
def Obligations.UnreadRegistersDoNotMatter : Prop :=
  ∀ (i : Instr) (s : State) (log2n : BitVec 3) (dim2 src src2 dst tol : Word) (qm : Vector Word 256)
    (alter : State → State),
    (i ≠ .fdct ∧ i ≠ .idct ∧ i ≠ .verify → ∀ u < 16, ∀ v < 16, u < s.blockSize → v < s.blockSize →
      qm.get (qmIndex u v) = s.qmGet u v) →
    (∀ r : State, alter r =
      match i with
      | .qmbuild => { r with dim2 := dim2, src := src, src2 := src2, tol := tol, qm := qm }
      | .fdct => { r with dim2 := dim2, src2 := src2, tol := tol, qm := qm }
      | .idct => { r with dim2 := dim2, src2 := src2, tol := tol, qm := qm }
      | .quant => { r with dim2 := dim2, src2 := src2, tol := tol, qm := qm }
      | .dequant => { r with dim2 := dim2, src2 := src2, tol := tol, qm := qm }
      | .encode => { r with dim2 := dim2, src2 := src2, tol := tol, qm := qm }
      | .decode => { r with dim2 := dim2, src2 := src2, tol := tol, qm := qm }
      | .verify => { r with log2n := log2n, dst := dst, qm := qm }) →
    exec i (alter s) = mapNext alter (exec i s)
end

