-- ==== Sys2Proof/Laws/Check.lean ====
section
/-! SUPPORT. What a passed check (R458) gives: the shape, the steps, and that every element of every frame of
the command lies in the DMA space. -/

namespace Sys2Proof.Machine

/-- R458: the check passes exactly when each of its five groups does. -/
theorem check_eq_none_iff (i : Instr) (s : State) :
    check i s = none ↔ checkShape i s = none ∧ checkQm i s = none ∧ checkAlign i s = none ∧
      checkFit i s = none ∧ checkOverlap i s = none := by
  unfold check
  cases checkShape i s <;> cases checkQm i s <;> cases checkAlign i s <;> cases checkFit i s <;> simp

/-- What a legal shape is (R452). -/
theorem checkShape_eq_none_iff (i : Instr) (s : State) :
    checkShape i s = none ↔
      (usesBlockSize i = true → log2nLegal s = true) ∧ s.rows ≠ 0 ∧ s.cols ≠ 0 ∧
      (isTile i = true → s.rows % s.blockSize = 0 ∧ s.cols % s.blockSize = 0) ∧
      (i = .verify → s.rows2 = s.rows ∧ s.cols2 = s.cols) := by
  unfold checkShape
  constructor
  · intro h
    split_ifs at h with h1 h2 h3 h4 h5 h6 h7
    refine ⟨fun hu => ?_, h2, h3, fun ht => ⟨?_, ?_⟩, fun hv => ⟨?_, ?_⟩⟩
    · cases hl : log2nLegal s
      · exact absurd ⟨hu, hl⟩ h1
      · rfl
    · by_contra hc; exact h4 ⟨ht, hc⟩
    · by_contra hc; exact h5 ⟨ht, hc⟩
    · by_contra hc; exact h6 ⟨hv, hc⟩
    · by_contra hc; exact h7 ⟨hv, hc⟩
  · rintro ⟨h1, h2, h3, h4, h5⟩
    rw [if_neg (fun h => by simp [h1 h.1] at h), if_neg h2, if_neg h3,
      if_neg (fun h => h.2 (h4 h.1).1), if_neg (fun h => h.2 (h4 h.1).2),
      if_neg (fun h => h.2 (h5 h.1).1), if_neg (fun h => h.2 (h5 h.1).2)]

/-- Every frame of a command that fits (R456). -/
theorem checkFit_eq_none_iff (i : Instr) (s : State) :
    checkFit i s = none ↔ ∀ f ∈ frames i, (s.base f.1).toNat + s.frameBytes f.2 ≤ Config.dmaSpace := by
  unfold checkFit
  constructor
  · intro h f hf
    split at h
    · exact absurd h (by simp)
    · rename_i hn
      simpa using List.find?_eq_none.1 hn f hf
  · intro h
    have : (frames i).find? (fun f =>
        decide (Config.dmaSpace < (s.base f.1).toNat + s.frameBytes f.2)) = none :=
      List.find?_eq_none.2 fun f hf => by simpa using h f hf
    rw [this]

/-- Every frame base of a command that is aligned (R455). -/
theorem checkAlign_eq_none_iff (i : Instr) (s : State) :
    checkAlign i s = none ↔ ∀ f ∈ frames i, (s.base f.1).toNat % f.2 = 0 := by
  unfold checkAlign
  constructor
  · intro h f hf
    split at h
    · exact absurd h (by simp)
    · rename_i hn
      simpa using List.find?_eq_none.1 hn f hf
  · intro h
    have : (frames i).find? (fun f => decide ((s.base f.1).toNat % f.2 ≠ 0)) = none :=
      List.find?_eq_none.2 fun f hf => by simpa using h f hf
    rw [this]

theorem mem_blockPositions {n x y : Nat} : (x, y) ∈ blockPositions n ↔ x < n ∧ y < n := by
  simp [blockPositions]

/-- Every step a command uses is legal (R453, R55). -/
theorem checkQm_eq_none_iff (i : Instr) (s : State) :
    checkQm i s = none ↔
      (usesQm i = true → ∀ u < s.blockSize, ∀ v < s.blockSize, qmLegal s u v = true) := by
  unfold checkQm
  cases hu : usesQm i
  · simp
  · simp only [if_true, true_implies]
    constructor
    · intro h u hu' v hv
      split at h
      · exact absurd h (by simp)
      · rename_i hn
        simpa using List.find?_eq_none.1 hn (u, v) (mem_blockPositions.2 ⟨hu', hv⟩)
    · intro h
      have : (blockPositions s.blockSize).find? (fun p => !qmLegal s p.1 p.2) = none :=
        List.find?_eq_none.2 fun p hp => by
          obtain ⟨u, v⟩ := p
          have := mem_blockPositions.1 hp
          simp [h u this.1 v this.2]
      rw [this]

/-- The regions a tile command may have (R457, R109). -/
theorem checkOverlap_eq_none_iff (i : Instr) (s : State) :
    checkOverlap i s = none ↔
      (isTile i = true → ∀ ks kd, srcKind i = some ks → dstKind i = some kd →
        s.dst.toNat + s.frameBytes kd.esize ≤ s.src.toNat ∨
        s.src.toNat + s.frameBytes ks.esize ≤ s.dst.toNat ∨ (s.src = s.dst ∧ ks.esize = kd.esize)) := by
  unfold checkOverlap
  cases ht : isTile i
  · simp
  · simp only [if_true, true_implies]
    cases hs : srcKind i <;> cases hd : dstKind i <;> simp
    rename_i ks kd
    constructor <;> intro h
    · by_cases h1 : s.src.toNat < s.dst.toNat + s.frameBytes kd.esize
      · by_cases h2 : s.dst.toNat < s.src.toNat + s.frameBytes ks.esize
        · exact .inr (.inr (h h1 h2))
        · exact .inr (.inl (by omega))
      · exact .inl (by omega)
    · intro h1 h2
      rcases h with h | h | h
      · omega
      · omega
      · exact h

/-! ## Where the elements of a unit lie -/

theorem isTile_usesBlockSize {i : Instr} (h : isTile i = true) : usesBlockSize i = true := by
  cases i <;> simp_all [isTile, usesBlockSize]

theorem blockSize_pos (s : State) : 0 < s.blockSize := Nat.two_pow_pos _

/-- Every position of a due unit is a position of the frame (R210). -/
theorem unitPositions_inFrame {i : Instr} {s : State} {t : Nat} (hs : checkShape i s = none)
    (ht : t < unitCount i s) : ∀ p ∈ unitPositions i s t, p.1 < s.rows ∧ p.2 < s.cols := by
  have h := (checkShape_eq_none_iff i s).1 hs
  intro p hp
  unfold unitPositions at hp
  unfold unitCount at ht
  cases hi : isTile i
  · simp only [hi, Bool.false_eq_true, if_false, List.mem_map, List.mem_range] at hp ht
    obtain ⟨j, hj, rfl⟩ := hp
    exact ⟨ht, hj⟩
  · simp only [hi, if_true, List.mem_map] at hp ht
    obtain ⟨⟨x, y⟩, hxy, rfl⟩ := hp
    have hxy := mem_blockPositions.1 hxy
    obtain ⟨hr, hc⟩ := h.2.2.2.1 hi
    have hn := blockSize_pos s
    have hrows : s.tileRows * s.blockSize = s.rows := Nat.div_mul_cancel (Nat.dvd_of_mod_eq_zero hr)
    have hcols : s.tileCols * s.blockSize = s.cols := Nat.div_mul_cancel (Nat.dvd_of_mod_eq_zero hc)
    have htc : 0 < s.tileCols := by
      rcases Nat.eq_zero_or_pos s.tileCols with h0 | h0
      · rw [h0] at ht; simp at ht
      · exact h0
    have hk : t / s.tileCols < s.tileRows := Nat.div_lt_of_lt_mul (by rwa [Nat.mul_comm])
    have hl : t % s.tileCols < s.tileCols := Nat.mod_lt _ htc
    have hk' : (t / s.tileCols + 1) * s.blockSize ≤ s.tileRows * s.blockSize := Nat.mul_le_mul_right _ hk
    have hl' : (t % s.tileCols + 1) * s.blockSize ≤ s.tileCols * s.blockSize := Nat.mul_le_mul_right _ hl
    simp only [State.tilePos]
    rw [Nat.add_mul, Nat.one_mul] at hk' hl'
    exact ⟨by omega, by omega⟩

/-- A position of the frame lies in its region (R104). -/
theorem elemAddr_inRegion {s : State} {f : FrameName} {e i j : Nat} (hi : i < s.rows) (hj : j < s.cols) :
    (s.base f).toNat ≤ s.elemAddr f e i j ∧
      s.elemAddr f e i j + e ≤ (s.base f).toNat + s.frameBytes e := by
  unfold State.elemAddr State.frameBytes
  have h1 : i * s.cols + j + 1 ≤ s.rows * s.cols := by
    calc i * s.cols + j + 1 ≤ i * s.cols + s.cols := by omega
      _ = (i + 1) * s.cols := by ring
      _ ≤ s.rows * s.cols := Nat.mul_le_mul_right _ hi
  have h2 : (i * s.cols + j + 1) * e ≤ s.rows * s.cols * e := Nat.mul_le_mul_right _ h1
  rw [Nat.add_mul, Nat.one_mul] at h2
  exact ⟨by omega, by omega⟩

theorem mem_frames_src {i : Instr} {k : FrameKind} (h : srcKind i = some k) : (.src, k.esize) ∈ frames i := by
  simp [frames, h]

theorem mem_frames_dst {i : Instr} {k : FrameKind} (h : dstKind i = some k) : (.dst, k.esize) ∈ frames i := by
  simp [frames, h]

/-- Every DMA write of a due unit lies in the DST region and in the DMA space (R112, R108). -/
theorem unitWrites_inRegion {i : Instr} {s : State} {t : Nat} (hc : check i s = none)
    (ht : t < unitCount i s) : ∀ a ∈ unitWrites i s t, ∃ k, dstKind i = some k ∧ a.frame = .dst ∧
      a.size = k.esize ∧ s.dst.toNat ≤ a.addr ∧ a.addr + a.size ≤ s.dst.toNat + s.frameBytes k.esize ∧
      a.addr + a.size ≤ Config.dmaSpace := by
  obtain ⟨hs, -, -, hf, -⟩ := (check_eq_none_iff i s).1 hc
  intro a ha
  unfold unitWrites frameAccesses at ha
  cases hd : dstKind i with
  | none => simp [hd] at ha
  | some k =>
    simp only [hd, List.mem_map] at ha
    obtain ⟨p, hp, rfl⟩ := ha
    obtain ⟨h1, h2⟩ := unitPositions_inFrame hs ht p hp
    have h3 := elemAddr_inRegion (f := .dst) (e := k.esize) h1 h2
    have h4 := (checkFit_eq_none_iff i s).1 hf _ (mem_frames_dst hd)
    simp only [State.base] at h3 h4
    exact ⟨k, rfl, rfl, rfl, h3.1, h3.2, h3.2.trans h4⟩

end Sys2Proof.Machine
end

