-- ==== Sys2Proof/Laws/Memory.lean ====
section
/-! SUPPORT. Memory: read after write, the canonical form and that every operation keeps it. -/

namespace Sys2Proof.Machine

/-! ## One byte -/

theorem Memory.wfFrom_cons {lo k : Nat} {b : Byte} {rest : Memory} :
    Memory.wfFrom lo ((k, b) :: rest) = true ↔
      lo ≤ k ∧ k < Config.dmaSpace ∧ b ≠ Memory.unlisted ∧ Memory.wfFrom (k + 1) rest = true := by
  simp [Memory.wfFrom, and_assoc]

theorem Memory.wfFrom_mono {lo lo' : Nat} {m : Memory} (h : Memory.wfFrom lo m = true) (hle : lo' ≤ lo) :
    Memory.wfFrom lo' m = true := by
  cases m with
  | nil => rfl
  | cons c rest =>
    obtain ⟨k, b⟩ := c
    rw [Memory.wfFrom_cons] at h ⊢
    exact ⟨hle.trans h.1, h.2⟩

/-- Below the first listed address a byte reads as an unlisted one. -/
theorem Memory.read_below {lo a : Nat} {m : Memory} (h : Memory.wfFrom lo m = true) (ha : a < lo) :
    m.read a = Memory.unlisted := by
  cases m with
  | nil => rfl
  | cons c rest =>
    obtain ⟨k, b⟩ := c
    rw [Memory.wfFrom_cons] at h
    simp only [Memory.read]
    rw [if_neg (by omega), if_pos (by omega)]

theorem Memory.write_wfFrom {lo a : Nat} {m : Memory} {v : Byte} (h : Memory.wfFrom lo m = true)
    (hlo : lo ≤ a) (ha : a < Config.dmaSpace) : Memory.wfFrom lo (m.write a v) = true := by
  induction m generalizing lo with
  | nil =>
    simp only [Memory.write]
    split
    · rfl
    · exact Memory.wfFrom_cons.2 ⟨hlo, ha, by assumption, rfl⟩
  | cons c rest ih =>
    obtain ⟨k, b⟩ := c
    have hc := Memory.wfFrom_cons.1 h
    simp only [Memory.write]
    split
    · exact Memory.wfFrom_cons.2 ⟨hc.1, hc.2.1, hc.2.2.1, ih hc.2.2.2 (by omega)⟩
    · split
      · split
        · exact Memory.wfFrom_mono hc.2.2.2 (by omega)
        · exact Memory.wfFrom_cons.2 ⟨hlo, ha, by assumption, by subst_vars; exact hc.2.2.2⟩
      · split
        · exact h
        · exact Memory.wfFrom_cons.2 ⟨hlo, ha, by assumption,
            Memory.wfFrom_cons.2 ⟨by omega, hc.2.1, hc.2.2.1, hc.2.2.2⟩⟩

/-- A write keeps the canonical form. -/
theorem Memory.write_wf {a : Nat} {m : Memory} {v : Byte} (h : m.wf = true) (ha : a < Config.dmaSpace) :
    (m.write a v).wf = true :=
  Memory.write_wfFrom h (Nat.zero_le a) ha

theorem Memory.read_writeFrom {lo a : Nat} {m : Memory} {v : Byte} (h : Memory.wfFrom lo m = true) (b : Nat) :
    (m.write a v).read b = if b = a then v else m.read b := by
  induction m generalizing lo with
  | nil =>
    by_cases hv : v = Memory.unlisted
    · simp [Memory.write, Memory.read, hv]
    · rcases Nat.lt_trichotomy b a with hb | hb | hb
      · simp [Memory.write, Memory.read, hv, hb, Nat.ne_of_gt hb, Nat.ne_of_lt hb]
      · simp [Memory.write, Memory.read, hv, hb]
      · simp [Memory.write, Memory.read, hv, Nat.ne_of_lt hb, Nat.ne_of_gt hb]
  | cons c rest ih =>
    obtain ⟨k, d⟩ := c
    have hc := Memory.wfFrom_cons.1 h
    simp only [Memory.write]
    split
    · simp only [Memory.read, ih hc.2.2.2]
      split_ifs <;> first | rfl | omega
    · split
      · subst_vars
        split
        · simp only [Memory.read]
          split_ifs with h1 h2 h3
          · subst_vars; exact Memory.read_below hc.2.2.2 (by omega)
          · omega
          · exact Memory.read_below hc.2.2.2 (by omega)
          · rfl
        · simp only [Memory.read]
          split_ifs <;> first | rfl | omega
      · split
        · split_ifs with hb
          · subst_vars
            simp only [Memory.read]
            rw [if_neg (by omega), if_pos (by omega)]
          · rfl
        · simp only [Memory.read]
          split_ifs <;> first | rfl | omega

/-- Read after write: the written byte at its address, and every other byte as before. -/
theorem Memory.read_write {a : Nat} {m : Memory} {v : Byte} (h : m.wf = true) (b : Nat) :
    (m.write a v).read b = if b = a then v else m.read b :=
  Memory.read_writeFrom h b

/-- Two canonical memories that read alike are equal. -/
theorem Memory.ext_of_read {lo : Nat} {m m' : Memory} (h : Memory.wfFrom lo m = true)
    (h' : Memory.wfFrom lo m' = true) (hr : ∀ a, m.read a = m'.read a) : m = m' := by
  induction m generalizing lo m' with
  | nil =>
    cases m' with
    | nil => rfl
    | cons c rest =>
      obtain ⟨k, b⟩ := c
      have hc := Memory.wfFrom_cons.1 h'
      exact absurd (by simpa [Memory.read] using (hr k).symm) hc.2.2.1
  | cons c rest ih =>
    obtain ⟨k, b⟩ := c
    have hc := Memory.wfFrom_cons.1 h
    cases m' with
    | nil => exact absurd (by simpa [Memory.read] using hr k) hc.2.2.1
    | cons c' rest' =>
      obtain ⟨k', b'⟩ := c'
      have hc' := Memory.wfFrom_cons.1 h'
      have hk : k = k' := by
        rcases Nat.lt_trichotomy k k' with hlt | heq | hlt
        · exact absurd (by simpa [Memory.read, Nat.ne_of_gt hlt, hlt] using hr k) hc.2.2.1
        · exact heq
        · exact absurd (by simpa [Memory.read, Nat.ne_of_gt hlt, hlt] using (hr k').symm) hc'.2.2.1
      subst hk
      have hb : b = b' := by simpa [Memory.read] using hr k
      subst hb
      have hrest : rest = rest' := by
        refine ih hc.2.2.2 hc'.2.2.2 fun a => ?_
        rcases Nat.lt_or_ge k a with hlt | hge
        · simpa [Memory.read, Nat.ne_of_lt hlt, Nat.not_lt.2 hlt.le] using hr a
        · rw [Memory.read_below hc.2.2.2 (by omega), Memory.read_below hc'.2.2.2 (by omega)]
      rw [hrest]

/-! ## Wider accesses -/

theorem Memory.writeLE_wf {n : Nat} : ∀ {m : Memory} {a v : Nat}, m.wf = true →
    a + n ≤ Config.dmaSpace → (m.writeLE a n v).wf = true := by
  induction n with
  | zero => intro m a v h _; exact h
  | succ n ih =>
    intro m a v h ha
    exact ih (Memory.write_wf h (by omega)) (by omega)

/-- A wide write leaves every byte outside it alone. -/
theorem Memory.read_writeLE_of_outside {n : Nat} : ∀ {m : Memory} {a v b : Nat}, m.wf = true →
    a + n ≤ Config.dmaSpace → ¬ (a ≤ b ∧ b < a + n) → (m.writeLE a n v).read b = m.read b := by
  induction n with
  | zero => intro m a v b _ _ _; rfl
  | succ n ih =>
    intro m a v b h ha hb
    simp only [Memory.writeLE]
    rw [ih (Memory.write_wf h (by omega)) (by omega) (by omega), Memory.read_write h,
      if_neg (by omega)]

theorem Memory.readLE_congr {n : Nat} : ∀ {m m' : Memory} {a : Nat},
    (∀ b, a ≤ b → b < a + n → m.read b = m'.read b) → m.readLE a n = m'.readLE a n := by
  induction n with
  | zero => intro m m' a _; rfl
  | succ n ih =>
    intro m m' a h
    simp only [Memory.readLE]
    rw [h a (by omega) (by omega), ih fun b h1 h2 => h b (by omega) (by omega)]

/-- Read after write of `n` bytes: the low `8n` bits of the value. -/
theorem Memory.readLE_writeLE {n : Nat} : ∀ {m : Memory} {a v : Nat}, m.wf = true →
    a + n ≤ Config.dmaSpace → (m.writeLE a n v).readLE a n = v % 256 ^ n := by
  induction n with
  | zero => intro m a v _ _; simp [Memory.readLE, Nat.mod_one]
  | succ n ih =>
    intro m a v h ha
    have hw := Memory.write_wf (v := BitVec.ofNat 8 v) h (show a < Config.dmaSpace by omega)
    simp only [Memory.readLE, Memory.writeLE]
    rw [ih hw (by omega), Memory.read_writeLE_of_outside hw (by omega) (by omega), Memory.read_write h,
      if_pos rfl, BitVec.toNat_ofNat]
    have hsplit : v % 256 ^ (n + 1) = v % 256 + 256 * (v / 256 % 256 ^ n) := by
      rw [pow_succ', Nat.mod_mul]
    rw [hsplit]

theorem Memory.readLE_lt {n : Nat} : ∀ {m : Memory} {a : Nat}, m.readLE a n < 256 ^ n := by
  induction n with
  | zero => intro m a; simp [Memory.readLE]
  | succ n ih =>
    intro m a
    have h1 := (m.read a).isLt
    have h2 := @ih m (a + 1)
    simp only [Memory.readLE, pow_succ']
    omega

theorem Memory.writeCells_wf {cells : List Host.Cell} : ∀ {m : Memory}, m.wf = true →
    (∀ c ∈ cells, c.1 < Config.dmaSpace) → (m.writeCells cells).wf = true := by
  induction cells with
  | nil => intro m h _; exact h
  | cons c rest ih =>
    intro m h hc
    exact ih (Memory.write_wf h (hc c (by simp))) fun d hd => hc d (by simp [hd])

theorem Memory.writeFree_succ (m : Memory) (draw a n : Nat) :
    m.writeFree draw a (n + 1) = (m.writeFree draw a n).write (a + n) (Config.freeByte draw (a + n)) := by
  simp [Memory.writeFree, List.range_succ]

theorem Memory.writeFree_wf {m : Memory} {draw a n : Nat} (h : m.wf = true)
    (ha : a + n ≤ Config.dmaSpace) : (m.writeFree draw a n).wf = true := by
  induction n with
  | zero => exact h
  | succ n ih =>
    rw [Memory.writeFree_succ]
    exact Memory.write_wf (ih (by omega)) (by omega)

/-- Free bytes touch only their own addresses. -/
theorem Memory.read_writeFree_of_outside {m : Memory} {draw a n b : Nat} (h : m.wf = true)
    (ha : a + n ≤ Config.dmaSpace) (hb : ¬ (a ≤ b ∧ b < a + n)) :
    (m.writeFree draw a n).read b = m.read b := by
  induction n with
  | zero => rfl
  | succ n ih =>
    rw [Memory.writeFree_succ, Memory.read_write (Memory.writeFree_wf h (by omega)), if_neg (by omega),
      ih (by omega) (by omega)]

/-! ## Lists of element writes -/

theorem writeElem_wf {m : Memory} {w : ElemWrite} (h : m.wf = true)
    (hw : w.addr + w.size ≤ Config.dmaSpace) : (writeElem m w).wf = true :=
  Memory.writeLE_wf h hw

theorem writeElems_wf {ws : List ElemWrite} : ∀ {m : Memory}, m.wf = true →
    (∀ w ∈ ws, w.addr + w.size ≤ Config.dmaSpace) → (writeElems m ws).wf = true := by
  induction ws with
  | nil => intro m h _; exact h
  | cons w rest ih =>
    intro m h hw
    exact ih (writeElem_wf h (hw w (by simp))) fun d hd => hw d (by simp [hd])

/-- A list of element writes leaves every byte outside all of them alone. -/
theorem read_writeElems_of_outside {ws : List ElemWrite} : ∀ {m : Memory} {b : Nat}, m.wf = true →
    (∀ w ∈ ws, w.addr + w.size ≤ Config.dmaSpace) →
    (∀ w ∈ ws, ¬ (w.addr ≤ b ∧ b < w.addr + w.size)) → (writeElems m ws).read b = m.read b := by
  induction ws with
  | nil => intro m b _ _ _; rfl
  | cons w rest ih =>
    intro m b h hw hb
    have := ih (m := writeElem m w) (b := b) (writeElem_wf h (hw w (by simp)))
      (fun d hd => hw d (by simp [hd])) (fun d hd => hb d (by simp [hd]))
    simp only [writeElems, List.foldl_cons] at this ⊢
    rw [this]
    exact Memory.read_writeLE_of_outside h (hw w (by simp)) (hb w (by simp))

/-- Two element writes share no byte. -/
def WritesApart (v w : ElemWrite) : Prop := v.addr + v.size ≤ w.addr ∨ w.addr + w.size ≤ v.addr

/-- Of pairwise disjoint element writes, each leaves its value. -/
theorem readLE_writeElems {ws : List ElemWrite} : ∀ {m : Memory} {w : ElemWrite}, m.wf = true →
    (∀ v ∈ ws, v.addr + v.size ≤ Config.dmaSpace) → ws.Pairwise WritesApart → w ∈ ws →
    (writeElems m ws).readLE w.addr w.size = (w.value % 2 ^ (8 * w.size)).toNat := by
  induction ws with
  | nil => intro m w _ _ _ hm; simp at hm
  | cons v rest ih =>
    intro m w h hw hp hm
    rw [List.pairwise_cons] at hp
    have hrest : ∀ d ∈ rest, d.addr + d.size ≤ Config.dmaSpace := fun d hd => hw d (by simp [hd])
    have hwf := writeElem_wf h (hw v (by simp))
    rcases List.mem_cons.1 hm with rfl | hmem
    · have h1 : (writeElems (writeElem m w) rest).readLE w.addr w.size =
          (writeElem m w).readLE w.addr w.size := by
        refine Memory.readLE_congr fun b hb1 hb2 => ?_
        refine read_writeElems_of_outside hwf hrest fun d hd => ?_
        rcases hp.1 d hd with h2 | h2 <;> omega
      simp only [writeElems, List.foldl_cons] at h1 ⊢
      rw [h1, writeElem, Memory.readLE_writeLE h (hw w (by simp))]
      refine Nat.mod_eq_of_lt ?_
      have hpow : (256 : Nat) ^ w.size = 2 ^ (8 * w.size) := by rw [pow_mul]; norm_num
      have hpos : (0 : Int) < 2 ^ (8 * w.size) := by positivity
      have hlt := Int.emod_lt_of_pos w.value hpos
      have hnn := Int.emod_nonneg w.value hpos.ne'
      rw [hpow]
      have : ((w.value % 2 ^ (8 * w.size)).toNat : Int) < ((2 ^ (8 * w.size) : Nat) : Int) := by
        rw [Int.toNat_of_nonneg hnn]; push_cast; exact hlt
      exact_mod_cast this
    · exact ih hwf hrest hp.2 hmem

theorem freeElems_wf {draw : Nat} {accesses : List Access} : ∀ {m : Memory}, m.wf = true →
    (∀ a ∈ accesses, a.addr + a.size ≤ Config.dmaSpace) → (freeElems draw m accesses).wf = true := by
  induction accesses with
  | nil => intro m h _; exact h
  | cons a rest ih =>
    intro m h ha
    exact ih (Memory.writeFree_wf h (ha a (by simp))) fun d hd => ha d (by simp [hd])

/-- Free elements touch only their own bytes. -/
theorem read_freeElems_of_outside {draw : Nat} {accesses : List Access} : ∀ {m : Memory} {b : Nat},
    m.wf = true → (∀ a ∈ accesses, a.addr + a.size ≤ Config.dmaSpace) →
    (∀ a ∈ accesses, ¬ (a.addr ≤ b ∧ b < a.addr + a.size)) →
    (freeElems draw m accesses).read b = m.read b := by
  induction accesses with
  | nil => intro m b _ _ _; rfl
  | cons a rest ih =>
    intro m b h ha hb
    have := ih (m := m.writeFree draw a.addr a.size) (b := b) (Memory.writeFree_wf h (ha a (by simp)))
      (fun d hd => ha d (by simp [hd])) (fun d hd => hb d (by simp [hd]))
    simp only [freeElems, List.foldl_cons] at this ⊢
    rw [this]
    exact Memory.read_writeFree_of_outside h (ha a (by simp)) (hb a (by simp))

end Sys2Proof.Machine
end

