-- ==== Sys2Proof/Laws/State.lean ====
section
/-! SUPPORT. One lemma per field of State and per update of the model: what the update leaves in the field. -/

namespace Sys2Proof.Machine

variable (s : State)

/-! ### tick -/

@[simp] theorem tick_ie : (s.tick).ie = s.ie := rfl
@[simp] theorem tick_abort : (s.tick).abort = s.abort := rfl
@[simp] theorem tick_busy : (s.tick).busy = s.busy := rfl
@[simp] theorem tick_done : (s.tick).done = s.done := rfl
@[simp] theorem tick_err : (s.tick).err = s.err := rfl
@[simp] theorem tick_wdrop : (s.tick).wdrop = s.wdrop := rfl
@[simp] theorem tick_qmUnaligned : (s.tick).qmUnaligned = s.qmUnaligned := rfl
@[simp] theorem tick_errcode : (s.tick).errcode = s.errcode := rfl
@[simp] theorem tick_lastcmd : (s.tick).lastcmd = s.lastcmd := rfl
@[simp] theorem tick_log2n : (s.tick).log2n = s.log2n := rfl
@[simp] theorem tick_dim : (s.tick).dim = s.dim := rfl
@[simp] theorem tick_dim2 : (s.tick).dim2 = s.dim2 := rfl
@[simp] theorem tick_src : (s.tick).src = s.src := rfl
@[simp] theorem tick_src2 : (s.tick).src2 = s.src2 := rfl
@[simp] theorem tick_dst : (s.tick).dst = s.dst := rfl
@[simp] theorem tick_tol : (s.tick).tol = s.tol := rfl
@[simp] theorem tick_rptExceed : (s.tick).rptExceed = s.rptExceed := rfl
@[simp] theorem tick_rptTotal : (s.tick).rptTotal = s.rptTotal := rfl
@[simp] theorem tick_rptMaxerr : (s.tick).rptMaxerr = s.rptMaxerr := rfl
@[simp] theorem tick_rptPassed : (s.tick).rptPassed = s.rptPassed := rfl
@[simp] theorem tick_errinfo : (s.tick).errinfo = s.errinfo := rfl
@[simp] theorem tick_errdata : (s.tick).errdata = s.errdata := rfl
@[simp] theorem tick_qm : (s.tick).qm = s.qm := rfl
@[simp] theorem tick_phase : (s.tick).phase = s.phase := rfl
@[simp] theorem tick_unit : (s.tick).unit = s.unit := rfl
@[simp] theorem tick_accExceed : (s.tick).accExceed = s.accExceed := rfl
@[simp] theorem tick_accMax : (s.tick).accMax = s.accMax := rfl
@[simp] theorem tick_wait : (s.tick).wait = s.wait := rfl
@[simp] theorem tick_mem : (s.tick).mem = s.mem := rfl
@[simp] theorem tick_platform : (s.tick).platform = s.platform := rfl
@[simp] theorem tick_answers : (s.tick).answers = s.answers := rfl
@[simp] theorem tick_pending : (s.tick).pending = s.pending := rfl
@[simp] theorem tick_touched : (s.tick).touched = s.touched := rfl
@[simp] theorem tick_landed : (s.tick).landed = s.landed := rfl
@[simp] theorem tick_memOld : (s.tick).memOld = s.memOld := rfl
@[simp] theorem tick_dmaWritten : (s.tick).dmaWritten = s.dmaWritten := rfl
@[simp] theorem tick_hostResp : (s.tick).hostResp = s.hostResp := rfl
@[simp] theorem tick_agenda : (s.tick).agenda = s.agenda := rfl
@[simp] theorem tick_freeCount : (s.tick).freeCount = s.freeCount + 1 := rfl

/-! ### acceptCommand -/

@[simp] theorem acceptCommand_ie (w : Word) : (acceptCommand w s).ie = s.ie := rfl
@[simp] theorem acceptCommand_abort (w : Word) : (acceptCommand w s).abort = false := rfl
@[simp] theorem acceptCommand_busy (w : Word) : (acceptCommand w s).busy = true := rfl
@[simp] theorem acceptCommand_done (w : Word) : (acceptCommand w s).done = false := rfl
@[simp] theorem acceptCommand_err (w : Word) : (acceptCommand w s).err = false := rfl
@[simp] theorem acceptCommand_wdrop (w : Word) : (acceptCommand w s).wdrop = s.wdrop := rfl
@[simp] theorem acceptCommand_qmUnaligned (w : Word) : (acceptCommand w s).qmUnaligned = false := rfl
@[simp] theorem acceptCommand_errcode (w : Word) : (acceptCommand w s).errcode = 0#4 := rfl
@[simp] theorem acceptCommand_lastcmd (w : Word) : (acceptCommand w s).lastcmd = w := rfl
@[simp] theorem acceptCommand_log2n (w : Word) : (acceptCommand w s).log2n = s.log2n := rfl
@[simp] theorem acceptCommand_dim (w : Word) : (acceptCommand w s).dim = s.dim := rfl
@[simp] theorem acceptCommand_dim2 (w : Word) : (acceptCommand w s).dim2 = s.dim2 := rfl
@[simp] theorem acceptCommand_src (w : Word) : (acceptCommand w s).src = s.src := rfl
@[simp] theorem acceptCommand_src2 (w : Word) : (acceptCommand w s).src2 = s.src2 := rfl
@[simp] theorem acceptCommand_dst (w : Word) : (acceptCommand w s).dst = s.dst := rfl
@[simp] theorem acceptCommand_tol (w : Word) : (acceptCommand w s).tol = s.tol := rfl
@[simp] theorem acceptCommand_rptExceed (w : Word) : (acceptCommand w s).rptExceed = s.rptExceed := rfl
@[simp] theorem acceptCommand_rptTotal (w : Word) : (acceptCommand w s).rptTotal = s.rptTotal := rfl
@[simp] theorem acceptCommand_rptMaxerr (w : Word) : (acceptCommand w s).rptMaxerr = s.rptMaxerr := rfl
@[simp] theorem acceptCommand_rptPassed (w : Word) : (acceptCommand w s).rptPassed = s.rptPassed := rfl
@[simp] theorem acceptCommand_errinfo (w : Word) : (acceptCommand w s).errinfo = 0#32 := rfl
@[simp] theorem acceptCommand_errdata (w : Word) : (acceptCommand w s).errdata = 0#32 := rfl
@[simp] theorem acceptCommand_qm (w : Word) : (acceptCommand w s).qm = s.qm := rfl
@[simp] theorem acceptCommand_phase (w : Word) : (acceptCommand w s).phase = .check := rfl
@[simp] theorem acceptCommand_unit (w : Word) : (acceptCommand w s).unit = 0 := rfl
@[simp] theorem acceptCommand_accExceed (w : Word) : (acceptCommand w s).accExceed = 0 := rfl
@[simp] theorem acceptCommand_accMax (w : Word) : (acceptCommand w s).accMax = 0 := rfl
@[simp] theorem acceptCommand_wait (w : Word) : (acceptCommand w s).wait = none := rfl
@[simp] theorem acceptCommand_mem (w : Word) : (acceptCommand w s).mem = s.mem := rfl
@[simp] theorem acceptCommand_platform (w : Word) : (acceptCommand w s).platform = s.platform := rfl
@[simp] theorem acceptCommand_answers (w : Word) : (acceptCommand w s).answers = s.answers := rfl
@[simp] theorem acceptCommand_pending (w : Word) : (acceptCommand w s).pending = s.pending := rfl
@[simp] theorem acceptCommand_touched (w : Word) : (acceptCommand w s).touched = [] := rfl
@[simp] theorem acceptCommand_landed (w : Word) : (acceptCommand w s).landed = [] := rfl
@[simp] theorem acceptCommand_memOld (w : Word) : (acceptCommand w s).memOld = s.mem := rfl
@[simp] theorem acceptCommand_dmaWritten (w : Word) : (acceptCommand w s).dmaWritten = s.dmaWritten := rfl
@[simp] theorem acceptCommand_hostResp (w : Word) : (acceptCommand w s).hostResp = s.hostResp := rfl
@[simp] theorem acceptCommand_agenda (w : Word) : (acceptCommand w s).agenda = s.agenda := rfl
@[simp] theorem acceptCommand_freeCount (w : Word) : (acceptCommand w s).freeCount = s.freeCount := rfl

/-! ### endCommand -/

@[simp] theorem endCommand_ie (c : ErrCode) (info data : Word) : (endCommand c info data s).ie = s.ie := rfl
@[simp] theorem endCommand_abort (c : ErrCode) (info data : Word) : (endCommand c info data s).abort = false := rfl
@[simp] theorem endCommand_busy (c : ErrCode) (info data : Word) : (endCommand c info data s).busy = false := rfl
@[simp] theorem endCommand_done (c : ErrCode) (info data : Word) : (endCommand c info data s).done = true := rfl
@[simp] theorem endCommand_err (c : ErrCode) (info data : Word) : (endCommand c info data s).err = decide (c ≠ .none) := rfl
@[simp] theorem endCommand_wdrop (c : ErrCode) (info data : Word) : (endCommand c info data s).wdrop = s.wdrop := rfl
@[simp] theorem endCommand_qmUnaligned (c : ErrCode) (info data : Word) : (endCommand c info data s).qmUnaligned = s.qmUnaligned := rfl
@[simp] theorem endCommand_errcode (c : ErrCode) (info data : Word) : (endCommand c info data s).errcode = errCodeBits c := rfl
@[simp] theorem endCommand_lastcmd (c : ErrCode) (info data : Word) : (endCommand c info data s).lastcmd = s.lastcmd := rfl
@[simp] theorem endCommand_log2n (c : ErrCode) (info data : Word) : (endCommand c info data s).log2n = s.log2n := rfl
@[simp] theorem endCommand_dim (c : ErrCode) (info data : Word) : (endCommand c info data s).dim = s.dim := rfl
@[simp] theorem endCommand_dim2 (c : ErrCode) (info data : Word) : (endCommand c info data s).dim2 = s.dim2 := rfl
@[simp] theorem endCommand_src (c : ErrCode) (info data : Word) : (endCommand c info data s).src = s.src := rfl
@[simp] theorem endCommand_src2 (c : ErrCode) (info data : Word) : (endCommand c info data s).src2 = s.src2 := rfl
@[simp] theorem endCommand_dst (c : ErrCode) (info data : Word) : (endCommand c info data s).dst = s.dst := rfl
@[simp] theorem endCommand_tol (c : ErrCode) (info data : Word) : (endCommand c info data s).tol = s.tol := rfl
@[simp] theorem endCommand_rptExceed (c : ErrCode) (info data : Word) : (endCommand c info data s).rptExceed = s.rptExceed := rfl
@[simp] theorem endCommand_rptTotal (c : ErrCode) (info data : Word) : (endCommand c info data s).rptTotal = s.rptTotal := rfl
@[simp] theorem endCommand_rptMaxerr (c : ErrCode) (info data : Word) : (endCommand c info data s).rptMaxerr = s.rptMaxerr := rfl
@[simp] theorem endCommand_rptPassed (c : ErrCode) (info data : Word) : (endCommand c info data s).rptPassed = s.rptPassed := rfl
@[simp] theorem endCommand_errinfo (c : ErrCode) (info data : Word) : (endCommand c info data s).errinfo = info := rfl
@[simp] theorem endCommand_errdata (c : ErrCode) (info data : Word) : (endCommand c info data s).errdata = data := rfl
@[simp] theorem endCommand_qm (c : ErrCode) (info data : Word) : (endCommand c info data s).qm = s.qm := rfl
@[simp] theorem endCommand_phase (c : ErrCode) (info data : Word) : (endCommand c info data s).phase = .idle := rfl
@[simp] theorem endCommand_unit (c : ErrCode) (info data : Word) : (endCommand c info data s).unit = s.unit := rfl
@[simp] theorem endCommand_accExceed (c : ErrCode) (info data : Word) : (endCommand c info data s).accExceed = s.accExceed := rfl
@[simp] theorem endCommand_accMax (c : ErrCode) (info data : Word) : (endCommand c info data s).accMax = s.accMax := rfl
@[simp] theorem endCommand_wait (c : ErrCode) (info data : Word) : (endCommand c info data s).wait = none := rfl
@[simp] theorem endCommand_mem (c : ErrCode) (info data : Word) : (endCommand c info data s).mem = s.mem := rfl
@[simp] theorem endCommand_platform (c : ErrCode) (info data : Word) : (endCommand c info data s).platform = s.platform := rfl
@[simp] theorem endCommand_answers (c : ErrCode) (info data : Word) : (endCommand c info data s).answers = s.answers := rfl
@[simp] theorem endCommand_pending (c : ErrCode) (info data : Word) : (endCommand c info data s).pending = s.pending := rfl
@[simp] theorem endCommand_touched (c : ErrCode) (info data : Word) : (endCommand c info data s).touched = [] := rfl
@[simp] theorem endCommand_landed (c : ErrCode) (info data : Word) : (endCommand c info data s).landed = [] := rfl
@[simp] theorem endCommand_memOld (c : ErrCode) (info data : Word) : (endCommand c info data s).memOld = [] := rfl
@[simp] theorem endCommand_dmaWritten (c : ErrCode) (info data : Word) : (endCommand c info data s).dmaWritten = s.dmaWritten := rfl
@[simp] theorem endCommand_hostResp (c : ErrCode) (info data : Word) : (endCommand c info data s).hostResp = s.hostResp := rfl
@[simp] theorem endCommand_agenda (c : ErrCode) (info data : Word) : (endCommand c info data s).agenda = s.agenda := rfl
@[simp] theorem endCommand_freeCount (c : ErrCode) (info data : Word) : (endCommand c info data s).freeCount = s.freeCount := rfl

/-! ### acknowledge -/

@[simp] theorem acknowledge_ie : (acknowledge s).ie = s.ie := rfl
@[simp] theorem acknowledge_abort : (acknowledge s).abort = s.abort := rfl
@[simp] theorem acknowledge_busy : (acknowledge s).busy = s.busy := rfl
@[simp] theorem acknowledge_done : (acknowledge s).done = false := rfl
@[simp] theorem acknowledge_err : (acknowledge s).err = s.err := rfl
@[simp] theorem acknowledge_wdrop : (acknowledge s).wdrop = s.wdrop := rfl
@[simp] theorem acknowledge_qmUnaligned : (acknowledge s).qmUnaligned = s.qmUnaligned := rfl
@[simp] theorem acknowledge_errcode : (acknowledge s).errcode = s.errcode := rfl
@[simp] theorem acknowledge_lastcmd : (acknowledge s).lastcmd = s.lastcmd := rfl
@[simp] theorem acknowledge_log2n : (acknowledge s).log2n = s.log2n := rfl
@[simp] theorem acknowledge_dim : (acknowledge s).dim = s.dim := rfl
@[simp] theorem acknowledge_dim2 : (acknowledge s).dim2 = s.dim2 := rfl
@[simp] theorem acknowledge_src : (acknowledge s).src = s.src := rfl
@[simp] theorem acknowledge_src2 : (acknowledge s).src2 = s.src2 := rfl
@[simp] theorem acknowledge_dst : (acknowledge s).dst = s.dst := rfl
@[simp] theorem acknowledge_tol : (acknowledge s).tol = s.tol := rfl
@[simp] theorem acknowledge_rptExceed : (acknowledge s).rptExceed = s.rptExceed := rfl
@[simp] theorem acknowledge_rptTotal : (acknowledge s).rptTotal = s.rptTotal := rfl
@[simp] theorem acknowledge_rptMaxerr : (acknowledge s).rptMaxerr = s.rptMaxerr := rfl
@[simp] theorem acknowledge_rptPassed : (acknowledge s).rptPassed = s.rptPassed := rfl
@[simp] theorem acknowledge_errinfo : (acknowledge s).errinfo = s.errinfo := rfl
@[simp] theorem acknowledge_errdata : (acknowledge s).errdata = s.errdata := rfl
@[simp] theorem acknowledge_qm : (acknowledge s).qm = s.qm := rfl
@[simp] theorem acknowledge_phase : (acknowledge s).phase = s.phase := rfl
@[simp] theorem acknowledge_unit : (acknowledge s).unit = s.unit := rfl
@[simp] theorem acknowledge_accExceed : (acknowledge s).accExceed = s.accExceed := rfl
@[simp] theorem acknowledge_accMax : (acknowledge s).accMax = s.accMax := rfl
@[simp] theorem acknowledge_wait : (acknowledge s).wait = s.wait := rfl
@[simp] theorem acknowledge_mem : (acknowledge s).mem = s.mem := rfl
@[simp] theorem acknowledge_platform : (acknowledge s).platform = s.platform := rfl
@[simp] theorem acknowledge_answers : (acknowledge s).answers = s.answers := rfl
@[simp] theorem acknowledge_pending : (acknowledge s).pending = s.pending := rfl
@[simp] theorem acknowledge_touched : (acknowledge s).touched = s.touched := rfl
@[simp] theorem acknowledge_landed : (acknowledge s).landed = s.landed := rfl
@[simp] theorem acknowledge_memOld : (acknowledge s).memOld = s.memOld := rfl
@[simp] theorem acknowledge_dmaWritten : (acknowledge s).dmaWritten = s.dmaWritten := rfl
@[simp] theorem acknowledge_hostResp : (acknowledge s).hostResp = s.hostResp := rfl
@[simp] theorem acknowledge_agenda : (acknowledge s).agenda = s.agenda := rfl
@[simp] theorem acknowledge_freeCount : (acknowledge s).freeCount = s.freeCount := rfl

/-! ### qmSet -/

@[simp] theorem qmSet_ie (k : Fin 256) (w : Word) : (s.qmSet k w).ie = s.ie := rfl
@[simp] theorem qmSet_abort (k : Fin 256) (w : Word) : (s.qmSet k w).abort = s.abort := rfl
@[simp] theorem qmSet_busy (k : Fin 256) (w : Word) : (s.qmSet k w).busy = s.busy := rfl
@[simp] theorem qmSet_done (k : Fin 256) (w : Word) : (s.qmSet k w).done = s.done := rfl
@[simp] theorem qmSet_err (k : Fin 256) (w : Word) : (s.qmSet k w).err = s.err := rfl
@[simp] theorem qmSet_wdrop (k : Fin 256) (w : Word) : (s.qmSet k w).wdrop = s.wdrop := rfl
@[simp] theorem qmSet_qmUnaligned (k : Fin 256) (w : Word) : (s.qmSet k w).qmUnaligned = s.qmUnaligned := rfl
@[simp] theorem qmSet_errcode (k : Fin 256) (w : Word) : (s.qmSet k w).errcode = s.errcode := rfl
@[simp] theorem qmSet_lastcmd (k : Fin 256) (w : Word) : (s.qmSet k w).lastcmd = s.lastcmd := rfl
@[simp] theorem qmSet_log2n (k : Fin 256) (w : Word) : (s.qmSet k w).log2n = s.log2n := rfl
@[simp] theorem qmSet_dim (k : Fin 256) (w : Word) : (s.qmSet k w).dim = s.dim := rfl
@[simp] theorem qmSet_dim2 (k : Fin 256) (w : Word) : (s.qmSet k w).dim2 = s.dim2 := rfl
@[simp] theorem qmSet_src (k : Fin 256) (w : Word) : (s.qmSet k w).src = s.src := rfl
@[simp] theorem qmSet_src2 (k : Fin 256) (w : Word) : (s.qmSet k w).src2 = s.src2 := rfl
@[simp] theorem qmSet_dst (k : Fin 256) (w : Word) : (s.qmSet k w).dst = s.dst := rfl
@[simp] theorem qmSet_tol (k : Fin 256) (w : Word) : (s.qmSet k w).tol = s.tol := rfl
@[simp] theorem qmSet_rptExceed (k : Fin 256) (w : Word) : (s.qmSet k w).rptExceed = s.rptExceed := rfl
@[simp] theorem qmSet_rptTotal (k : Fin 256) (w : Word) : (s.qmSet k w).rptTotal = s.rptTotal := rfl
@[simp] theorem qmSet_rptMaxerr (k : Fin 256) (w : Word) : (s.qmSet k w).rptMaxerr = s.rptMaxerr := rfl
@[simp] theorem qmSet_rptPassed (k : Fin 256) (w : Word) : (s.qmSet k w).rptPassed = s.rptPassed := rfl
@[simp] theorem qmSet_errinfo (k : Fin 256) (w : Word) : (s.qmSet k w).errinfo = s.errinfo := rfl
@[simp] theorem qmSet_errdata (k : Fin 256) (w : Word) : (s.qmSet k w).errdata = s.errdata := rfl
@[simp] theorem qmSet_qm (k : Fin 256) (w : Word) : (s.qmSet k w).qm = s.qm.set k.val w k.isLt := rfl
@[simp] theorem qmSet_phase (k : Fin 256) (w : Word) : (s.qmSet k w).phase = s.phase := rfl
@[simp] theorem qmSet_unit (k : Fin 256) (w : Word) : (s.qmSet k w).unit = s.unit := rfl
@[simp] theorem qmSet_accExceed (k : Fin 256) (w : Word) : (s.qmSet k w).accExceed = s.accExceed := rfl
@[simp] theorem qmSet_accMax (k : Fin 256) (w : Word) : (s.qmSet k w).accMax = s.accMax := rfl
@[simp] theorem qmSet_wait (k : Fin 256) (w : Word) : (s.qmSet k w).wait = s.wait := rfl
@[simp] theorem qmSet_mem (k : Fin 256) (w : Word) : (s.qmSet k w).mem = s.mem := rfl
@[simp] theorem qmSet_platform (k : Fin 256) (w : Word) : (s.qmSet k w).platform = s.platform := rfl
@[simp] theorem qmSet_answers (k : Fin 256) (w : Word) : (s.qmSet k w).answers = s.answers := rfl
@[simp] theorem qmSet_pending (k : Fin 256) (w : Word) : (s.qmSet k w).pending = s.pending := rfl
@[simp] theorem qmSet_touched (k : Fin 256) (w : Word) : (s.qmSet k w).touched = s.touched := rfl
@[simp] theorem qmSet_landed (k : Fin 256) (w : Word) : (s.qmSet k w).landed = s.landed := rfl
@[simp] theorem qmSet_memOld (k : Fin 256) (w : Word) : (s.qmSet k w).memOld = s.memOld := rfl
@[simp] theorem qmSet_dmaWritten (k : Fin 256) (w : Word) : (s.qmSet k w).dmaWritten = s.dmaWritten := rfl
@[simp] theorem qmSet_hostResp (k : Fin 256) (w : Word) : (s.qmSet k w).hostResp = s.hostResp := rfl
@[simp] theorem qmSet_agenda (k : Fin 256) (w : Word) : (s.qmSet k w).agenda = s.agenda := rfl
@[simp] theorem qmSet_freeCount (k : Fin 256) (w : Word) : (s.qmSet k w).freeCount = s.freeCount := rfl

/-! ### waitForRead -/

@[simp] theorem waitForRead_ie (i : Instr) (x : Access) : (waitForRead i x s).ie = s.ie := rfl
@[simp] theorem waitForRead_abort (i : Instr) (x : Access) : (waitForRead i x s).abort = s.abort := rfl
@[simp] theorem waitForRead_busy (i : Instr) (x : Access) : (waitForRead i x s).busy = s.busy := rfl
@[simp] theorem waitForRead_done (i : Instr) (x : Access) : (waitForRead i x s).done = s.done := rfl
@[simp] theorem waitForRead_err (i : Instr) (x : Access) : (waitForRead i x s).err = s.err := rfl
@[simp] theorem waitForRead_wdrop (i : Instr) (x : Access) : (waitForRead i x s).wdrop = s.wdrop := rfl
@[simp] theorem waitForRead_qmUnaligned (i : Instr) (x : Access) : (waitForRead i x s).qmUnaligned = s.qmUnaligned := rfl
@[simp] theorem waitForRead_errcode (i : Instr) (x : Access) : (waitForRead i x s).errcode = s.errcode := rfl
@[simp] theorem waitForRead_lastcmd (i : Instr) (x : Access) : (waitForRead i x s).lastcmd = s.lastcmd := rfl
@[simp] theorem waitForRead_log2n (i : Instr) (x : Access) : (waitForRead i x s).log2n = s.log2n := rfl
@[simp] theorem waitForRead_dim (i : Instr) (x : Access) : (waitForRead i x s).dim = s.dim := rfl
@[simp] theorem waitForRead_dim2 (i : Instr) (x : Access) : (waitForRead i x s).dim2 = s.dim2 := rfl
@[simp] theorem waitForRead_src (i : Instr) (x : Access) : (waitForRead i x s).src = s.src := rfl
@[simp] theorem waitForRead_src2 (i : Instr) (x : Access) : (waitForRead i x s).src2 = s.src2 := rfl
@[simp] theorem waitForRead_dst (i : Instr) (x : Access) : (waitForRead i x s).dst = s.dst := rfl
@[simp] theorem waitForRead_tol (i : Instr) (x : Access) : (waitForRead i x s).tol = s.tol := rfl
@[simp] theorem waitForRead_rptExceed (i : Instr) (x : Access) : (waitForRead i x s).rptExceed = s.rptExceed := rfl
@[simp] theorem waitForRead_rptTotal (i : Instr) (x : Access) : (waitForRead i x s).rptTotal = s.rptTotal := rfl
@[simp] theorem waitForRead_rptMaxerr (i : Instr) (x : Access) : (waitForRead i x s).rptMaxerr = s.rptMaxerr := rfl
@[simp] theorem waitForRead_rptPassed (i : Instr) (x : Access) : (waitForRead i x s).rptPassed = s.rptPassed := rfl
@[simp] theorem waitForRead_errinfo (i : Instr) (x : Access) : (waitForRead i x s).errinfo = s.errinfo := rfl
@[simp] theorem waitForRead_errdata (i : Instr) (x : Access) : (waitForRead i x s).errdata = s.errdata := rfl
@[simp] theorem waitForRead_qm (i : Instr) (x : Access) : (waitForRead i x s).qm = s.qm := rfl
@[simp] theorem waitForRead_phase (i : Instr) (x : Access) : (waitForRead i x s).phase = s.phase := rfl
@[simp] theorem waitForRead_unit (i : Instr) (x : Access) : (waitForRead i x s).unit = s.unit := rfl
@[simp] theorem waitForRead_accExceed (i : Instr) (x : Access) : (waitForRead i x s).accExceed = s.accExceed := rfl
@[simp] theorem waitForRead_accMax (i : Instr) (x : Access) : (waitForRead i x s).accMax = s.accMax := rfl
@[simp] theorem waitForRead_wait (i : Instr) (x : Access) : (waitForRead i x s).wait = some ⟨s.waited.reads ++ s.fetch (s.answeredNow false (openReads i s)), s.waited.acks,
      s.askedNow false x (openReads i s)⟩ := rfl
@[simp] theorem waitForRead_mem (i : Instr) (x : Access) : (waitForRead i x s).mem = s.mem := rfl
@[simp] theorem waitForRead_platform (i : Instr) (x : Access) : (waitForRead i x s).platform = s.platform := rfl
@[simp] theorem waitForRead_answers (i : Instr) (x : Access) : (waitForRead i x s).answers = s.answers := rfl
@[simp] theorem waitForRead_pending (i : Instr) (x : Access) : (waitForRead i x s).pending = s.pending := rfl
@[simp] theorem waitForRead_touched (i : Instr) (x : Access) : (waitForRead i x s).touched = s.touched := rfl
@[simp] theorem waitForRead_landed (i : Instr) (x : Access) : (waitForRead i x s).landed = s.landed := rfl
@[simp] theorem waitForRead_memOld (i : Instr) (x : Access) : (waitForRead i x s).memOld = s.memOld := rfl
@[simp] theorem waitForRead_dmaWritten (i : Instr) (x : Access) : (waitForRead i x s).dmaWritten = s.dmaWritten := rfl
@[simp] theorem waitForRead_hostResp (i : Instr) (x : Access) : (waitForRead i x s).hostResp = s.hostResp := rfl
@[simp] theorem waitForRead_agenda (i : Instr) (x : Access) : (waitForRead i x s).agenda = s.agenda := rfl
@[simp] theorem waitForRead_freeCount (i : Instr) (x : Access) : (waitForRead i x s).freeCount = s.freeCount := rfl

/-! ### waitForWrite -/

@[simp] theorem waitForWrite_ie (i : Instr) (x : Access) : (waitForWrite i x s).ie = s.ie := rfl
@[simp] theorem waitForWrite_abort (i : Instr) (x : Access) : (waitForWrite i x s).abort = s.abort := rfl
@[simp] theorem waitForWrite_busy (i : Instr) (x : Access) : (waitForWrite i x s).busy = s.busy := rfl
@[simp] theorem waitForWrite_done (i : Instr) (x : Access) : (waitForWrite i x s).done = s.done := rfl
@[simp] theorem waitForWrite_err (i : Instr) (x : Access) : (waitForWrite i x s).err = s.err := rfl
@[simp] theorem waitForWrite_wdrop (i : Instr) (x : Access) : (waitForWrite i x s).wdrop = s.wdrop := rfl
@[simp] theorem waitForWrite_qmUnaligned (i : Instr) (x : Access) : (waitForWrite i x s).qmUnaligned = s.qmUnaligned := rfl
@[simp] theorem waitForWrite_errcode (i : Instr) (x : Access) : (waitForWrite i x s).errcode = s.errcode := rfl
@[simp] theorem waitForWrite_lastcmd (i : Instr) (x : Access) : (waitForWrite i x s).lastcmd = s.lastcmd := rfl
@[simp] theorem waitForWrite_log2n (i : Instr) (x : Access) : (waitForWrite i x s).log2n = s.log2n := rfl
@[simp] theorem waitForWrite_dim (i : Instr) (x : Access) : (waitForWrite i x s).dim = s.dim := rfl
@[simp] theorem waitForWrite_dim2 (i : Instr) (x : Access) : (waitForWrite i x s).dim2 = s.dim2 := rfl
@[simp] theorem waitForWrite_src (i : Instr) (x : Access) : (waitForWrite i x s).src = s.src := rfl
@[simp] theorem waitForWrite_src2 (i : Instr) (x : Access) : (waitForWrite i x s).src2 = s.src2 := rfl
@[simp] theorem waitForWrite_dst (i : Instr) (x : Access) : (waitForWrite i x s).dst = s.dst := rfl
@[simp] theorem waitForWrite_tol (i : Instr) (x : Access) : (waitForWrite i x s).tol = s.tol := rfl
@[simp] theorem waitForWrite_rptExceed (i : Instr) (x : Access) : (waitForWrite i x s).rptExceed = s.rptExceed := rfl
@[simp] theorem waitForWrite_rptTotal (i : Instr) (x : Access) : (waitForWrite i x s).rptTotal = s.rptTotal := rfl
@[simp] theorem waitForWrite_rptMaxerr (i : Instr) (x : Access) : (waitForWrite i x s).rptMaxerr = s.rptMaxerr := rfl
@[simp] theorem waitForWrite_rptPassed (i : Instr) (x : Access) : (waitForWrite i x s).rptPassed = s.rptPassed := rfl
@[simp] theorem waitForWrite_errinfo (i : Instr) (x : Access) : (waitForWrite i x s).errinfo = s.errinfo := rfl
@[simp] theorem waitForWrite_errdata (i : Instr) (x : Access) : (waitForWrite i x s).errdata = s.errdata := rfl
@[simp] theorem waitForWrite_qm (i : Instr) (x : Access) : (waitForWrite i x s).qm = s.qm := rfl
@[simp] theorem waitForWrite_phase (i : Instr) (x : Access) : (waitForWrite i x s).phase = s.phase := rfl
@[simp] theorem waitForWrite_unit (i : Instr) (x : Access) : (waitForWrite i x s).unit = s.unit := rfl
@[simp] theorem waitForWrite_accExceed (i : Instr) (x : Access) : (waitForWrite i x s).accExceed = s.accExceed := rfl
@[simp] theorem waitForWrite_accMax (i : Instr) (x : Access) : (waitForWrite i x s).accMax = s.accMax := rfl
@[simp] theorem waitForWrite_wait (i : Instr) (x : Access) : (waitForWrite i x s).wait = some ⟨s.waited.reads ++ s.fetch (openReads i s),
      s.waited.acks ++ s.answeredNow true (openWrites i s), s.askedNow true x (openWrites i s)⟩ := rfl
@[simp] theorem waitForWrite_mem (i : Instr) (x : Access) : (waitForWrite i x s).mem = s.mem := rfl
@[simp] theorem waitForWrite_platform (i : Instr) (x : Access) : (waitForWrite i x s).platform = s.platform := rfl
@[simp] theorem waitForWrite_answers (i : Instr) (x : Access) : (waitForWrite i x s).answers = s.answers := rfl
@[simp] theorem waitForWrite_pending (i : Instr) (x : Access) : (waitForWrite i x s).pending = s.pending := rfl
@[simp] theorem waitForWrite_touched (i : Instr) (x : Access) : (waitForWrite i x s).touched = s.touched := rfl
@[simp] theorem waitForWrite_landed (i : Instr) (x : Access) : (waitForWrite i x s).landed = s.landed := rfl
@[simp] theorem waitForWrite_memOld (i : Instr) (x : Access) : (waitForWrite i x s).memOld = s.memOld := rfl
@[simp] theorem waitForWrite_dmaWritten (i : Instr) (x : Access) : (waitForWrite i x s).dmaWritten = s.dmaWritten := rfl
@[simp] theorem waitForWrite_hostResp (i : Instr) (x : Access) : (waitForWrite i x s).hostResp = s.hostResp := rfl
@[simp] theorem waitForWrite_agenda (i : Instr) (x : Access) : (waitForWrite i x s).agenda = s.agenda := rfl
@[simp] theorem waitForWrite_freeCount (i : Instr) (x : Access) : (waitForWrite i x s).freeCount = s.freeCount := rfl

/-! ### applyUnit -/

@[simp] theorem applyUnit_ie (w : UnitWork) : (applyUnit w s).ie = s.ie := rfl
@[simp] theorem applyUnit_abort (w : UnitWork) : (applyUnit w s).abort = s.abort := rfl
@[simp] theorem applyUnit_busy (w : UnitWork) : (applyUnit w s).busy = s.busy := rfl
@[simp] theorem applyUnit_done (w : UnitWork) : (applyUnit w s).done = s.done := rfl
@[simp] theorem applyUnit_err (w : UnitWork) : (applyUnit w s).err = s.err := rfl
@[simp] theorem applyUnit_wdrop (w : UnitWork) : (applyUnit w s).wdrop = s.wdrop := rfl
@[simp] theorem applyUnit_qmUnaligned (w : UnitWork) : (applyUnit w s).qmUnaligned = s.qmUnaligned := rfl
@[simp] theorem applyUnit_errcode (w : UnitWork) : (applyUnit w s).errcode = s.errcode := rfl
@[simp] theorem applyUnit_lastcmd (w : UnitWork) : (applyUnit w s).lastcmd = s.lastcmd := rfl
@[simp] theorem applyUnit_log2n (w : UnitWork) : (applyUnit w s).log2n = s.log2n := rfl
@[simp] theorem applyUnit_dim (w : UnitWork) : (applyUnit w s).dim = s.dim := rfl
@[simp] theorem applyUnit_dim2 (w : UnitWork) : (applyUnit w s).dim2 = s.dim2 := rfl
@[simp] theorem applyUnit_src (w : UnitWork) : (applyUnit w s).src = s.src := rfl
@[simp] theorem applyUnit_src2 (w : UnitWork) : (applyUnit w s).src2 = s.src2 := rfl
@[simp] theorem applyUnit_dst (w : UnitWork) : (applyUnit w s).dst = s.dst := rfl
@[simp] theorem applyUnit_tol (w : UnitWork) : (applyUnit w s).tol = s.tol := rfl
@[simp] theorem applyUnit_rptExceed (w : UnitWork) : (applyUnit w s).rptExceed = s.rptExceed := rfl
@[simp] theorem applyUnit_rptTotal (w : UnitWork) : (applyUnit w s).rptTotal = s.rptTotal := rfl
@[simp] theorem applyUnit_rptMaxerr (w : UnitWork) : (applyUnit w s).rptMaxerr = s.rptMaxerr := rfl
@[simp] theorem applyUnit_rptPassed (w : UnitWork) : (applyUnit w s).rptPassed = s.rptPassed := rfl
@[simp] theorem applyUnit_errinfo (w : UnitWork) : (applyUnit w s).errinfo = s.errinfo := rfl
@[simp] theorem applyUnit_errdata (w : UnitWork) : (applyUnit w s).errdata = s.errdata := rfl
@[simp] theorem applyUnit_qm (w : UnitWork) : (applyUnit w s).qm = s.qm := rfl
@[simp] theorem applyUnit_phase (w : UnitWork) : (applyUnit w s).phase = s.phase := rfl
@[simp] theorem applyUnit_unit (w : UnitWork) : (applyUnit w s).unit = s.unit + 1 := rfl
@[simp] theorem applyUnit_accExceed (w : UnitWork) : (applyUnit w s).accExceed = w.accExceed := rfl
@[simp] theorem applyUnit_accMax (w : UnitWork) : (applyUnit w s).accMax = w.accMax := rfl
@[simp] theorem applyUnit_wait (w : UnitWork) : (applyUnit w s).wait = none := rfl
@[simp] theorem applyUnit_mem (w : UnitWork) : (applyUnit w s).mem = writeElems s.mem w.writes := rfl
@[simp] theorem applyUnit_platform (w : UnitWork) : (applyUnit w s).platform = s.platform := rfl
@[simp] theorem applyUnit_answers (w : UnitWork) : (applyUnit w s).answers = s.answers := rfl
@[simp] theorem applyUnit_pending (w : UnitWork) : (applyUnit w s).pending = s.pending := rfl
@[simp] theorem applyUnit_touched (w : UnitWork) : (applyUnit w s).touched = s.touched := rfl
@[simp] theorem applyUnit_landed (w : UnitWork) : (applyUnit w s).landed = s.landed := rfl
@[simp] theorem applyUnit_memOld (w : UnitWork) : (applyUnit w s).memOld = s.memOld := rfl
@[simp] theorem applyUnit_dmaWritten (w : UnitWork) : (applyUnit w s).dmaWritten = s.dmaWritten := rfl
@[simp] theorem applyUnit_hostResp (w : UnitWork) : (applyUnit w s).hostResp = s.hostResp := rfl
@[simp] theorem applyUnit_agenda (w : UnitWork) : (applyUnit w s).agenda = s.agenda := rfl
@[simp] theorem applyUnit_freeCount (w : UnitWork) : (applyUnit w s).freeCount = s.freeCount := rfl

/-! ### respond -/

@[simp] theorem respond_ie (r : Response) : (respond r s).ie = s.ie := rfl
@[simp] theorem respond_abort (r : Response) : (respond r s).abort = s.abort := rfl
@[simp] theorem respond_busy (r : Response) : (respond r s).busy = s.busy := rfl
@[simp] theorem respond_done (r : Response) : (respond r s).done = s.done := rfl
@[simp] theorem respond_err (r : Response) : (respond r s).err = s.err := rfl
@[simp] theorem respond_wdrop (r : Response) : (respond r s).wdrop = s.wdrop := rfl
@[simp] theorem respond_qmUnaligned (r : Response) : (respond r s).qmUnaligned = s.qmUnaligned := rfl
@[simp] theorem respond_errcode (r : Response) : (respond r s).errcode = s.errcode := rfl
@[simp] theorem respond_lastcmd (r : Response) : (respond r s).lastcmd = s.lastcmd := rfl
@[simp] theorem respond_log2n (r : Response) : (respond r s).log2n = s.log2n := rfl
@[simp] theorem respond_dim (r : Response) : (respond r s).dim = s.dim := rfl
@[simp] theorem respond_dim2 (r : Response) : (respond r s).dim2 = s.dim2 := rfl
@[simp] theorem respond_src (r : Response) : (respond r s).src = s.src := rfl
@[simp] theorem respond_src2 (r : Response) : (respond r s).src2 = s.src2 := rfl
@[simp] theorem respond_dst (r : Response) : (respond r s).dst = s.dst := rfl
@[simp] theorem respond_tol (r : Response) : (respond r s).tol = s.tol := rfl
@[simp] theorem respond_rptExceed (r : Response) : (respond r s).rptExceed = s.rptExceed := rfl
@[simp] theorem respond_rptTotal (r : Response) : (respond r s).rptTotal = s.rptTotal := rfl
@[simp] theorem respond_rptMaxerr (r : Response) : (respond r s).rptMaxerr = s.rptMaxerr := rfl
@[simp] theorem respond_rptPassed (r : Response) : (respond r s).rptPassed = s.rptPassed := rfl
@[simp] theorem respond_errinfo (r : Response) : (respond r s).errinfo = s.errinfo := rfl
@[simp] theorem respond_errdata (r : Response) : (respond r s).errdata = s.errdata := rfl
@[simp] theorem respond_qm (r : Response) : (respond r s).qm = s.qm := rfl
@[simp] theorem respond_phase (r : Response) : (respond r s).phase = s.phase := rfl
@[simp] theorem respond_unit (r : Response) : (respond r s).unit = s.unit := rfl
@[simp] theorem respond_accExceed (r : Response) : (respond r s).accExceed = s.accExceed := rfl
@[simp] theorem respond_accMax (r : Response) : (respond r s).accMax = s.accMax := rfl
@[simp] theorem respond_wait (r : Response) : (respond r s).wait = s.wait := rfl
@[simp] theorem respond_mem (r : Response) : (respond r s).mem = s.mem := rfl
@[simp] theorem respond_platform (r : Response) : (respond r s).platform = s.platform := rfl
@[simp] theorem respond_answers (r : Response) : (respond r s).answers = s.answers := rfl
@[simp] theorem respond_pending (r : Response) : (respond r s).pending = s.pending := rfl
@[simp] theorem respond_touched (r : Response) : (respond r s).touched = s.touched := rfl
@[simp] theorem respond_landed (r : Response) : (respond r s).landed = s.landed := rfl
@[simp] theorem respond_memOld (r : Response) : (respond r s).memOld = s.memOld := rfl
@[simp] theorem respond_dmaWritten (r : Response) : (respond r s).dmaWritten = s.dmaWritten := rfl
@[simp] theorem respond_hostResp (r : Response) : (respond r s).hostResp = some r := rfl
@[simp] theorem respond_agenda (r : Response) : (respond r s).agenda = s.agenda := rfl
@[simp] theorem respond_freeCount (r : Response) : (respond r s).freeCount = s.freeCount := rfl

/-! ### writeCtrl -/

@[simp] theorem writeCtrl_ie (w : Word) : (writeCtrl w s).ie = w.getLsbD 0 := rfl
@[simp] theorem writeCtrl_abort (w : Word) : (writeCtrl w s).abort = if w.getLsbD 1 = true ∧ s.busy = true then true else s.abort := rfl
@[simp] theorem writeCtrl_busy (w : Word) : (writeCtrl w s).busy = s.busy := rfl
@[simp] theorem writeCtrl_done (w : Word) : (writeCtrl w s).done = s.done := rfl
@[simp] theorem writeCtrl_err (w : Word) : (writeCtrl w s).err = s.err := rfl
@[simp] theorem writeCtrl_wdrop (w : Word) : (writeCtrl w s).wdrop = s.wdrop := rfl
@[simp] theorem writeCtrl_qmUnaligned (w : Word) : (writeCtrl w s).qmUnaligned = s.qmUnaligned := rfl
@[simp] theorem writeCtrl_errcode (w : Word) : (writeCtrl w s).errcode = s.errcode := rfl
@[simp] theorem writeCtrl_lastcmd (w : Word) : (writeCtrl w s).lastcmd = s.lastcmd := rfl
@[simp] theorem writeCtrl_log2n (w : Word) : (writeCtrl w s).log2n = s.log2n := rfl
@[simp] theorem writeCtrl_dim (w : Word) : (writeCtrl w s).dim = s.dim := rfl
@[simp] theorem writeCtrl_dim2 (w : Word) : (writeCtrl w s).dim2 = s.dim2 := rfl
@[simp] theorem writeCtrl_src (w : Word) : (writeCtrl w s).src = s.src := rfl
@[simp] theorem writeCtrl_src2 (w : Word) : (writeCtrl w s).src2 = s.src2 := rfl
@[simp] theorem writeCtrl_dst (w : Word) : (writeCtrl w s).dst = s.dst := rfl
@[simp] theorem writeCtrl_tol (w : Word) : (writeCtrl w s).tol = s.tol := rfl
@[simp] theorem writeCtrl_rptExceed (w : Word) : (writeCtrl w s).rptExceed = s.rptExceed := rfl
@[simp] theorem writeCtrl_rptTotal (w : Word) : (writeCtrl w s).rptTotal = s.rptTotal := rfl
@[simp] theorem writeCtrl_rptMaxerr (w : Word) : (writeCtrl w s).rptMaxerr = s.rptMaxerr := rfl
@[simp] theorem writeCtrl_rptPassed (w : Word) : (writeCtrl w s).rptPassed = s.rptPassed := rfl
@[simp] theorem writeCtrl_errinfo (w : Word) : (writeCtrl w s).errinfo = s.errinfo := rfl
@[simp] theorem writeCtrl_errdata (w : Word) : (writeCtrl w s).errdata = s.errdata := rfl
@[simp] theorem writeCtrl_qm (w : Word) : (writeCtrl w s).qm = s.qm := rfl
@[simp] theorem writeCtrl_phase (w : Word) : (writeCtrl w s).phase = s.phase := rfl
@[simp] theorem writeCtrl_unit (w : Word) : (writeCtrl w s).unit = s.unit := rfl
@[simp] theorem writeCtrl_accExceed (w : Word) : (writeCtrl w s).accExceed = s.accExceed := rfl
@[simp] theorem writeCtrl_accMax (w : Word) : (writeCtrl w s).accMax = s.accMax := rfl
@[simp] theorem writeCtrl_wait (w : Word) : (writeCtrl w s).wait = s.wait := rfl
@[simp] theorem writeCtrl_mem (w : Word) : (writeCtrl w s).mem = s.mem := rfl
@[simp] theorem writeCtrl_platform (w : Word) : (writeCtrl w s).platform = s.platform := rfl
@[simp] theorem writeCtrl_answers (w : Word) : (writeCtrl w s).answers = s.answers := rfl
@[simp] theorem writeCtrl_pending (w : Word) : (writeCtrl w s).pending = s.pending := rfl
@[simp] theorem writeCtrl_touched (w : Word) : (writeCtrl w s).touched = s.touched := rfl
@[simp] theorem writeCtrl_landed (w : Word) : (writeCtrl w s).landed = s.landed := rfl
@[simp] theorem writeCtrl_memOld (w : Word) : (writeCtrl w s).memOld = s.memOld := rfl
@[simp] theorem writeCtrl_dmaWritten (w : Word) : (writeCtrl w s).dmaWritten = s.dmaWritten := rfl
@[simp] theorem writeCtrl_hostResp (w : Word) : (writeCtrl w s).hostResp = s.hostResp := rfl
@[simp] theorem writeCtrl_agenda (w : Word) : (writeCtrl w s).agenda = s.agenda := rfl
@[simp] theorem writeCtrl_freeCount (w : Word) : (writeCtrl w s).freeCount = s.freeCount := rfl

/-! ### clearWdrop -/

@[simp] theorem clearWdrop_ie (w : Word) : (clearWdrop w s).ie = s.ie := rfl
@[simp] theorem clearWdrop_abort (w : Word) : (clearWdrop w s).abort = s.abort := rfl
@[simp] theorem clearWdrop_busy (w : Word) : (clearWdrop w s).busy = s.busy := rfl
@[simp] theorem clearWdrop_done (w : Word) : (clearWdrop w s).done = s.done := rfl
@[simp] theorem clearWdrop_err (w : Word) : (clearWdrop w s).err = s.err := rfl
@[simp] theorem clearWdrop_wdrop (w : Word) : (clearWdrop w s).wdrop = (s.wdrop && !w.getLsbD 3) := rfl
@[simp] theorem clearWdrop_qmUnaligned (w : Word) : (clearWdrop w s).qmUnaligned = s.qmUnaligned := rfl
@[simp] theorem clearWdrop_errcode (w : Word) : (clearWdrop w s).errcode = s.errcode := rfl
@[simp] theorem clearWdrop_lastcmd (w : Word) : (clearWdrop w s).lastcmd = s.lastcmd := rfl
@[simp] theorem clearWdrop_log2n (w : Word) : (clearWdrop w s).log2n = s.log2n := rfl
@[simp] theorem clearWdrop_dim (w : Word) : (clearWdrop w s).dim = s.dim := rfl
@[simp] theorem clearWdrop_dim2 (w : Word) : (clearWdrop w s).dim2 = s.dim2 := rfl
@[simp] theorem clearWdrop_src (w : Word) : (clearWdrop w s).src = s.src := rfl
@[simp] theorem clearWdrop_src2 (w : Word) : (clearWdrop w s).src2 = s.src2 := rfl
@[simp] theorem clearWdrop_dst (w : Word) : (clearWdrop w s).dst = s.dst := rfl
@[simp] theorem clearWdrop_tol (w : Word) : (clearWdrop w s).tol = s.tol := rfl
@[simp] theorem clearWdrop_rptExceed (w : Word) : (clearWdrop w s).rptExceed = s.rptExceed := rfl
@[simp] theorem clearWdrop_rptTotal (w : Word) : (clearWdrop w s).rptTotal = s.rptTotal := rfl
@[simp] theorem clearWdrop_rptMaxerr (w : Word) : (clearWdrop w s).rptMaxerr = s.rptMaxerr := rfl
@[simp] theorem clearWdrop_rptPassed (w : Word) : (clearWdrop w s).rptPassed = s.rptPassed := rfl
@[simp] theorem clearWdrop_errinfo (w : Word) : (clearWdrop w s).errinfo = s.errinfo := rfl
@[simp] theorem clearWdrop_errdata (w : Word) : (clearWdrop w s).errdata = s.errdata := rfl
@[simp] theorem clearWdrop_qm (w : Word) : (clearWdrop w s).qm = s.qm := rfl
@[simp] theorem clearWdrop_phase (w : Word) : (clearWdrop w s).phase = s.phase := rfl
@[simp] theorem clearWdrop_unit (w : Word) : (clearWdrop w s).unit = s.unit := rfl
@[simp] theorem clearWdrop_accExceed (w : Word) : (clearWdrop w s).accExceed = s.accExceed := rfl
@[simp] theorem clearWdrop_accMax (w : Word) : (clearWdrop w s).accMax = s.accMax := rfl
@[simp] theorem clearWdrop_wait (w : Word) : (clearWdrop w s).wait = s.wait := rfl
@[simp] theorem clearWdrop_mem (w : Word) : (clearWdrop w s).mem = s.mem := rfl
@[simp] theorem clearWdrop_platform (w : Word) : (clearWdrop w s).platform = s.platform := rfl
@[simp] theorem clearWdrop_answers (w : Word) : (clearWdrop w s).answers = s.answers := rfl
@[simp] theorem clearWdrop_pending (w : Word) : (clearWdrop w s).pending = s.pending := rfl
@[simp] theorem clearWdrop_touched (w : Word) : (clearWdrop w s).touched = s.touched := rfl
@[simp] theorem clearWdrop_landed (w : Word) : (clearWdrop w s).landed = s.landed := rfl
@[simp] theorem clearWdrop_memOld (w : Word) : (clearWdrop w s).memOld = s.memOld := rfl
@[simp] theorem clearWdrop_dmaWritten (w : Word) : (clearWdrop w s).dmaWritten = s.dmaWritten := rfl
@[simp] theorem clearWdrop_hostResp (w : Word) : (clearWdrop w s).hostResp = s.hostResp := rfl
@[simp] theorem clearWdrop_agenda (w : Word) : (clearWdrop w s).agenda = s.agenda := rfl
@[simp] theorem clearWdrop_freeCount (w : Word) : (clearWdrop w s).freeCount = s.freeCount := rfl

/-! ### qmbuildFinish -/

@[simp] theorem qmbuildFinish_ie : (qmbuildFinish s).ie = s.ie := rfl
@[simp] theorem qmbuildFinish_abort : (qmbuildFinish s).abort = s.abort := rfl
@[simp] theorem qmbuildFinish_busy : (qmbuildFinish s).busy = s.busy := rfl
@[simp] theorem qmbuildFinish_done : (qmbuildFinish s).done = s.done := rfl
@[simp] theorem qmbuildFinish_err : (qmbuildFinish s).err = s.err := rfl
@[simp] theorem qmbuildFinish_wdrop : (qmbuildFinish s).wdrop = s.wdrop := rfl
@[simp] theorem qmbuildFinish_qmUnaligned : (qmbuildFinish s).qmUnaligned = qmUnalignedFlag s := rfl
@[simp] theorem qmbuildFinish_errcode : (qmbuildFinish s).errcode = s.errcode := rfl
@[simp] theorem qmbuildFinish_lastcmd : (qmbuildFinish s).lastcmd = s.lastcmd := rfl
@[simp] theorem qmbuildFinish_log2n : (qmbuildFinish s).log2n = s.log2n := rfl
@[simp] theorem qmbuildFinish_dim : (qmbuildFinish s).dim = s.dim := rfl
@[simp] theorem qmbuildFinish_dim2 : (qmbuildFinish s).dim2 = s.dim2 := rfl
@[simp] theorem qmbuildFinish_src : (qmbuildFinish s).src = s.src := rfl
@[simp] theorem qmbuildFinish_src2 : (qmbuildFinish s).src2 = s.src2 := rfl
@[simp] theorem qmbuildFinish_dst : (qmbuildFinish s).dst = s.dst := rfl
@[simp] theorem qmbuildFinish_tol : (qmbuildFinish s).tol = s.tol := rfl
@[simp] theorem qmbuildFinish_rptExceed : (qmbuildFinish s).rptExceed = s.rptExceed := rfl
@[simp] theorem qmbuildFinish_rptTotal : (qmbuildFinish s).rptTotal = s.rptTotal := rfl
@[simp] theorem qmbuildFinish_rptMaxerr : (qmbuildFinish s).rptMaxerr = s.rptMaxerr := rfl
@[simp] theorem qmbuildFinish_rptPassed : (qmbuildFinish s).rptPassed = s.rptPassed := rfl
@[simp] theorem qmbuildFinish_errinfo : (qmbuildFinish s).errinfo = s.errinfo := rfl
@[simp] theorem qmbuildFinish_errdata : (qmbuildFinish s).errdata = s.errdata := rfl
@[simp] theorem qmbuildFinish_qm : (qmbuildFinish s).qm = s.qm := rfl
@[simp] theorem qmbuildFinish_phase : (qmbuildFinish s).phase = s.phase := rfl
@[simp] theorem qmbuildFinish_unit : (qmbuildFinish s).unit = s.unit := rfl
@[simp] theorem qmbuildFinish_accExceed : (qmbuildFinish s).accExceed = s.accExceed := rfl
@[simp] theorem qmbuildFinish_accMax : (qmbuildFinish s).accMax = s.accMax := rfl
@[simp] theorem qmbuildFinish_wait : (qmbuildFinish s).wait = s.wait := rfl
@[simp] theorem qmbuildFinish_mem : (qmbuildFinish s).mem = s.mem := rfl
@[simp] theorem qmbuildFinish_platform : (qmbuildFinish s).platform = s.platform := rfl
@[simp] theorem qmbuildFinish_answers : (qmbuildFinish s).answers = s.answers := rfl
@[simp] theorem qmbuildFinish_pending : (qmbuildFinish s).pending = s.pending := rfl
@[simp] theorem qmbuildFinish_touched : (qmbuildFinish s).touched = s.touched := rfl
@[simp] theorem qmbuildFinish_landed : (qmbuildFinish s).landed = s.landed := rfl
@[simp] theorem qmbuildFinish_memOld : (qmbuildFinish s).memOld = s.memOld := rfl
@[simp] theorem qmbuildFinish_dmaWritten : (qmbuildFinish s).dmaWritten = s.dmaWritten := rfl
@[simp] theorem qmbuildFinish_hostResp : (qmbuildFinish s).hostResp = s.hostResp := rfl
@[simp] theorem qmbuildFinish_agenda : (qmbuildFinish s).agenda = s.agenda := rfl
@[simp] theorem qmbuildFinish_freeCount : (qmbuildFinish s).freeCount = s.freeCount := rfl

/-! ### verifyFinish -/

@[simp] theorem verifyFinish_ie : (verifyFinish s).ie = s.ie := rfl
@[simp] theorem verifyFinish_abort : (verifyFinish s).abort = s.abort := rfl
@[simp] theorem verifyFinish_busy : (verifyFinish s).busy = s.busy := rfl
@[simp] theorem verifyFinish_done : (verifyFinish s).done = s.done := rfl
@[simp] theorem verifyFinish_err : (verifyFinish s).err = s.err := rfl
@[simp] theorem verifyFinish_wdrop : (verifyFinish s).wdrop = s.wdrop := rfl
@[simp] theorem verifyFinish_qmUnaligned : (verifyFinish s).qmUnaligned = s.qmUnaligned := rfl
@[simp] theorem verifyFinish_errcode : (verifyFinish s).errcode = s.errcode := rfl
@[simp] theorem verifyFinish_lastcmd : (verifyFinish s).lastcmd = s.lastcmd := rfl
@[simp] theorem verifyFinish_log2n : (verifyFinish s).log2n = s.log2n := rfl
@[simp] theorem verifyFinish_dim : (verifyFinish s).dim = s.dim := rfl
@[simp] theorem verifyFinish_dim2 : (verifyFinish s).dim2 = s.dim2 := rfl
@[simp] theorem verifyFinish_src : (verifyFinish s).src = s.src := rfl
@[simp] theorem verifyFinish_src2 : (verifyFinish s).src2 = s.src2 := rfl
@[simp] theorem verifyFinish_dst : (verifyFinish s).dst = s.dst := rfl
@[simp] theorem verifyFinish_tol : (verifyFinish s).tol = s.tol := rfl
@[simp] theorem verifyFinish_rptExceed : (verifyFinish s).rptExceed = BitVec.ofNat 32 s.accExceed := rfl
@[simp] theorem verifyFinish_rptTotal : (verifyFinish s).rptTotal = BitVec.ofNat 32 (s.rows * s.cols) := rfl
@[simp] theorem verifyFinish_rptMaxerr : (verifyFinish s).rptMaxerr = BitVec.ofNat 32 s.accMax := rfl
@[simp] theorem verifyFinish_rptPassed : (verifyFinish s).rptPassed = passedFlag s.accExceed := rfl
@[simp] theorem verifyFinish_errinfo : (verifyFinish s).errinfo = s.errinfo := rfl
@[simp] theorem verifyFinish_errdata : (verifyFinish s).errdata = s.errdata := rfl
@[simp] theorem verifyFinish_qm : (verifyFinish s).qm = s.qm := rfl
@[simp] theorem verifyFinish_phase : (verifyFinish s).phase = s.phase := rfl
@[simp] theorem verifyFinish_unit : (verifyFinish s).unit = s.unit := rfl
@[simp] theorem verifyFinish_accExceed : (verifyFinish s).accExceed = s.accExceed := rfl
@[simp] theorem verifyFinish_accMax : (verifyFinish s).accMax = s.accMax := rfl
@[simp] theorem verifyFinish_wait : (verifyFinish s).wait = s.wait := rfl
@[simp] theorem verifyFinish_mem : (verifyFinish s).mem = s.mem := rfl
@[simp] theorem verifyFinish_platform : (verifyFinish s).platform = s.platform := rfl
@[simp] theorem verifyFinish_answers : (verifyFinish s).answers = s.answers := rfl
@[simp] theorem verifyFinish_pending : (verifyFinish s).pending = s.pending := rfl
@[simp] theorem verifyFinish_touched : (verifyFinish s).touched = s.touched := rfl
@[simp] theorem verifyFinish_landed : (verifyFinish s).landed = s.landed := rfl
@[simp] theorem verifyFinish_memOld : (verifyFinish s).memOld = s.memOld := rfl
@[simp] theorem verifyFinish_dmaWritten : (verifyFinish s).dmaWritten = s.dmaWritten := rfl
@[simp] theorem verifyFinish_hostResp : (verifyFinish s).hostResp = s.hostResp := rfl
@[simp] theorem verifyFinish_agenda : (verifyFinish s).agenda = s.agenda := rfl
@[simp] theorem verifyFinish_freeCount : (verifyFinish s).freeCount = s.freeCount := rfl

/-! ### noAction -/

@[simp] theorem noAction_ie : (noAction s).ie = s.ie := rfl
@[simp] theorem noAction_abort : (noAction s).abort = s.abort := rfl
@[simp] theorem noAction_busy : (noAction s).busy = s.busy := rfl
@[simp] theorem noAction_done : (noAction s).done = s.done := rfl
@[simp] theorem noAction_err : (noAction s).err = s.err := rfl
@[simp] theorem noAction_wdrop : (noAction s).wdrop = s.wdrop := rfl
@[simp] theorem noAction_qmUnaligned : (noAction s).qmUnaligned = s.qmUnaligned := rfl
@[simp] theorem noAction_errcode : (noAction s).errcode = s.errcode := rfl
@[simp] theorem noAction_lastcmd : (noAction s).lastcmd = s.lastcmd := rfl
@[simp] theorem noAction_log2n : (noAction s).log2n = s.log2n := rfl
@[simp] theorem noAction_dim : (noAction s).dim = s.dim := rfl
@[simp] theorem noAction_dim2 : (noAction s).dim2 = s.dim2 := rfl
@[simp] theorem noAction_src : (noAction s).src = s.src := rfl
@[simp] theorem noAction_src2 : (noAction s).src2 = s.src2 := rfl
@[simp] theorem noAction_dst : (noAction s).dst = s.dst := rfl
@[simp] theorem noAction_tol : (noAction s).tol = s.tol := rfl
@[simp] theorem noAction_rptExceed : (noAction s).rptExceed = s.rptExceed := rfl
@[simp] theorem noAction_rptTotal : (noAction s).rptTotal = s.rptTotal := rfl
@[simp] theorem noAction_rptMaxerr : (noAction s).rptMaxerr = s.rptMaxerr := rfl
@[simp] theorem noAction_rptPassed : (noAction s).rptPassed = s.rptPassed := rfl
@[simp] theorem noAction_errinfo : (noAction s).errinfo = s.errinfo := rfl
@[simp] theorem noAction_errdata : (noAction s).errdata = s.errdata := rfl
@[simp] theorem noAction_qm : (noAction s).qm = s.qm := rfl
@[simp] theorem noAction_phase : (noAction s).phase = s.phase := rfl
@[simp] theorem noAction_unit : (noAction s).unit = s.unit := rfl
@[simp] theorem noAction_accExceed : (noAction s).accExceed = s.accExceed := rfl
@[simp] theorem noAction_accMax : (noAction s).accMax = s.accMax := rfl
@[simp] theorem noAction_wait : (noAction s).wait = s.wait := rfl
@[simp] theorem noAction_mem : (noAction s).mem = s.mem := rfl
@[simp] theorem noAction_platform : (noAction s).platform = s.platform := rfl
@[simp] theorem noAction_answers : (noAction s).answers = s.answers := rfl
@[simp] theorem noAction_pending : (noAction s).pending = s.pending := rfl
@[simp] theorem noAction_touched : (noAction s).touched = s.touched := rfl
@[simp] theorem noAction_landed : (noAction s).landed = s.landed := rfl
@[simp] theorem noAction_memOld : (noAction s).memOld = s.memOld := rfl
@[simp] theorem noAction_dmaWritten : (noAction s).dmaWritten = s.dmaWritten := rfl
@[simp] theorem noAction_hostResp : (noAction s).hostResp = s.hostResp := rfl
@[simp] theorem noAction_agenda : (noAction s).agenda = s.agenda := rfl
@[simp] theorem noAction_freeCount : (noAction s).freeCount = s.freeCount := rfl

/-! ### drainWhere -/

@[simp] theorem drainWhere_ie (p : List Host.Cell → Bool) : (drainWhere p s).ie = s.ie := rfl
@[simp] theorem drainWhere_abort (p : List Host.Cell → Bool) : (drainWhere p s).abort = s.abort := rfl
@[simp] theorem drainWhere_busy (p : List Host.Cell → Bool) : (drainWhere p s).busy = s.busy := rfl
@[simp] theorem drainWhere_done (p : List Host.Cell → Bool) : (drainWhere p s).done = s.done := rfl
@[simp] theorem drainWhere_err (p : List Host.Cell → Bool) : (drainWhere p s).err = s.err := rfl
@[simp] theorem drainWhere_wdrop (p : List Host.Cell → Bool) : (drainWhere p s).wdrop = s.wdrop := rfl
@[simp] theorem drainWhere_qmUnaligned (p : List Host.Cell → Bool) : (drainWhere p s).qmUnaligned = s.qmUnaligned := rfl
@[simp] theorem drainWhere_errcode (p : List Host.Cell → Bool) : (drainWhere p s).errcode = s.errcode := rfl
@[simp] theorem drainWhere_lastcmd (p : List Host.Cell → Bool) : (drainWhere p s).lastcmd = s.lastcmd := rfl
@[simp] theorem drainWhere_log2n (p : List Host.Cell → Bool) : (drainWhere p s).log2n = s.log2n := rfl
@[simp] theorem drainWhere_dim (p : List Host.Cell → Bool) : (drainWhere p s).dim = s.dim := rfl
@[simp] theorem drainWhere_dim2 (p : List Host.Cell → Bool) : (drainWhere p s).dim2 = s.dim2 := rfl
@[simp] theorem drainWhere_src (p : List Host.Cell → Bool) : (drainWhere p s).src = s.src := rfl
@[simp] theorem drainWhere_src2 (p : List Host.Cell → Bool) : (drainWhere p s).src2 = s.src2 := rfl
@[simp] theorem drainWhere_dst (p : List Host.Cell → Bool) : (drainWhere p s).dst = s.dst := rfl
@[simp] theorem drainWhere_tol (p : List Host.Cell → Bool) : (drainWhere p s).tol = s.tol := rfl
@[simp] theorem drainWhere_rptExceed (p : List Host.Cell → Bool) : (drainWhere p s).rptExceed = s.rptExceed := rfl
@[simp] theorem drainWhere_rptTotal (p : List Host.Cell → Bool) : (drainWhere p s).rptTotal = s.rptTotal := rfl
@[simp] theorem drainWhere_rptMaxerr (p : List Host.Cell → Bool) : (drainWhere p s).rptMaxerr = s.rptMaxerr := rfl
@[simp] theorem drainWhere_rptPassed (p : List Host.Cell → Bool) : (drainWhere p s).rptPassed = s.rptPassed := rfl
@[simp] theorem drainWhere_errinfo (p : List Host.Cell → Bool) : (drainWhere p s).errinfo = s.errinfo := rfl
@[simp] theorem drainWhere_errdata (p : List Host.Cell → Bool) : (drainWhere p s).errdata = s.errdata := rfl
@[simp] theorem drainWhere_qm (p : List Host.Cell → Bool) : (drainWhere p s).qm = s.qm := rfl
@[simp] theorem drainWhere_phase (p : List Host.Cell → Bool) : (drainWhere p s).phase = s.phase := rfl
@[simp] theorem drainWhere_unit (p : List Host.Cell → Bool) : (drainWhere p s).unit = s.unit := rfl
@[simp] theorem drainWhere_accExceed (p : List Host.Cell → Bool) : (drainWhere p s).accExceed = s.accExceed := rfl
@[simp] theorem drainWhere_accMax (p : List Host.Cell → Bool) : (drainWhere p s).accMax = s.accMax := rfl
@[simp] theorem drainWhere_wait (p : List Host.Cell → Bool) : (drainWhere p s).wait = s.wait := rfl
@[simp] theorem drainWhere_mem (p : List Host.Cell → Bool) : (drainWhere p s).mem = s.mem.writeCells (s.pending.filter p).flatten := rfl
@[simp] theorem drainWhere_platform (p : List Host.Cell → Bool) : (drainWhere p s).platform = s.platform := rfl
@[simp] theorem drainWhere_answers (p : List Host.Cell → Bool) : (drainWhere p s).answers = s.answers := rfl
@[simp] theorem drainWhere_pending (p : List Host.Cell → Bool) : (drainWhere p s).pending = s.pending.filter fun st => !p st := rfl
@[simp] theorem drainWhere_touched (p : List Host.Cell → Bool) : (drainWhere p s).touched = if s.busy then s.touched ++ (s.pending.filter p).flatten.map (fun c => c.1) else s.touched := rfl
@[simp] theorem drainWhere_landed (p : List Host.Cell → Bool) : (drainWhere p s).landed = if s.busy then s.landed ++ s.pending.filter p else s.landed := rfl
@[simp] theorem drainWhere_memOld (p : List Host.Cell → Bool) : (drainWhere p s).memOld = s.memOld := rfl
@[simp] theorem drainWhere_dmaWritten (p : List Host.Cell → Bool) : (drainWhere p s).dmaWritten = s.dmaWritten := rfl
@[simp] theorem drainWhere_hostResp (p : List Host.Cell → Bool) : (drainWhere p s).hostResp = s.hostResp := rfl
@[simp] theorem drainWhere_agenda (p : List Host.Cell → Bool) : (drainWhere p s).agenda = s.agenda := rfl
@[simp] theorem drainWhere_freeCount (p : List Host.Cell → Bool) : (drainWhere p s).freeCount = s.freeCount := rfl

/-! ### hostStore -/

@[simp] theorem hostStore_ie (a : Nat) (bs : List Byte) : (hostStore a bs s).ie = s.ie := rfl
@[simp] theorem hostStore_abort (a : Nat) (bs : List Byte) : (hostStore a bs s).abort = s.abort := rfl
@[simp] theorem hostStore_busy (a : Nat) (bs : List Byte) : (hostStore a bs s).busy = s.busy := rfl
@[simp] theorem hostStore_done (a : Nat) (bs : List Byte) : (hostStore a bs s).done = s.done := rfl
@[simp] theorem hostStore_err (a : Nat) (bs : List Byte) : (hostStore a bs s).err = s.err := rfl
@[simp] theorem hostStore_wdrop (a : Nat) (bs : List Byte) : (hostStore a bs s).wdrop = s.wdrop := rfl
@[simp] theorem hostStore_qmUnaligned (a : Nat) (bs : List Byte) : (hostStore a bs s).qmUnaligned = s.qmUnaligned := rfl
@[simp] theorem hostStore_errcode (a : Nat) (bs : List Byte) : (hostStore a bs s).errcode = s.errcode := rfl
@[simp] theorem hostStore_lastcmd (a : Nat) (bs : List Byte) : (hostStore a bs s).lastcmd = s.lastcmd := rfl
@[simp] theorem hostStore_log2n (a : Nat) (bs : List Byte) : (hostStore a bs s).log2n = s.log2n := rfl
@[simp] theorem hostStore_dim (a : Nat) (bs : List Byte) : (hostStore a bs s).dim = s.dim := rfl
@[simp] theorem hostStore_dim2 (a : Nat) (bs : List Byte) : (hostStore a bs s).dim2 = s.dim2 := rfl
@[simp] theorem hostStore_src (a : Nat) (bs : List Byte) : (hostStore a bs s).src = s.src := rfl
@[simp] theorem hostStore_src2 (a : Nat) (bs : List Byte) : (hostStore a bs s).src2 = s.src2 := rfl
@[simp] theorem hostStore_dst (a : Nat) (bs : List Byte) : (hostStore a bs s).dst = s.dst := rfl
@[simp] theorem hostStore_tol (a : Nat) (bs : List Byte) : (hostStore a bs s).tol = s.tol := rfl
@[simp] theorem hostStore_rptExceed (a : Nat) (bs : List Byte) : (hostStore a bs s).rptExceed = s.rptExceed := rfl
@[simp] theorem hostStore_rptTotal (a : Nat) (bs : List Byte) : (hostStore a bs s).rptTotal = s.rptTotal := rfl
@[simp] theorem hostStore_rptMaxerr (a : Nat) (bs : List Byte) : (hostStore a bs s).rptMaxerr = s.rptMaxerr := rfl
@[simp] theorem hostStore_rptPassed (a : Nat) (bs : List Byte) : (hostStore a bs s).rptPassed = s.rptPassed := rfl
@[simp] theorem hostStore_errinfo (a : Nat) (bs : List Byte) : (hostStore a bs s).errinfo = s.errinfo := rfl
@[simp] theorem hostStore_errdata (a : Nat) (bs : List Byte) : (hostStore a bs s).errdata = s.errdata := rfl
@[simp] theorem hostStore_qm (a : Nat) (bs : List Byte) : (hostStore a bs s).qm = s.qm := rfl
@[simp] theorem hostStore_phase (a : Nat) (bs : List Byte) : (hostStore a bs s).phase = s.phase := rfl
@[simp] theorem hostStore_unit (a : Nat) (bs : List Byte) : (hostStore a bs s).unit = s.unit := rfl
@[simp] theorem hostStore_accExceed (a : Nat) (bs : List Byte) : (hostStore a bs s).accExceed = s.accExceed := rfl
@[simp] theorem hostStore_accMax (a : Nat) (bs : List Byte) : (hostStore a bs s).accMax = s.accMax := rfl
@[simp] theorem hostStore_wait (a : Nat) (bs : List Byte) : (hostStore a bs s).wait = s.wait := rfl
@[simp] theorem hostStore_mem (a : Nat) (bs : List Byte) : (hostStore a bs s).mem = s.mem := rfl
@[simp] theorem hostStore_platform (a : Nat) (bs : List Byte) : (hostStore a bs s).platform = s.platform := rfl
@[simp] theorem hostStore_answers (a : Nat) (bs : List Byte) : (hostStore a bs s).answers = s.answers := rfl
@[simp] theorem hostStore_pending (a : Nat) (bs : List Byte) : (hostStore a bs s).pending = s.pending ++ splitWords (storeCells a bs) := rfl
@[simp] theorem hostStore_touched (a : Nat) (bs : List Byte) : (hostStore a bs s).touched = if s.busy then s.touched ++ (storeCells a bs).map (fun c => c.1) else s.touched := rfl
@[simp] theorem hostStore_landed (a : Nat) (bs : List Byte) : (hostStore a bs s).landed = s.landed := rfl
@[simp] theorem hostStore_memOld (a : Nat) (bs : List Byte) : (hostStore a bs s).memOld = s.memOld := rfl
@[simp] theorem hostStore_dmaWritten (a : Nat) (bs : List Byte) : (hostStore a bs s).dmaWritten = s.dmaWritten := rfl
@[simp] theorem hostStore_hostResp (a : Nat) (bs : List Byte) : (hostStore a bs s).hostResp = some .ack := rfl
@[simp] theorem hostStore_agenda (a : Nat) (bs : List Byte) : (hostStore a bs s).agenda = s.agenda := rfl
@[simp] theorem hostStore_freeCount (a : Nat) (bs : List Byte) : (hostStore a bs s).freeCount = s.freeCount := rfl

/-! ### invalidate -/

@[simp] theorem invalidate_ie (b n : Nat) : (invalidate b n s).ie = s.ie := rfl
@[simp] theorem invalidate_abort (b n : Nat) : (invalidate b n s).abort = s.abort := rfl
@[simp] theorem invalidate_busy (b n : Nat) : (invalidate b n s).busy = s.busy := rfl
@[simp] theorem invalidate_done (b n : Nat) : (invalidate b n s).done = s.done := rfl
@[simp] theorem invalidate_err (b n : Nat) : (invalidate b n s).err = s.err := rfl
@[simp] theorem invalidate_wdrop (b n : Nat) : (invalidate b n s).wdrop = s.wdrop := rfl
@[simp] theorem invalidate_qmUnaligned (b n : Nat) : (invalidate b n s).qmUnaligned = s.qmUnaligned := rfl
@[simp] theorem invalidate_errcode (b n : Nat) : (invalidate b n s).errcode = s.errcode := rfl
@[simp] theorem invalidate_lastcmd (b n : Nat) : (invalidate b n s).lastcmd = s.lastcmd := rfl
@[simp] theorem invalidate_log2n (b n : Nat) : (invalidate b n s).log2n = s.log2n := rfl
@[simp] theorem invalidate_dim (b n : Nat) : (invalidate b n s).dim = s.dim := rfl
@[simp] theorem invalidate_dim2 (b n : Nat) : (invalidate b n s).dim2 = s.dim2 := rfl
@[simp] theorem invalidate_src (b n : Nat) : (invalidate b n s).src = s.src := rfl
@[simp] theorem invalidate_src2 (b n : Nat) : (invalidate b n s).src2 = s.src2 := rfl
@[simp] theorem invalidate_dst (b n : Nat) : (invalidate b n s).dst = s.dst := rfl
@[simp] theorem invalidate_tol (b n : Nat) : (invalidate b n s).tol = s.tol := rfl
@[simp] theorem invalidate_rptExceed (b n : Nat) : (invalidate b n s).rptExceed = s.rptExceed := rfl
@[simp] theorem invalidate_rptTotal (b n : Nat) : (invalidate b n s).rptTotal = s.rptTotal := rfl
@[simp] theorem invalidate_rptMaxerr (b n : Nat) : (invalidate b n s).rptMaxerr = s.rptMaxerr := rfl
@[simp] theorem invalidate_rptPassed (b n : Nat) : (invalidate b n s).rptPassed = s.rptPassed := rfl
@[simp] theorem invalidate_errinfo (b n : Nat) : (invalidate b n s).errinfo = s.errinfo := rfl
@[simp] theorem invalidate_errdata (b n : Nat) : (invalidate b n s).errdata = s.errdata := rfl
@[simp] theorem invalidate_qm (b n : Nat) : (invalidate b n s).qm = s.qm := rfl
@[simp] theorem invalidate_phase (b n : Nat) : (invalidate b n s).phase = s.phase := rfl
@[simp] theorem invalidate_unit (b n : Nat) : (invalidate b n s).unit = s.unit := rfl
@[simp] theorem invalidate_accExceed (b n : Nat) : (invalidate b n s).accExceed = s.accExceed := rfl
@[simp] theorem invalidate_accMax (b n : Nat) : (invalidate b n s).accMax = s.accMax := rfl
@[simp] theorem invalidate_wait (b n : Nat) : (invalidate b n s).wait = s.wait := rfl
@[simp] theorem invalidate_mem (b n : Nat) : (invalidate b n s).mem = s.mem := rfl
@[simp] theorem invalidate_platform (b n : Nat) : (invalidate b n s).platform = s.platform := rfl
@[simp] theorem invalidate_answers (b n : Nat) : (invalidate b n s).answers = s.answers := rfl
@[simp] theorem invalidate_pending (b n : Nat) : (invalidate b n s).pending = s.pending := rfl
@[simp] theorem invalidate_touched (b n : Nat) : (invalidate b n s).touched = s.touched := rfl
@[simp] theorem invalidate_landed (b n : Nat) : (invalidate b n s).landed = s.landed := rfl
@[simp] theorem invalidate_memOld (b n : Nat) : (invalidate b n s).memOld = s.memOld := rfl
@[simp] theorem invalidate_dmaWritten (b n : Nat) : (invalidate b n s).dmaWritten = s.dmaWritten.flatMap fun r => spanMinus r ⟨b, n⟩ := rfl
@[simp] theorem invalidate_hostResp (b n : Nat) : (invalidate b n s).hostResp = s.hostResp := rfl
@[simp] theorem invalidate_agenda (b n : Nat) : (invalidate b n s).agenda = s.agenda := rfl
@[simp] theorem invalidate_freeCount (b n : Nat) : (invalidate b n s).freeCount = s.freeCount := rfl

/-! ### waited -/

@[simp] theorem waited_of_none {s : State} (h : s.wait = none) : s.waited = ⟨[], [], []⟩ := by
  simp [State.waited, h]

@[simp] theorem waited_of_some {s : State} {w : UnitWait} (h : s.wait = some w) : s.waited = w := by
  simp [State.waited, h]

end Sys2Proof.Machine
end

