-- ==== Sys2Proof/Laws/Engine.lean ====
section
/-! SUPPORT. What the engine's shared operations can do: one lemma per operation, for the proofs to cite. -/

namespace Sys2Proof.Machine

/-! ## settle (R125) changes memory and the pending stores only -/

theorem settle_eq (i : Instr) (s : State) :
    settle i s = { s with mem := (settle i s).mem, pending := (settle i s).pending } := by
  unfold settle
  split <;> rfl

@[simp] theorem settle_ie (i : Instr) (s : State) : (settle i s).ie = s.ie := by
  rw [settle_eq]
@[simp] theorem settle_abort (i : Instr) (s : State) : (settle i s).abort = s.abort := by
  rw [settle_eq]
@[simp] theorem settle_busy (i : Instr) (s : State) : (settle i s).busy = s.busy := by
  rw [settle_eq]
@[simp] theorem settle_done (i : Instr) (s : State) : (settle i s).done = s.done := by
  rw [settle_eq]
@[simp] theorem settle_err (i : Instr) (s : State) : (settle i s).err = s.err := by
  rw [settle_eq]
@[simp] theorem settle_wdrop (i : Instr) (s : State) : (settle i s).wdrop = s.wdrop := by
  rw [settle_eq]
@[simp] theorem settle_qmUnaligned (i : Instr) (s : State) : (settle i s).qmUnaligned = s.qmUnaligned := by
  rw [settle_eq]
@[simp] theorem settle_errcode (i : Instr) (s : State) : (settle i s).errcode = s.errcode := by
  rw [settle_eq]
@[simp] theorem settle_lastcmd (i : Instr) (s : State) : (settle i s).lastcmd = s.lastcmd := by
  rw [settle_eq]
@[simp] theorem settle_log2n (i : Instr) (s : State) : (settle i s).log2n = s.log2n := by
  rw [settle_eq]
@[simp] theorem settle_dim (i : Instr) (s : State) : (settle i s).dim = s.dim := by
  rw [settle_eq]
@[simp] theorem settle_dim2 (i : Instr) (s : State) : (settle i s).dim2 = s.dim2 := by
  rw [settle_eq]
@[simp] theorem settle_src (i : Instr) (s : State) : (settle i s).src = s.src := by
  rw [settle_eq]
@[simp] theorem settle_src2 (i : Instr) (s : State) : (settle i s).src2 = s.src2 := by
  rw [settle_eq]
@[simp] theorem settle_dst (i : Instr) (s : State) : (settle i s).dst = s.dst := by
  rw [settle_eq]
@[simp] theorem settle_tol (i : Instr) (s : State) : (settle i s).tol = s.tol := by
  rw [settle_eq]
@[simp] theorem settle_rptExceed (i : Instr) (s : State) : (settle i s).rptExceed = s.rptExceed := by
  rw [settle_eq]
@[simp] theorem settle_rptTotal (i : Instr) (s : State) : (settle i s).rptTotal = s.rptTotal := by
  rw [settle_eq]
@[simp] theorem settle_rptMaxerr (i : Instr) (s : State) : (settle i s).rptMaxerr = s.rptMaxerr := by
  rw [settle_eq]
@[simp] theorem settle_rptPassed (i : Instr) (s : State) : (settle i s).rptPassed = s.rptPassed := by
  rw [settle_eq]
@[simp] theorem settle_errinfo (i : Instr) (s : State) : (settle i s).errinfo = s.errinfo := by
  rw [settle_eq]
@[simp] theorem settle_errdata (i : Instr) (s : State) : (settle i s).errdata = s.errdata := by
  rw [settle_eq]
@[simp] theorem settle_qm (i : Instr) (s : State) : (settle i s).qm = s.qm := by
  rw [settle_eq]
@[simp] theorem settle_phase (i : Instr) (s : State) : (settle i s).phase = s.phase := by
  rw [settle_eq]
@[simp] theorem settle_unit (i : Instr) (s : State) : (settle i s).unit = s.unit := by
  rw [settle_eq]
@[simp] theorem settle_accExceed (i : Instr) (s : State) : (settle i s).accExceed = s.accExceed := by
  rw [settle_eq]
@[simp] theorem settle_accMax (i : Instr) (s : State) : (settle i s).accMax = s.accMax := by
  rw [settle_eq]
@[simp] theorem settle_wait (i : Instr) (s : State) : (settle i s).wait = s.wait := by
  rw [settle_eq]
@[simp] theorem settle_platform (i : Instr) (s : State) : (settle i s).platform = s.platform := by
  rw [settle_eq]
@[simp] theorem settle_answers (i : Instr) (s : State) : (settle i s).answers = s.answers := by
  rw [settle_eq]
@[simp] theorem settle_touched (i : Instr) (s : State) : (settle i s).touched = s.touched := by
  rw [settle_eq]
@[simp] theorem settle_landed (i : Instr) (s : State) : (settle i s).landed = s.landed := by
  rw [settle_eq]
@[simp] theorem settle_memOld (i : Instr) (s : State) : (settle i s).memOld = s.memOld := by
  rw [settle_eq]
@[simp] theorem settle_dmaWritten (i : Instr) (s : State) : (settle i s).dmaWritten = s.dmaWritten := by
  rw [settle_eq]
@[simp] theorem settle_hostResp (i : Instr) (s : State) : (settle i s).hostResp = s.hostResp := by
  rw [settle_eq]
@[simp] theorem settle_agenda (i : Instr) (s : State) : (settle i s).agenda = s.agenda := by
  rw [settle_eq]
@[simp] theorem settle_freeCount (i : Instr) (s : State) : (settle i s).freeCount = s.freeCount := by
  rw [settle_eq]

theorem disturbed_of_untouched {i : Instr} {s : State} (h : s.pending = []) (h' : s.touched = []) :
    disturbed i s = [] := by
  simp [disturbed, h, h']

theorem settle_of_untouched {i : Instr} {s : State} (h : s.pending = []) (h' : s.touched = []) :
    settle i s = s := by
  simp [settle, disturbed_of_untouched h h']

/-- With a host that keeps its duties, nothing is left open at the end of a command. -/
theorem settle_of_quiet {i : Instr} {s : State} (h : HostQuiet s) : settle i s = s :=
  settle_of_untouched h.1 h.2.1

/-- What is left open are DST elements of the command. -/
theorem mem_disturbed {i : Instr} {s : State} {a : Access} (h : a ∈ disturbed i s) :
    ∃ t < unitCount i s, a ∈ unitWrites i s t := by
  unfold disturbed at h
  split at h
  · simp at h
  · simp only [List.mem_flatMap, List.mem_range] at h
    obtain ⟨t, ht, ha⟩ := h
    refine ⟨t, ht, ?_⟩
    unfold disturbedOf at ha
    split at ha
    · exact ha
    · exact (List.mem_filter.1 ha).1

theorem settle_mem_wf {i : Instr} {s : State} (hc : check i s = none) (h : s.mem.wf = true) :
    (settle i s).mem.wf = true := by
  unfold settle
  split
  · exact h
  · rename_i a rest hd
    refine freeElems_wf h fun b hb => ?_
    obtain ⟨t, ht, hb⟩ := mem_disturbed (hd ▸ hb)
    obtain ⟨_, _, _, _, _, _, h⟩ := unitWrites_inRegion hc ht b hb
    exact h

/-- Dropping bytes of host stores leaves stores that have bytes, and only bytes that were there. -/
theorem dropCells_ok {p : Host.Cell → Bool} {l : List (List Host.Cell)}
    (h : ∀ st ∈ l, st ≠ [] ∧ ∀ c ∈ st, c.1 < Config.dmaSpace) :
    ∀ st ∈ dropCells p l, st ≠ [] ∧ ∀ c ∈ st, c.1 < Config.dmaSpace := by
  intro st hst
  obtain ⟨hm, hne⟩ := List.mem_filter.1 hst
  obtain ⟨st', hst', rfl⟩ := List.mem_map.1 hm
  exact ⟨by simpa using hne, fun c hc => (h st' hst').2 c (List.mem_filter.1 hc).1⟩

theorem settle_pendingOk {i : Instr} {s : State} (h : PendingOk s) : PendingOk (settle i s) := by
  unfold settle
  split
  · exact h
  · exact dropCells_ok h

/-- The end of a run changes memory, the stores under way and the record of stale copies only. -/
theorem closeRun_eq (i : Instr) (s : State) :
    closeRun i s = { s with
      mem := (settle i s).mem, pending := (settle i s).pending, dmaWritten := noteDmaWritten i s } := by
  unfold closeRun
  rw [settle_eq]

/-- With a host that keeps its duties, only the record of stale copies. -/
theorem closeRun_of_quiet {i : Instr} {s : State} (h : HostQuiet s) :
    closeRun i s = { s with dmaWritten := noteDmaWritten i s } := by
  rw [closeRun, settle_of_quiet h]

/-- R220, field by field: what the end of a run leaves. -/
theorem endRun_eq (i : Instr) (c : ErrCode) (info data : Word) (s : State) :
    endRun i c info data s = { endCommand c info data s with
      mem := (settle i s).mem, pending := (settle i s).pending, dmaWritten := noteDmaWritten i s } := by
  rw [endRun, closeRun_eq]
  rfl

/-- On a coherent platform no copy is ever stale (R129). -/
@[simp] theorem noteDmaWritten_of_coherent {i : Instr} {s : State} (h : s.platform.dmaCoherent = true) :
    noteDmaWritten i s = s.dmaWritten := by
  unfold noteDmaWritten
  rw [h]
  cases dstKind i <;> rfl

/-! ## The commands as one engine step -/

/-- Every command runs on the one engine, with its own work and completion action (R200, R221). -/
theorem exec_eq_commandStep (i : Instr) (s : State) :
    exec i s = commandStep i (workOf i) (finishOf i) s := by
  cases i <;> rfl

theorem exec_idle {i : Instr} {s : State} (h : s.phase = .idle) : exec i s = .next s := by
  rw [exec_eq_commandStep, commandStep, h]

theorem exec_check {i : Instr} {s : State} (h : s.phase = .check) : exec i s = checkStep i s := by
  rw [exec_eq_commandStep, commandStep, h]

theorem exec_run {i : Instr} {s : State} (h : s.phase = .run) :
    exec i s = runStep i (workOf i) (finishOf i) s := by
  rw [exec_eq_commandStep, commandStep, h]

/-- R205: the check step ends the command with its first error, is refused by name where a region covers
memory with side effects, or moves to RUN. -/
theorem checkStep_cases (i : Instr) (s : State) :
    (∃ e, check i s = some e ∧ checkStep i s = .next (raiseErr e s)) ∨
    (check i s = none ∧ ∃ f, sideEffectFrame i s = some f ∧
      checkStep i s = .refused (.sideEffectRegion f.number)) ∨
    (check i s = none ∧ sideEffectFrame i s = none ∧
      checkStep i s = .next { s with phase := .run }) := by
  unfold checkStep
  cases hc : check i s with
  | some e => exact .inl ⟨e, rfl, rfl⟩
  | none =>
    cases hf : sideEffectFrame i s with
    | some f => exact .inr (.inl ⟨rfl, f, rfl, rfl⟩)
    | none => exact .inr (.inr ⟨rfl, rfl, rfl⟩)

theorem runReady_iff {i : Instr} {s : State} :
    runReady i s = true ↔ check i s = none ∧ s.unit < unitCount i s := by
  simp [runReady, Option.isNone_iff_eq_none]

/-- R212: a run step faults outside a command, ends it with ABORTED, or does one unit. -/
theorem runStep_cases (i : Instr) (work : State → Nat → UnitWork) (finish : State → State) (s : State) :
    (runReady i s = false ∧ runStep i work finish s = .fault .runOutsideCommand) ∨
    (runReady i s = true ∧ s.abort = true ∧ s.wait = none ∧
      runStep i work finish s = .next (endRun i .aborted 0 (BitVec.ofNat 32 s.unit) s)) ∨
    (runReady i s = true ∧ NotAborted s ∧ runStep i work finish s = .next (runUnit i work finish s)) := by
  unfold runStep
  cases hr : runReady i s
  · exact .inl ⟨rfl, by simp⟩
  · by_cases ha : s.abort = true ∧ s.wait = none
    · exact .inr (.inl ⟨rfl, ha.1, ha.2, by simp [ha]⟩)
    · refine .inr (.inr ⟨rfl, ?_, by simp [ha]⟩)
      unfold NotAborted
      cases h1 : s.abort <;> cases h2 : s.wait <;> simp_all

theorem pickFree_mem {α : Type} {draw key : Nat} {l : List α} {x : α} (h : pickFree draw key l = some x) :
    x ∈ l := by
  match l, h with
  | [_], h => simp [pickFree] at h; simp [h]
  | a :: b :: rest, h => exact List.mem_of_getElem? h

theorem pickFree_eq_none {α : Type} {draw key : Nat} {l : List α} : pickFree draw key l = none ↔ l = [] := by
  match l with
  | [] => simp [pickFree]
  | [_] => simp [pickFree]
  | a :: b :: rest =>
    simp only [pickFree, reduceCtorEq, iff_false, List.getElem?_eq_none_iff, List.length_cons, not_le]
    exact Nat.mod_lt _ (by omega)

theorem mem_troubles {s : State} {w : Bool} {l : List Access} {x : Trouble} (h : x ∈ s.troubles w l) :
    (∃ a ∈ l, s.answerOf w a = .error ∧ x = .error a) ∨ (∃ a ∈ l, s.answerOf w a = .silent ∧ x = .silent a) := by
  unfold State.troubles at h
  split at h
  · obtain ⟨a, ha, rfl⟩ := List.mem_map.1 h
    obtain ⟨hm, he⟩ := List.mem_filter.1 ha
    exact .inl ⟨a, hm, by simpa using he, rfl⟩
  · obtain ⟨a, hm, ht⟩ := List.mem_filterMap.1 h
    unfold State.troubleOf at ht
    cases ha : s.answerOf w a <;> simp only [ha, reduceCtorEq, Option.some.injEq] at ht
    · exact .inl ⟨a, hm, ha, ht.symm⟩
    · exact .inr ⟨a, hm, ha, ht.symm⟩

/-- A phase meets no trouble exactly when every access of it is answered (R110). -/
theorem phaseTrouble_eq_none {s : State} {w : Bool} {l : List Access} :
    s.phaseTrouble w l = none ↔ ∀ a ∈ l, s.answerOf w a = .ok := by
  unfold State.phaseTrouble State.troubles
  rw [pickFree_eq_none]
  split
  · rename_i h
    obtain ⟨a, ha, h⟩ := List.any_eq_true.1 h
    simp only [Bool.and_eq_true, decide_eq_true_eq] at h
    simp only [List.map_eq_nil_iff, List.filter_eq_nil_iff, decide_eq_true_eq]
    exact ⟨fun hn => absurd h.2 (hn a ha), fun hok => by have := hok a ha; rw [h.2] at this; cases this⟩
  · rw [List.filterMap_eq_nil_iff]
    refine forall₂_congr fun a _ => ?_
    unfold State.troubleOf
    cases s.answerOf w a <;> simp

/-- R216, R466: a reported bus error is that of an access of the phase which got an error response. -/
theorem phaseTrouble_error {s : State} {w : Bool} {l : List Access} {a : Access}
    (h : s.phaseTrouble w l = some (.error a)) : a ∈ l ∧ s.answerOf w a = .error := by
  rcases mem_troubles (pickFree_mem h) with ⟨b, hb, he, hx⟩ | ⟨b, _, _, hx⟩
  · cases hx; exact ⟨hb, he⟩
  · cases hx

/-- R225: a phase waits only for an access that gets no response. -/
theorem phaseTrouble_silent {s : State} {w : Bool} {l : List Access} {a : Access}
    (h : s.phaseTrouble w l = some (.silent a)) : a ∈ l ∧ s.answerOf w a = .silent := by
  rcases mem_troubles (pickFree_mem h) with ⟨b, _, _, hx⟩ | ⟨b, hb, he, hx⟩
  · cases hx
  · cases hx; exact ⟨hb, he⟩

/-- R110: a phase in which an issued access gets an error response does not wait. -/
theorem phaseTrouble_forced {s : State} {w : Bool} {l : List Access} {a : Access} (ha : a ∈ l)
    (hasked : a ∈ s.waited.asked) (he : s.answerOf w a = .error) :
    ∃ b ∈ l, s.answerOf w b = .error ∧ s.phaseTrouble w l = some (.error b) := by
  cases hp : s.phaseTrouble w l with
  | none => rw [phaseTrouble_eq_none.1 hp a ha] at he; cases he
  | some x =>
    have hx := pickFree_mem hp
    have hany : (l.any fun a => s.isAsked a && decide (s.answerOf w a = .error)) = true :=
      List.any_eq_true.2 ⟨a, ha, by simp [State.isAsked, hasked, he]⟩
    rw [State.troubles, if_pos hany] at hx
    obtain ⟨b, hb, rfl⟩ := List.mem_map.1 hx
    obtain ⟨hm, hb⟩ := List.mem_filter.1 hb
    exact ⟨b, hm, by simpa using hb, rfl⟩

/-- R120, R212, R216: a unit waits for a read, meets a bus error in its reads, waits for a write, meets a bus
error in its writes, or is done. -/
theorem runUnit_cases (i : Instr) (work : State → Nat → UnitWork) (finish : State → State) (s : State) :
    (∃ a ∈ openReads i s, s.answerOf false a = .silent ∧
      runUnit i work finish s = waitForRead i a s) ∨
    (∃ a ∈ openReads i s, s.answerOf false a = .error ∧
      runUnit i work finish s = busError i a s) ∨
    ((∀ a ∈ openReads i s, s.answerOf false a = .ok) ∧
      ∃ a ∈ openWrites i s, s.answerOf true a = .silent ∧
      runUnit i work finish s = waitForWrite i a s) ∨
    ((∀ a ∈ openReads i s, s.answerOf false a = .ok) ∧
      ∃ a ∈ openWrites i s, s.answerOf true a = .error ∧
      runUnit i work finish s =
        busError i a { s with mem := freeElems s.freeCount s.mem (unitWrites i s s.unit) }) ∨
    (UnitAnswered i s ∧
      runUnit i work finish s = afterUnit i finish (applyUnit (work s s.unit) s)) := by
  unfold runUnit
  split
  · rename_i a h
    obtain ⟨hm, he⟩ := phaseTrouble_silent h
    exact .inl ⟨a, hm, he, rfl⟩
  · rename_i a h
    obtain ⟨hm, he⟩ := phaseTrouble_error h
    exact .inr (.inl ⟨a, hm, he, rfl⟩)
  · rename_i h
    have hr := phaseTrouble_eq_none.1 h
    split
    · rename_i a h'
      obtain ⟨hm, he⟩ := phaseTrouble_silent h'
      exact .inr (.inr (.inl ⟨hr, a, hm, he, rfl⟩))
    · rename_i a h'
      obtain ⟨hm, he⟩ := phaseTrouble_error h'
      exact .inr (.inr (.inr (.inl ⟨hr, a, hm, he, rfl⟩)))
    · rename_i h'
      exact .inr (.inr (.inr (.inr ⟨⟨hr, phaseTrouble_eq_none.1 h'⟩, rfl⟩)))

/-- A unit that every access of is answered is done. -/
theorem runUnit_of_answered {i : Instr} {work : State → Nat → UnitWork} {finish : State → State} {s : State}
    (h : UnitAnswered i s) :
    runUnit i work finish s = afterUnit i finish (applyUnit (work s s.unit) s) := by
  unfold runUnit
  rw [phaseTrouble_eq_none.2 h.1, phaseTrouble_eq_none.2 h.2]

/-- R212: the run step of a unit that runs. -/
theorem exec_of_unitRuns {i : Instr} {s : State} (h : UnitRuns i s) :
    exec i s = .next (afterUnit i (finishOf i) (applyUnit (workOf i s s.unit) s)) := by
  obtain ⟨⟨hp, hc, hu⟩, ha, hok, -⟩ := h
  rw [exec_run hp, ← runUnit_of_answered hok]
  rcases runStep_cases i (workOf i) (finishOf i) s with h | h | h
  · have hr := runReady_iff.2 ⟨hc, hu⟩
    rw [h.1] at hr
    exact absurd hr (by simp)
  · rcases ha with ha | ha <;> simp [ha] at h
  · exact h.2.2

/-- A RUN step of a command always goes on: the only fault is that of a state outside a command. -/
theorem exec_run_next {i : Instr} {s : State} (h : UnitDue i s) : ∃ t, exec i s = .next t := by
  obtain ⟨hp, hc, hu⟩ := h
  rw [exec_run hp]
  rcases runStep_cases i (workOf i) (finishOf i) s with h | h | h
  · have hr := runReady_iff.2 ⟨hc, hu⟩
    rw [h.1] at hr
    exact absurd hr (by simp)
  · exact ⟨_, h.2.2.2⟩
  · exact ⟨_, h.2.2⟩

/-- Without host stores under way, and with the data got so far that of memory, a DMA read reads memory
(R124). -/
theorem dmaView_of_quiet {s : State} (h : HostQuiet s) (f : FrameName) (a : Nat) : s.dmaView f a = s.mem := by
  simp [State.dmaView, State.lateStores, h.1, h.2.2]

/-- R124: what a read can see, the base with some number of the oldest late stores done. -/
theorem dmaView_cases (s : State) (f : FrameName) (a : Nat) :
    (s.lateStores = [] ∧ s.dmaView f a = s.mem) ∨
    ∃ k ≤ s.lateStores.length, s.dmaView f a = s.dmaBase.writeCells (s.lateStores.take k).flatten := by
  unfold State.dmaView
  split
  · exact .inl ⟨‹_›, rfl⟩
  · rename_i c rest h
    refine .inr ⟨_, ?_, by rw [h]⟩
    rw [h, List.length_cons]
    exact Nat.le_of_lt_succ (Nat.mod_lt _ (by omega))

theorem dmaRead_of_quiet {s : State} (h : HostQuiet s) (hr : ReadsAgree s) (f : FrameName) (a n : Nat) :
    s.dmaRead f a n = s.mem.readLE a n := by
  unfold State.dmaRead
  split
  · rename_i r hf
    have hm := List.mem_of_find?_eq_some hf
    have he := List.find?_some hf
    simp only [decide_eq_true_eq] at he
    rw [hr r hm, he]
  · rw [dmaView_of_quiet h]

theorem readsAgree_of_fresh {s : State} (h : s.wait = none) : ReadsAgree s := by
  intro r hr
  simp [h] at hr

/-! ## What a waiting unit keeps (R225) -/

theorem mem_openReads {i : Instr} {s : State} {a : Access} :
    a ∈ openReads i s ↔ a ∈ unitReads i s s.unit ∧ ∀ r ∈ s.waited.reads, r.access ≠ a := by
  simp [openReads]

theorem mem_openWrites {i : Instr} {s : State} {a : Access} :
    a ∈ openWrites i s ↔ a ∈ unitWrites i s s.unit ∧ a ∉ s.waited.acks := by
  simp [openWrites]

/-- A unit that has not waited has all its accesses before it. -/
theorem openReads_of_fresh {i : Instr} {s : State} (h : s.wait = none) :
    openReads i s = unitReads i s s.unit := by
  simp [openReads, h]

theorem openWrites_of_fresh {i : Instr} {s : State} (h : s.wait = none) :
    openWrites i s = unitWrites i s s.unit := by
  simp [openWrites, h]

/-! ## The writes of a unit are its DST accesses -/

/-- The work of a unit writes exactly the DST elements of the unit, in their order (R112). -/
theorem workOf_writes_eq (i : Instr) (s : State) (t : Nat) :
    (workOf i s t).writes.map (fun w => (w.addr, w.size)) =
      (unitWrites i s t).map fun a => (a.addr, a.size) := by
  cases i <;>
    simp [workOf, qmbuildWork, fdctWork, idctWork, quantWork, dequantWork, encodeWork, decodeWork, verifyWork,
      tileWork, State.tileWrites, State.dstWrite, unitWrites, frameAccesses, dstKind, unitPositions, isTile,
      Function.comp_def]

theorem workOf_writes_inRegion {i : Instr} {s : State} {t : Nat} (hc : check i s = none)
    (ht : t < unitCount i s) : ∀ w ∈ (workOf i s t).writes, w.addr + w.size ≤ Config.dmaSpace := by
  intro w hw
  have : (w.addr, w.size) ∈ (unitWrites i s t).map fun a => (a.addr, a.size) := by
    rw [← workOf_writes_eq]
    exact List.mem_map.2 ⟨w, hw, rfl⟩
  obtain ⟨a, ha, he⟩ := List.mem_map.1 this
  obtain ⟨_, _, _, _, _, _, h⟩ := unitWrites_inRegion hc ht a ha
  simp only [Prod.mk.injEq] at he
  rw [← he.1, ← he.2]
  exact h

end Sys2Proof.Machine
end

