-- ==== Sys2Proof/Laws/PerInstr.lean ====
section
/-! SUPPORT. Facts about every command as syntax, one lemma per constructor. -/

namespace Sys2Proof.Laws.EncodedWordIsWellFormed

/-- The command's word has its reserved field 0 and a legal opcode (R151). -/
def Statement (i : Instr) : Prop := i.wf = true ∧ wordWellFormed (encode i) = true

theorem qmbuild : Statement .qmbuild := ⟨by decide, by decide⟩
theorem fdct : Statement .fdct := ⟨by decide, by decide⟩
theorem idct : Statement .idct := ⟨by decide, by decide⟩
theorem quant : Statement .quant := ⟨by decide, by decide⟩
theorem dequant : Statement .dequant := ⟨by decide, by decide⟩
theorem encode : Statement .encode := ⟨by decide, by decide⟩
theorem decode : Statement .decode := ⟨by decide, by decide⟩
theorem verify : Statement .verify := ⟨by decide, by decide⟩

end Sys2Proof.Laws.EncodedWordIsWellFormed
end

