-- ==== Sys2Proof/Laws/Step.lean ====
section
/-! SUPPORT. What one step of the machine can do. -/

namespace Sys2Proof.Machine

/-- An engine step: idle, a command, or an illegal word. -/
theorem engineStep_cases (s : State) :
    (s.phase = .idle ∧ engineStep s = .next s) ∨
    (s.phase ≠ .idle ∧ ∃ i, decodeWord s.lastcmd = .ok i ∧ engineStep s = exec i s) ∨
    (s.phase ≠ .idle ∧ ∃ r, decodeWord s.lastcmd = .error r ∧ engineStep s = illegalStep s) := by
  unfold engineStep
  cases hp : s.phase <;> cases hd : decodeWord s.lastcmd <;> simp

/-- A step: the engine moves, or another agent does. -/
theorem step_cases (s : State) :
    (s.agenda = [] ∧ step s = engineStep s.tick) ∨
    (∃ rest, s.agenda = .engine :: rest ∧ step s = engineStep { s.tick with agenda := rest }) ∨
    (∃ e rest, s.agenda = e :: rest ∧ e ≠ .engine ∧
      step s = .next (envStep e { s.tick with agenda := rest })) := by
  unfold step
  rcases ha : s.agenda with _ | ⟨e, rest⟩
  · exact .inl ⟨rfl, rfl⟩
  · cases e
    case engine => exact .inr (.inl ⟨rest, rfl, rfl⟩)
    all_goals exact .inr (.inr ⟨_, rest, rfl, by simp, rfl⟩)

/-- What stands at an offset, for an access that reaches a register (R33, R410). -/
theorem hostWrite_of_ok {width off : Nat} {w : Word} {s : State} (h : accessOk width off = true) :
    hostWrite width off w s = respond .ack (regWrite w s (regAt off)) := by
  simp [hostWrite, h]

theorem hostRead_of_ok {width off : Nat} {s : State} (h : accessOk width off = true) :
    hostRead width off s = respond (.data (regRead s (regAt off))) s := by
  simp [hostRead, h]

theorem whenIdle_busy {s : State} {f : State → State} (h : s.busy = true) :
    whenIdle s f = { s with wdrop := true } := by
  simp [whenIdle, h]

theorem whenIdle_idle {s : State} {f : State → State} (h : s.busy = false) : whenIdle s f = f s := by
  simp [whenIdle, h]

theorem storeCells_inSpace {a : Nat} {bs : List Byte} : ∀ c ∈ storeCells a bs, c.1 < Config.dmaSpace := by
  intro c hc
  simpa using (List.mem_filter.1 hc).2

/-! ## Host stores and caches (R124, R129) -/

theorem flatten_splitWords (cs : List Host.Cell) : (splitWords cs).flatten = cs := by
  induction cs with
  | nil => rfl
  | cons c cs ih =>
    simp only [splitWords]
    split
    · rename_i d ds rest h
      rw [h] at ih
      split <;> simpa using ih
    · rename_i rest h
      rw [h] at ih
      simpa using ih
    · rename_i h
      rw [h] at ih
      simpa using ih

/-- Every store under way has bytes, all of one aligned word. -/
theorem splitWords_oneWord (cs : List Host.Cell) :
    ∀ st ∈ splitWords cs, ∃ c ∈ st, ∀ d ∈ st, d.1 / 4 = c.1 / 4 := by
  induction cs with
  | nil => simp [splitWords]
  | cons c cs ih =>
    simp only [splitWords]
    split
    · rename_i d ds rest h
      rw [h, List.forall_mem_cons] at ih
      split
      · rename_i hw
        refine List.forall_mem_cons.2 ⟨⟨c, by simp, fun e he => ?_⟩, ih.2⟩
        obtain ⟨⟨x, hx, hall⟩, -⟩ := ih
        rcases List.mem_cons.1 he with rfl | he
        · rfl
        · rw [hall e he, ← hall d (by simp), hw]
      · exact List.forall_mem_cons.2 ⟨⟨c, by simp⟩, List.forall_mem_cons.2 ih⟩
    · rename_i rest h
      rw [h, List.forall_mem_cons] at ih
      exact List.forall_mem_cons.2 ⟨⟨c, by simp⟩, ih.2⟩
    · exact List.forall_mem_cons.2 ⟨⟨c, by simp⟩, by simp⟩

/-- Exactly the bytes of `q` are taken out of `p`. -/
theorem any_spanMinus (p q : Span) (a : Nat) :
    ((spanMinus p q).any fun r => spanHas r a) = (spanHas p a && !spanHas q a) := by
  rw [Bool.eq_iff_iff]
  unfold spanMinus
  split
  · rename_i h
    simp only [spanMeets, Bool.and_eq_true, decide_eq_true_eq] at h
    simp only [List.any_eq_true, List.mem_filter, List.mem_cons, List.not_mem_nil, or_false, spanHas,
      Bool.and_eq_true, decide_eq_true_eq, Bool.not_eq_true', Bool.and_eq_false_iff, decide_eq_false_iff_not]
    constructor
    · rintro ⟨r, ⟨rfl | rfl, hs⟩, h1, h2⟩ <;> simp only at hs h1 h2 <;> omega
    · intro ⟨h1, h2⟩
      by_cases ha : a < q.base
      · exact ⟨_, ⟨.inl rfl, by simp only; omega⟩, by simp only; omega⟩
      · exact ⟨_, ⟨.inr rfl, by simp only; omega⟩, by simp only; omega⟩
  · rename_i h
    simp only [List.any_cons, List.any_nil, Bool.or_false, spanHas, Bool.and_eq_true, decide_eq_true_eq,
      Bool.not_eq_true', Bool.and_eq_false_iff, decide_eq_false_iff_not]
    constructor
    · intro ⟨h1, h2⟩
      refine ⟨⟨h1, h2⟩, ?_⟩
      by_contra hq
      refine h ?_
      simp only [spanMeets, Bool.and_eq_true, decide_eq_true_eq]
      omega
    · exact fun h => h.1

/-- R129: after an invalidation a byte is stale exactly if it was and lies outside the region. -/
theorem isStale_invalidate (b n a : Nat) (s : State) :
    isStale (invalidate b n s) a = (isStale s a && !spanHas ⟨b, n⟩ a) := by
  simp only [isStale, invalidate_dmaWritten]
  induction s.dmaWritten with
  | nil => rfl
  | cons r rest ih =>
    rw [List.flatMap_cons, List.any_append, any_spanMinus, ih, List.any_cons]
    cases spanHas r a <;> cases spanHas ⟨b, n⟩ a <;> simp

/-- Making stores visible keeps the canonical form of memory and of the stores that stay under way. -/
theorem drainWhere_ok {p : List Host.Cell → Bool} {s : State} (hm : s.mem.wf = true) (hp : PendingOk s) :
    (drainWhere p s).mem.wf = true ∧ PendingOk (drainWhere p s) := by
  refine ⟨Memory.writeCells_wf hm fun c hc => ?_, fun st hst => hp st (List.mem_filter.1 hst).1⟩
  obtain ⟨st, hst, hc⟩ := List.mem_flatten.1 hc
  exact (hp st (List.mem_filter.1 hst).1).2 c hc

theorem hostStore_pendingOk {a : Nat} {bs : List Byte} {s : State} (hp : PendingOk s) :
    PendingOk (hostStore a bs s) := by
  intro st hst
  rw [hostStore_pending] at hst
  rcases List.mem_append.1 hst with h | h
  · exact hp st h
  · obtain ⟨c, hc, -⟩ := splitWords_oneWord _ st h
    refine ⟨List.ne_nil_of_mem hc, fun d hd => storeCells_inSpace (a := a) (bs := bs) d ?_⟩
    rw [← flatten_splitWords (storeCells a bs)]
    exact List.mem_flatten.2 ⟨st, h, hd⟩

end Sys2Proof.Machine
end

