-- ==== Sys2Proof/Tests/Slice0.lean ====
section
/-! SUPPORT. The model's own tests: the checks of WellFormed, the decoder on words written out from R150 and
R151, one or two small cases of each command and operation with the expected values of 95_test_vectors.md or of
the rules, and for every statement with hypotheses a state that meets them. -/

namespace Sys2Proof.Tests

open Sys2Proof.Machine

/-! ## WellFormed: each check refuses an ill-formed word (R155) -/

theorem test_wf_refuses_reserved_bit : rsvIsZero 0x00000012#32 = false := by decide
theorem test_wf_refuses_opcode_zero : opcIsLegal 0x00000000#32 = false := by decide
theorem test_wf_refuses_opcode_nine : opcIsLegal 0x00000009#32 = false := by decide
theorem test_wf_word_needs_both :
    wordWellFormed 0x00000012#32 = false ∧ wordWellFormed 0x0000000F#32 = false ∧
      wordWellFormed 0x00000008#32 = true := by decide

/-! ## Decode: every command's word bit by bit, RSV [31:4] then OPC [3:0] (R150, R151) -/

theorem test_decode_qmbuild : decodeWord 0b00000000000000000000000000000001#32 = .ok .qmbuild := by rfl
theorem test_decode_fdct : decodeWord 0b00000000000000000000000000000010#32 = .ok .fdct := by rfl
theorem test_decode_idct : decodeWord 0b00000000000000000000000000000011#32 = .ok .idct := by rfl
theorem test_decode_quant : decodeWord 0b00000000000000000000000000000100#32 = .ok .quant := by rfl
theorem test_decode_dequant : decodeWord 0b00000000000000000000000000000101#32 = .ok .dequant := by rfl
theorem test_decode_encode : decodeWord 0b00000000000000000000000000000110#32 = .ok .encode := by rfl
theorem test_decode_decode : decodeWord 0b00000000000000000000000000000111#32 = .ok .decode := by rfl
theorem test_decode_verify : decodeWord 0b00000000000000000000000000001000#32 = .ok .verify := by rfl

/-- R152: words that are no command. -/
theorem test_decode_illegal :
    decodeWord 0x00000000#32 = .error .illegalOpcode ∧ decodeWord 0x0000000F#32 = .error .illegalOpcode ∧
      decodeWord 0x80000001#32 = .error .reservedBits := ⟨rfl, rfl, rfl⟩

/-- R103: the bytes of a word, least significant first; and a list that is too short. -/
theorem test_decode_bytes :
    decodeBytes [0x06, 0, 0, 0, 0xAA] = .ok (.encode, [0xAA]) ∧
      decodeBytes [0x06, 0x01, 0, 0] = .error .reservedBits ∧
      decodeBytes [0x06, 0, 0] = .error .truncated := ⟨rfl, rfl, rfl⟩

theorem test_decode_table_words :
    (decodeTableWord 32 1, decodeTableWord 32 2, decodeTableWord 32 3, decodeTableWord 32 4) =
        (some .qmbuild, some .fdct, some .idct, some .quant) ∧
      (decodeTableWord 32 5, decodeTableWord 32 6, decodeTableWord 32 7, decodeTableWord 32 8) =
        (some .dequant, some .encode, some .decode, some .verify) ∧
      decodeTableWord 32 9 = none := by decide

/-! ## Small states -/

/-- 16-bit elements from an address on. -/
def mem16 (a : Nat) (vs : List Int) (m : Memory) : Memory :=
  writeElems m (vs.zipIdx.map fun p => ⟨a + 2 * p.2, 2, p.1⟩)

/-- 32-bit elements from an address on. -/
def mem32 (a : Nat) (vs : List Int) (m : Memory) : Memory :=
  writeElems m (vs.zipIdx.map fun p => ⟨a + 4 * p.2, 4, p.1⟩)

/-- The 32-bit elements at an address. -/
def words (m : Memory) (a n : Nat) : List Int := (List.range n).map fun k => sext32 (m.readLE (a + 4 * k) 4)

/-- The 16-bit elements at an address. -/
def samples (m : Memory) (a n : Nat) : List Int := (List.range n).map fun k => sext16 (m.readLE (a + 2 * k) 2)

/-- A command on a 2x2 frame at `N = 2`, accepted, in a phase: SRC 0x1000, SRC2 0x1100, DST 0x2000, the QM
corner all 1. -/
def cmdState (i : Instr) (ph : Phase) (m : Memory) : State :=
  { ((State.reset.qmSet 0 1).qmSet 1 1 |>.qmSet 16 1 |>.qmSet 17 1) with
    log2n := 1, dim := 0x00020002, dim2 := 0x00020002, src := 0x1000, src2 := 0x1100, dst := 0x2000
    lastcmd := encode i, busy := true, phase := ph, mem := m }

/-- A property of the next state. -/
def nextIs (o : Host.Outcome State Fault Refusal) (p : State → Bool) : Bool :=
  match o with
  | .next t => p t
  | .fault _ => false
  | .refused _ => false

/-- A refusal, and which. -/
def refusesAs (r : Refusal) (o : Host.Outcome State Fault Refusal) : Bool :=
  match o with
  | .next _ => false
  | .fault _ => false
  | .refused q => decide (q = r)

/-! ## The arithmetic: rows of 95_test_vectors.md -/

theorem test_fdct_FD1 : fdctBlock 2 [[1, 2], [3, 4]] = [[1280, -256], [-512, 0]] := by decide
theorem test_fdct_FD4b : fdctBlock 2 [[32767, -32768], [-32768, 32767]] = [[-256, 0], [0, 16776960]] := by
  decide
theorem test_fdct_FD5 :
    fdctBlock 4 [[100, 0, 0, 0], [0, 0, 0, 0], [0, 0, 0, 0], [0, 0, 0, 0]] =
      [[6400, 8362, 6400, 3464], [8362, 10925, 8362, 4525], [6400, 8362, 6400, 3464],
       [3464, 4525, 3464, 1875]] := by decide
theorem test_idct_ID2_clamps : idctBlock 2 [[2147483647, 0], [0, 0]] = [[32767, 32767], [32767, 32767]] := by
  decide
theorem test_idct_ID5 : idctBlock 2 [[-256, 0], [0, 0]] = [[-1, -1], [-1, -1]] := by decide
theorem test_idct_ID7 :
    (idctBlock 4 [[0, 2048, 0, 0], [0, 0, 0, 0], [0, 0, 0, 0], [0, 0, 0, 0]]).getD 3 [] = [3, 1, -1, -3] := by
  decide
theorem test_quant_ties :
    (quantValue 128 1, quantValue (-128) 1, quantValue 127 1, quantValue 2047 16, quantValue (-2048) 16) =
      (1, -1, 0, 0, -1) := by decide
theorem test_quant_QU10_QU11 :
    (quantValue (-2147483648) 1, quantValue 2147483647 65535) = (-8388608, 128) := by decide
theorem test_deq_clamps :
    (deqValue 2147483647 65535, deqValue 32768 256, deqValue 32767 256, deqValue (-32769) 256) =
      (2147483647, 2147483647, 2147418112, -2147483648) := by decide

/-! ## One step of each command -/

/-- FD-1 as a command: words 1280 -256 / -512 0, DONE, PROGRESS 1. -/
theorem test_fdct_unit :
    nextIs (exec .fdct (cmdState .fdct .run (mem16 0x1000 [1, 2, 3, 4] []))) (fun t =>
      words t.mem 0x2000 4 == [1280, -256, -512, 0] && t.statusWord == 0x002 && t.unit == 1) = true := by
  decide

/-- ID-1. -/
theorem test_idct_unit :
    nextIs (exec .idct (cmdState .idct .run (mem32 0x1000 [1280, -256, -512, 0] []))) (fun t =>
      samples t.mem 0x2000 4 == [1, 2, 3, 4] && t.statusWord == 0x002) = true := by decide

/-- QU-F in place, program P5: the first tile of the 2x4 frame; the second is still to come. -/
theorem test_quant_unit_in_place :
    nextIs (exec .quant { cmdState .quant .run (mem32 0x1000 [1280, -256, 2560, 0, -512, 0, 0, 0] []) with
      dim := 0x00040002, dst := 0x1000 }) (fun t =>
      words t.mem 0x1000 8 == [5, -1, 2560, 0, -2, 0, 0, 0] && t.busy && t.unit == 1) = true := by decide

/-- `deq(q, Q) = q * Q * 256` at Q = 1 (R332). -/
theorem test_dequant_unit :
    nextIs (exec .dequant (cmdState .dequant .run (mem32 0x1000 [5, -1, -2, 0] []))) (fun t =>
      words t.mem 0x2000 4 == [1280, -256, -512, 0] && t.done) = true := by decide

/-- PL-5. -/
theorem test_encode_unit :
    nextIs (exec .encode (cmdState .encode .run (mem16 0x1000 [0, 1, 0, 0] []))) (fun t =>
      words t.mem 0x2000 4 == [1, -1, 1, -1] && t.done) = true := by decide

/-- PL-6. -/
theorem test_decode_unit :
    nextIs (exec .decode (cmdState .decode .run (mem32 0x1000 [1, -1, 1, -1] []))) (fun t =>
      samples t.mem 0x2000 4 == [0, 2, 0, 0] && t.done) = true := by decide

/-- VE-1, its second row: 1 position over 1.0, maximum 3, not passed. -/
theorem test_verify_last_row :
    nextIs (exec .verify { cmdState .verify .run
        (mem16 0x1000 [10, 20, 30, 40] (mem16 0x1100 [10, 21, 27, 40] [])) with
      tol := 0x100, unit := 1, accExceed := 0, accMax := 1 }) (fun t =>
      t.rptExceed == 1 && t.rptTotal == 4 && t.rptMaxerr == 3 && !t.rptPassed && t.done) = true := by decide

/-- VE-5 and VE-6: a difference of 65535 at a tolerance of 65535.0, and just below it. -/
theorem test_verify_tolerance_edge :
    (exceedsTol 0xFFFF00 65535, exceedsTol 0xFFFEFF 65535, exceedsTol 0x100 1, exceedsTol 0xFF 1) =
      (false, true, false, true) := by decide

/-- QB-1, its last row: 16 11 16, QM_UNALIGNED. -/
theorem test_qmbuild_last_row :
    nextIs (exec .qmbuild { ((State.reset : State)) with
      log2n := 1, dim := 0x00030003, dst := 0x4000, lastcmd := 1, busy := true, phase := .run, unit := 2 })
      (fun t => words t.mem 0x4018 3 == [16, 11, 16] && t.statusWord == 0x012) = true := by decide

/-! ## Errors, abort and waiting: rows of the error table -/

/-- S4, P3: `ROWS = 10` at `N = 8`. -/
theorem test_shape_rejected :
    nextIs (exec .encode { State.reset with dim := 0x0008000A, phase := .check, busy := true }) (fun t =>
      t.statusWord == 0x106 && t.errinfo == 4 && t.errdata == 10 && t.mem == []) = true := by decide

/-- QB-6: `QM[2][3] = -1`. -/
theorem test_qmatrix_rejected :
    nextIs (exec .qmbuild { State.reset.qmSet 35 0xFFFFFFFF with
      dim := 0x00080008, dst := 0x2000, phase := .check, busy := true }) (fun t =>
      t.statusWord == 0x206 && t.errinfo == 35 && t.errdata == 0xFFFFFFFF) = true := by decide

/-- ER-14 and ER-17. -/
theorem test_region_errors :
    nextIs (exec .fdct { State.reset with
      dim := 0x00080008, src := 0xFFFFFF82, dst := 0x2000, phase := .check }) (fun t =>
      t.statusWord == 0x306 && t.errinfo == 1) = true ∧
    nextIs (exec .fdct { State.reset with
      dim := 0x00080008, src := 0x1000, dst := 0x0F04, phase := .check }) (fun t =>
      t.statusWord == 0x606 && t.errinfo == 1 && t.errdata == 0x0F04) = true := by decide

/-- ER-21: the read at 0x1006 gets a bus error. -/
theorem test_read_bus_error :
    nextIs (exec .fdct { cmdState .fdct .run (mem16 0x1000 [1, 2, 3, 4] []) with
      answers := [⟨⟨0x1006, 1⟩, true, true, .error⟩] }) (fun t =>
      t.statusWord == 0x706 && t.errinfo == 1 && t.errdata == 0x1006 && t.unit == 0 &&
        t.mem == mem16 0x1000 [1, 2, 3, 4] []) = true := by decide

/-- ER-23: an abort before the first unit. -/
theorem test_abort :
    nextIs (exec .fdct { cmdState .fdct .run [] with abort := true }) (fun t =>
      t.statusWord == 0x806 && t.errdata == 0 && !t.abort) = true := by decide

/-- R225: a read without a response leaves the unit waiting, and then an abort does not end it (R215). -/
theorem test_silent_access_waits :
    nextIs (exec .fdct { cmdState .fdct .run [] with
      abort := true, wait := some ⟨[], [], []⟩, answers := [⟨⟨0x1006, 1⟩, true, false, .silent⟩] }) (fun t =>
      t.wait.isSome && t.phase == .run && t.abort && t.unit == 0) = true := by decide

/-- R225: two reads that are silent in turn. The second answer completes the unit, with the data the first one got
while it waited, although memory reads otherwise by then. -/
theorem test_answered_accesses_stay :
    (let s := { cmdState .fdct .run (mem16 0x1000 [9, 9, 3, 4] []) with
        wait := some ⟨[⟨⟨.src, 0x1000, 2⟩, 1⟩, ⟨⟨.src, 0x1002, 2⟩, 2⟩, ⟨⟨.src, 0x1006, 2⟩, 4⟩], [],
          [⟨.src, 0x1004, 2⟩]⟩
        answers := [⟨⟨0x1000, 4⟩, true, true, .silent⟩] }
     nextIs (exec .fdct s) (fun t =>
       words t.mem 0x2000 4 == [1280, -256, -512, 0] && t.statusWord == 0x002) = true) := by decide

/-! ## Host access, P6 and the HA rows -/

theorem test_ha3_qm_reset :
    (regRead State.reset (regAt 0x100), regRead State.reset (regAt 0x104),
      regRead State.reset (regAt 0x120), regRead State.reset (regAt 0x4FC)) = (16, 11, 1, 1) := by decide

theorem test_ha8_locked_write_dropped :
    (hostWrite 4 0x014 0x00100010 (cmdState .fdct .check [])).dim = 0x00020002 ∧
      (hostWrite 4 0x014 0x00100010 (cmdState .fdct .check [])).statusWord = 0x009 := by decide

theorem test_ha10_status_ack :
    (hostWrite 4 0x008 0xFFFFFFFF { State.reset with done := true, err := true, errcode := 1 }).statusWord =
      0x104 := by decide

theorem test_ha7_abort_ignored_while_idle :
    (hostWrite 4 0x004 3 State.reset).ctrlWord = 1 := by decide

theorem test_ha6_cfg_keeps_three_bits : (hostWrite 4 0x010 0xFFFFFFFF State.reset).cfgWord = 7 := by decide

theorem test_malformed_access : (hostRead 2 0x014 State.reset).hostResp = some .error ∧
    (hostRead 4 0x016 State.reset).hostResp = some .error := by decide

/-- From reset the very next step runs the fetched command: with DIM = 0 it ends with INVALID_SHAPE 2 (R523). -/
theorem test_step_runs_fetched_word :
    nextIs (step (State.reset.withFetchWord 32 8)) (fun t =>
      t.lastcmd == 8 && t.statusWord == 0x106 && t.errinfo == 2) = true := by decide

/-! ## The agents around the engine -/

/-- R124: a host store that no fence orders is under way; a fence makes it visible. -/
theorem test_store_then_fence :
    (hostStore 0x1000 [0x34, 0x12] State.reset).mem = [] ∧
      (hostFence (hostStore 0x1000 [0x34, 0x12] State.reset)).mem.readLE 0x1000 2 = 0x1234 := by decide

/-- R129: without coherent DMA a fence is not enough, a cache clean over the stored bytes is; a clean elsewhere
leaves the store under way. -/
theorem test_incoherent_needs_clean :
    let s := hostStore 0x1000 [7] { State.reset with platform := { Config.platform with dmaCoherent := false } }
    (hostFence s).mem = [] ∧ (cleanCaches 0x1000 1 s).mem = [(0x1000, 7)] ∧ (cleanCaches 0x1004 64 s).mem = [] ∧
      (cleanCaches 0x1004 64 s).pending = s.pending := by decide

/-- R124: a store over two aligned words is under way as two stores, and neither is ever read in half. -/
theorem test_store_splits_at_words :
    (hostStore 0x1002 [1, 2, 3, 4] State.reset).pending = [[(0x1002, 1), (0x1003, 2)], [(0x1004, 3), (0x1005, 4)]] ∧
    (hostStore 0x1000 [1, 2, 3, 4] State.reset).pending.length = 1 := by decide

/-- R124, U18: a store to a source frame of a VERIFY that is fenced only while BUSY stands in memory, and an engine
read still gets it or the older value. -/
theorem test_late_fence_leaves_both_versions :
    let s := hostFence (acceptCommand (encode .verify) (hostStore 0x1000 [7, 0] State.reset))
    s.mem.read 0x1000 = 7 ∧ s.dmaView .src 0x1000 = Memory.writeCells []
      ([[(0x1000, 7), (0x1001, 0)]].take (Config.freePick s.freeCount (16 * 0x1000 + 1) % 2)).flatten :=
  ⟨by decide, rfl⟩

/-- R129: a DST region invalidated in two pieces is stale no more; an invalidation while the command runs does not
count, since the region becomes stale when it ends. -/
theorem test_invalidate_in_pieces :
    (invalidate 0x2008 8 (invalidate 0x2000 8 { State.reset with dmaWritten := [⟨0x2000, 16⟩] })).dmaWritten = [] ∧
    nextIs (exec .fdct (invalidate 0x2000 16 { cmdState .fdct .run [] with
      platform := { Config.platform with dmaCoherent := false } }))
      (fun t => t.done && t.dmaWritten == [⟨0x2000, 16⟩]) = true := by decide

/-- R125, R533: a DST element that the host itself stored to while BUSY is any value to a load of it. -/
theorem test_own_store_to_dst_is_open :
    let s := hostFence (hostStore 0x2000 [7, 0, 0, 0] (cmdState .fdct .run []))
    s.mem.read 0x2000 = 7 ∧ hostByte s 0x2000 = Config.freeByte s.freeCount 0x2000 := ⟨by decide, rfl⟩

/-- R520: reset abandons a command in its check step; memory stays, DONE stays 0, DIM is 0 again. -/
theorem test_reset_step :
    nextIs (step { cmdState .fdct .check [(5, 9)] with agenda := [.reset] }) (fun t =>
      t.mem == [(5, 9)] && t.statusWord == 0 && t.dim == 0 && t.phase == .idle) = true := by decide

/-- Writing the value an unlisted byte reads as removes the entry. -/
theorem test_memory_canonical :
    Memory.write [(3, 1), (7, 2)] 3 0 = [(7, 2)] ∧ Memory.write [(3, 1), (7, 2)] 5 4 = [(3, 1), (5, 4), (7, 2)] ∧
      Memory.wf [(3, 1), (7, 2)] = true ∧ Memory.wf [(7, 2), (3, 1)] = false := by decide


/-! ## Witnesses: a state and operands that meet the hypotheses of each statement that has some -/

/-- StepRunsTheDecodedCommand, clause by clause. -/
theorem wit_step_runs :
    (let s := cmdState .fdct .run []
     s.phase ≠ .idle ∧ decodeWord s.lastcmd = .ok .fdct ∧ s.agenda = []) ∧
    (let s := { cmdState .verify .check [] with agenda := [.engine, .fence] }
     s.phase ≠ .idle ∧ decodeWord s.lastcmd = .ok .verify ∧ s.agenda = .engine :: [.fence]) ∧
    (State.reset.phase = .idle ∧ State.reset.agenda = []) ∧
    (Event.fence ≠ .engine ∧ { State.reset with agenda := [.fence] }.agenda = .fence :: []) := by
  refine ⟨⟨?_, rfl, ?_⟩, ⟨?_, rfl, ?_⟩, ?_, ?_⟩ <;> decide

/-- WrittenCommandRunsNext. -/
theorem wit_written_command :
    (let s := { State.reset with agenda := [.regWrite 4 0x00C (encode .verify), .engine] }
     s.busy = false ∧ s.agenda = .regWrite 4 0x00C (encode .verify) :: .engine :: []) := by decide

/-- IllegalWordEndsItsCommand: a word of each kind of R155, at the ends of the opcode range. -/
theorem wit_illegal_word :
    (let s := { cmdState .fdct .check [] with lastcmd := 0x00000012 }
     s.phase = .check ∧ s.lastcmd.extractLsb' 4 28 ≠ 0#28) ∧
    (let s := { cmdState .fdct .check [] with lastcmd := 0x00000000 }
     s.phase = .check ∧ s.lastcmd.extractLsb' 0 4 = 0#4) ∧
    (let s := { cmdState .fdct .check [] with lastcmd := 0x00000009 }
     s.phase = .check ∧ 9 ≤ (s.lastcmd.extractLsb' 0 4).toNat) ∧
    (let s := { cmdState .fdct .check [] with lastcmd := 0x0000000F }
     s.phase = .check ∧ 9 ≤ (s.lastcmd.extractLsb' 0 4).toNat) := by decide

/-- CmdWriteAccepts, HostWriteDuringACommand, and both halves of LockedWritesStoreOnlyWhileIdle: an idle and a
busy state, with the locked offsets at the ends of their ranges. -/
theorem wit_locked_writes :
    State.reset.busy = false ∧ (cmdState .fdct .run []).busy = true ∧
    (∀ off ∈ [0x00C, 0x010, 0x028], off ∈ [0x00C, 0x010, 0x014, 0x018, 0x01C, 0x020, 0x024, 0x028]) ∧
    (∀ off ∈ [0x100, 0x4FC], off % 4 = 0 ∧ 0x100 ≤ off ∧ off ≤ 0x4FC) := by decide

/-- The effects at those ends: the lock, and the last QM register. -/
theorem wit_locked_writes_effects :
    (hostWrite 4 0x100 7 (cmdState .fdct .run [])).wdrop = true ∧
    (hostWrite 4 0x4FC 7 (cmdState .fdct .run [])).qmGet 15 15 = 1 ∧
    (hostWrite 4 0x4FC 7 State.reset).qmGet 15 15 = 7 ∧
    (hostWrite 4 0x100 7 State.reset).qmGet 0 0 = 7 := by decide

/-- ReadOnlyAndReservedIgnoreWrites: its offsets at the ends of their ranges, none of them locked. -/
theorem wit_reserved_offsets :
    (∀ off ∈ [0x048, 0x0FC, 0x500, 0xFFC],
      off % 4 = 0 ∧ (0x048 ≤ off ∧ off ≤ 0x0FC ∨ 0x500 ≤ off ∧ off ≤ 0xFFC)) ∧
    (∀ off ∈ [0x000, 0x02C, 0x044, 0x048, 0x0FC, 0x500, 0xFFC],
      (hostWrite 4 off 0xFFFFFFFF (cmdState .fdct .run [])).wdrop = false) := by decide

/-- MalformedAccessHasNoEffect: width, alignment, end of the window. -/
theorem wit_malformed : ((2 : Nat) ≠ 4) ∧ (0x016 % 4 ≠ 0) ∧ ((0xFFC : Nat) < 0x1000) := by decide

/-- StatusAndCtrlWritesAct: a word with the bit, and the bit set before. -/
theorem wit_status_ctrl :
    (0x00000002#32).getLsbD 1 = true ∧ { State.reset with done := true, ie := true }.irq = true ∧
    ((0x00000002#32).getLsbD 1 = true ∧ (cmdState .fdct .run []).busy = true) := by decide

/-- InvalidShapeIsReported: a state for each subcode 1 to 7. -/
theorem wit_invalid_shape :
    (let s := { cmdState .fdct .check [] with log2n := 0 }
     s.phase = .check ∧ Instr.fdct ≠ .verify ∧ ¬ (1 ≤ s.log2n.toNat ∧ s.log2n.toNat ≤ 4)) ∧
    (let s := { cmdState .fdct .check [] with log2n := 5 }
     ¬ (1 ≤ s.log2n.toNat ∧ s.log2n.toNat ≤ 4)) ∧
    (let s := { cmdState .fdct .check [] with log2n := 4, dim := 0x00020000 }
     (Instr.fdct ≠ .verify → 1 ≤ s.log2n.toNat ∧ s.log2n.toNat ≤ 4) ∧ s.rows = 0) ∧
    (let s := { cmdState .fdct .check [] with dim := 0x00000002 }
     s.rows ≠ 0 ∧ s.cols = 0) ∧
    (let s := { cmdState .fdct .check [] with dim := 0x00020003 }
     s.rows ≠ 0 ∧ s.cols ≠ 0 ∧ s.rows % 2 ^ s.log2n.toNat ≠ 0) ∧
    (let s := { cmdState .fdct .check [] with dim := 0x00030002 }
     s.rows ≠ 0 ∧ s.cols ≠ 0 ∧ s.rows % 2 ^ s.log2n.toNat = 0 ∧ s.cols % 2 ^ s.log2n.toNat ≠ 0) ∧
    (let s := { cmdState .verify .check [] with dim := 0x00020003 }
     s.rows ≠ 0 ∧ s.cols ≠ 0 ∧ s.rows2 ≠ s.rows) ∧
    (let s := { cmdState .verify .check [] with dim := 0x00030002, log2n := 7 }
     (Instr.verify ≠ .verify → 1 ≤ s.log2n.toNat ∧ s.log2n.toNat ≤ 4) ∧ s.rows ≠ 0 ∧ s.cols ≠ 0 ∧
       s.rows2 = s.rows ∧ s.cols2 ≠ s.cols) := by decide

/-- InvalidQmatrixReportsTheFirstBadEntry: the last entry of the corner is the bad one; and an FDCT that ends. -/
theorem wit_invalid_qmatrix :
    (let s := (cmdState .quant .check []).qmSet 17 65536
     s.phase = .check ∧ checkShape .quant s = none ∧ 1 < s.blockSize ∧
       ¬ (1 ≤ (s.qmGet 1 1).toInt ∧ (s.qmGet 1 1).toInt ≤ 65535) ∧
       (∀ u' < s.blockSize, ∀ v' < s.blockSize, (u' < 1 ∨ (u' = 1 ∧ v' < 1)) →
         1 ≤ (s.qmGet u' v').toInt ∧ (s.qmGet u' v').toInt ≤ 65535)) ∧
    (let s := cmdState .fdct .run []
     s.phase ≠ .idle ∧ nextIs (exec .fdct s) (fun t => decide (t.phase = .idle)) = true) := by decide

/-- FrameErrorsReportTheFirstFrame: DST, the second frame of FDCT, is misaligned; and it does not fit. -/
theorem wit_frame_errors :
    (let s := { cmdState .fdct .check [] with dst := 0x2002 }
     s.phase = .check ∧ checkShape .fdct s = none ∧ checkQm .fdct s = none ∧
       frames .fdct = [(FrameName.src, 2)] ++ (FrameName.dst, 4) :: [] ∧
       (∀ g ∈ [(FrameName.src, 2)], (s.base g.1).toNat % g.2 = 0) ∧ (s.base .dst).toNat % 4 ≠ 0) ∧
    (let s := { cmdState .fdct .check [] with dst := 0xFFFFFFF4 }
     s.phase = .check ∧ checkShape .fdct s = none ∧ checkQm .fdct s = none ∧
       (∀ g ∈ frames .fdct, (s.base g.1).toNat % g.2 = 0) ∧
       (∀ g ∈ [(FrameName.src, 2)], (s.base g.1).toNat + s.rows * s.cols * g.2 ≤ 2 ^ 32) ∧
       2 ^ 32 < (s.base .dst).toNat + s.rows * s.cols * 4) := by decide

/-- OverlapIsReported: the last byte of SRC is the first of DST; and an alias of unequal element sizes. -/
theorem wit_overlap :
    (let s := { cmdState .quant .check [] with dst := 0x100C }
     s.phase = .check ∧ checkShape .quant s = none ∧ checkQm .quant s = none ∧
       checkAlign .quant s = none ∧ checkFit .quant s = none ∧
       (FrameName.src, 4) ∈ frames .quant ∧ (FrameName.dst, 4) ∈ frames .quant ∧
       (s.src.toNat ≤ 0x100F ∧ 0x100F < s.src.toNat + s.rows * s.cols * 4) ∧
       (s.dst.toNat ≤ 0x100F ∧ 0x100F < s.dst.toNat + s.rows * s.cols * 4) ∧
       ¬ (s.src = s.dst ∧ (4 : Nat) = 4)) ∧
    (let s := { cmdState .fdct .check [] with dst := 0x1000 }
     checkAlign .fdct s = none ∧ checkFit .fdct s = none ∧ (FrameName.src, 2) ∈ frames .fdct ∧
       (FrameName.dst, 4) ∈ frames .fdct ∧
       (s.src.toNat ≤ 0x1000 ∧ 0x1000 < s.src.toNat + s.rows * s.cols * 2) ∧
       (s.dst.toNat ≤ 0x1000 ∧ 0x1000 < s.dst.toNat + s.rows * s.cols * 4) ∧
       ¬ (s.src = s.dst ∧ (2 : Nat) = 4)) := by decide

/-- CheckStepIsPrecise and ErrorCodesOfEachCommand: a check step that ends the command, and one that does
not. -/
theorem wit_check_step :
    (let s := { cmdState .fdct .check [] with dim := 0 }
     s.phase = .check ∧ nextIs (exec .fdct s) (fun t => decide (t.phase = .idle)) = true) ∧
    (let s := cmdState .fdct .check []
     s.phase = .check ∧ nextIs (exec .fdct s) (fun t => decide (t.phase = .run)) = true) := by decide

/-- SideEffectRegionIsRefused: SRC ends one byte inside a device; and with the device moved one byte on, not. -/
theorem wit_side_effect :
    (let s := { cmdState .fdct .check [] with
        platform := { Config.platform with devices := [⟨0x1007, 1⟩] } }
     s.phase = .check ∧ check .fdct s = none ∧ refusesAs (.sideEffectRegion 1) (exec .fdct s) = true) ∧
    (let s := { cmdState .fdct .check [] with
        platform := { Config.platform with devices := [⟨0x1008, 1⟩] } }
     s.phase = .check ∧ check .fdct s = none ∧
       nextIs (exec .fdct s) (fun t => decide (t.phase = .run)) = true) ∧
    (let s := { cmdState .fdct .check [] with platform := { Config.platform with regBase := 0x2000 } }
     check .fdct s = none ∧ refusesAs (.sideEffectRegion 3) (exec .fdct s) = true) := by decide

/-- The eight unit statements: a state in which the unit of each command runs. -/
theorem wit_unit_runs :
    ∀ i ∈ [Instr.qmbuild, .fdct, .idct, .quant, .dequant, .encode, .decode, .verify],
      UnitRuns i (cmdState i .run (mem16 0x1000 [1, -2, 3, 4] [])) ∧
        (cmdState i .run (mem16 0x1000 [1, -2, 3, 4] [])).mem.wf = true := by
  unfold UnitRuns UnitDue NotAborted UnitAnswered HostQuiet ReadsAgree
  decide

/-- VerifyUnitResult: the tolerances at their corners (R387), and one frame as both (R381). -/
theorem wit_verify_corners :
    ∀ s ∈ [{ cmdState .verify .run (mem16 0x1000 [5, -5] []) with tol := 0 },
           { cmdState .verify .run (mem16 0x1000 [5, -5] []) with tol := 0xFFFF00 },
           { cmdState .verify .run (mem16 0x1000 [5, -5] []) with src2 := 0x1000 }],
      UnitRuns .verify s ∧ (s.tol = 0#32 ∨ 0xFFFF00 ≤ s.tol.toNat ∨ s.src = s.src2) ∧
        nextIs (exec .verify s) (fun _ => true) = true := by
  unfold UnitRuns UnitDue NotAborted UnitAnswered HostQuiet ReadsAgree
  decide

/-- AbortEndsBetweenUnits. -/
theorem wit_abort :
    (let s := { cmdState .qmbuild .run [] with abort := true, unit := 1 }
     UnitDue .qmbuild s ∧ s.abort = true ∧ s.wait = none ∧ HostQuiet s) := by
  unfold UnitDue HostQuiet
  decide

/-- ReadBusErrorEndsTheCommand: two failing reads. -/
theorem wit_read_bus_error :
    (let s := { cmdState .fdct .run [] with answers := [⟨⟨0x1002, 4⟩, true, true, .error⟩] }
     UnitDue .fdct s ∧ NotAborted s ∧ HostQuiet s ∧
       (∃ a ∈ openReads .fdct s, s.answerOf false a = .error) ∧
       (∀ a ∈ openReads .fdct s, s.answerOf false a ≠ .silent)) := by
  unfold UnitDue NotAborted HostQuiet
  decide

/-- WriteBusErrorEndsTheCommand. -/
theorem wit_write_bus_error :
    (let s := { cmdState .fdct .run [] with answers := [⟨⟨0x200F, 1⟩, true, true, .error⟩] }
     UnitDue .fdct s ∧ NotAborted s ∧ HostQuiet s ∧ s.mem.wf = true ∧
       (∀ a ∈ openReads .fdct s, s.answerOf false a = .ok) ∧
       (∃ a ∈ openWrites .fdct s, s.answerOf true a = .error) ∧
       (∀ a ∈ openWrites .fdct s, s.answerOf true a ≠ .silent)) := by
  unfold UnitDue NotAborted HostQuiet
  decide

/-- An FDCT whose only unit waits: two of its reads have got their data, the last is issued without a response,
and the memory agent answers as given. -/
def waitingRead (answers : List AnswerSpan) : State :=
  { cmdState .fdct .run (mem16 0x1000 [1, -2, 3, 4] []) with
    wait := some ⟨[⟨⟨.src, 0x1000, 2⟩, 1⟩, ⟨⟨.src, 0x1002, 2⟩, 65534⟩], [], [⟨.src, 0x1006, 2⟩]⟩
    answers := answers }

/-- The same with every read done, one write acknowledged, and the last write issued without a response. -/
def waitingWrite (answers : List AnswerSpan) : State :=
  { waitingRead answers with
    wait := some ⟨(unitReads .fdct (waitingRead []) 0).map fun a => ⟨a, (waitingRead []).mem.readLE a.addr a.size⟩,
      [⟨.dst, 0x2000, 4⟩], [⟨.dst, 0x200C, 4⟩]⟩ }

/-- SilentAccessWaits, first part: a read, and a write, without a response, in a unit that is new and in one that
waits. -/
theorem wit_silent :
    (∀ s ∈ [{ cmdState .fdct .run [] with answers := [⟨⟨0x1000, 1⟩, true, false, .silent⟩] },
        waitingRead [⟨⟨0x1007, 1⟩, true, false, .silent⟩], waitingRead [⟨⟨0x1004, 2⟩, true, false, .silent⟩]],
      UnitDue .fdct s ∧ NotAborted s ∧ (∀ a ∈ openReads .fdct s, s.answerOf false a ≠ .error) ∧
        ∃ a ∈ openReads .fdct s, s.answerOf false a = .silent) ∧
    (∀ s ∈ [{ cmdState .fdct .run [] with answers := [⟨⟨0x2000, 1⟩, false, true, .silent⟩] },
        waitingWrite [⟨⟨0x2004, 1⟩, false, true, .silent⟩]],
      UnitDue .fdct s ∧ NotAborted s ∧ (∀ a ∈ openReads .fdct s, s.answerOf false a ≠ .error) ∧
        (∃ a ∈ openWrites .fdct s, s.answerOf true a = .silent) ∧
        ∀ a ∈ openWrites .fdct s, s.answerOf true a ≠ .error) := by
  unfold UnitDue NotAborted
  decide

/-- SilentAccessWaits, second part: an issued read, and an issued write, whose response is a bus error while
another access is silent. -/
theorem wit_silent_then_error :
    (let s := waitingRead [⟨⟨0x1006, 2⟩, true, false, .error⟩, ⟨⟨0x1004, 2⟩, true, false, .silent⟩]
     UnitDue .fdct s ∧ NotAborted s ∧ ⟨.src, 0x1006, 2⟩ ∈ s.waited.asked ∧
       ⟨.src, 0x1006, 2⟩ ∈ openReads .fdct s ∧ s.answerOf false ⟨.src, 0x1006, 2⟩ = .error ∧
       nextIs (exec .fdct s) (fun t => t.statusWord == 0x706 && t.errinfo == 1 && t.errdata == 0x1006) = true) ∧
    (let s := waitingWrite [⟨⟨0x200C, 4⟩, false, true, .error⟩, ⟨⟨0x2004, 4⟩, false, true, .silent⟩]
     UnitDue .fdct s ∧ NotAborted s ∧ ⟨.dst, 0x200C, 4⟩ ∈ s.waited.asked ∧ openReads .fdct s = [] ∧
       ⟨.dst, 0x200C, 4⟩ ∈ openWrites .fdct s ∧ s.answerOf true ⟨.dst, 0x200C, 4⟩ = .error ∧
       nextIs (exec .fdct s) (fun t => t.statusWord == 0x706 && t.errinfo == 3 && t.errdata == 0x200C) = true) := by
  unfold UnitDue NotAborted
  decide

/-- OnlyAbortOrBusErrorEndsARunEarly: each of its three ends. -/
theorem wit_run_ends :
    ∀ s ∈ [{ cmdState .fdct .run [] with abort := true },
           { cmdState .fdct .run [] with answers := [⟨⟨0x1002, 1⟩, true, true, .error⟩] },
           cmdState .fdct .run []],
      s.phase = .run ∧ nextIs (exec .fdct s) (fun t => decide (t.phase = .idle)) = true := by decide

/-- TileCommandWritesItsWholeFrame, for the six tile commands. -/
theorem wit_tile_command :
    ∀ i ∈ [Instr.fdct, .idct, .quant, .dequant, .encode, .decode],
      (let s := cmdState i .check (mem16 0x1000 [1, -2, 3, 4] [])
       isTile i = true ∧ (dstKind i).isSome = true ∧ (decodeWord s.lastcmd).toOption = some i ∧
         s.phase = .check ∧ s.unit = 0 ∧ check i s = none ∧ sideEffectFrame i s = none ∧ RunsFreely s ∧
         s.mem.wf = true) := by
  unfold RunsFreely HostQuiet
  decide

/-- QmbuildWritesTheTiledMatrix and VerifyReportsBothFrames. -/
theorem wit_row_commands :
    ∀ i ∈ [Instr.qmbuild, .verify],
      (let s := cmdState i .check (mem16 0x1000 [1, -2, 3, 4] [])
       (decodeWord s.lastcmd).toOption = some i ∧ s.phase = .check ∧ s.unit = 0 ∧ s.accExceed = 0 ∧
         s.accMax = 0 ∧ check i s = none ∧ sideEffectFrame i s = none ∧ RunsFreely s ∧
         s.mem.wf = true) := by
  unfold RunsFreely HostQuiet
  decide

/-- The state after a run of steps, or the start where it stops. -/
def afterRun (n : Nat) (s : State) : State :=
  match Sys2Proof.core.run n s with
  | .next t => t
  | .fault _ => s
  | .refused _ => s

/-- An endless run: a unit waits for a read, the memory agent begins to answer, the command completes, and from
then on the machine idles. -/
def fairRun : Nat → State
  | 0 => { waitingRead [⟨⟨0x1006, 2⟩, true, false, .silent⟩] with agenda := [.memAgent []] }
  | 1 => { waitingRead [] with freeCount := 1 }
  | n + 2 => { afterRun 1 { waitingRead [] with freeCount := 1 } with freeCount := n + 2 }

/-- FairResponsesEndEveryCommand: an endless run that meets the invariant, whose memory agent is weakly fair, and
in which BUSY is 1 at first. -/
theorem wit_fair_run :
    IsRun fairRun ∧ Inv (fairRun 0) ∧ WeaklyFair fairRun ∧ (fairRun 0).busy = true := by
  refine ⟨fun n => ?_, ⟨?_, ?_, ⟨?_, fun _ => ⟨.fdct, ?_⟩⟩, fun i _ hi => ?_, ?_⟩, fun n a ha => ?_, rfl⟩
  · match n with
    | 0 => rfl
    | 1 => rfl
    | n + 2 => rfl
  · unfold MemInv PendingOk; decide
  · unfold StatusInv; decide
  · decide
  · exact ⟨rfl, by decide⟩
  · obtain rfl : Instr.fdct = i := by injection (show Except.ok Instr.fdct = Except.ok i from hi)
    unfold HostQuiet ReadsAgree; decide
  · unfold ReportInv; decide
  · have h1 : EngineMoves (fairRun 1) := .inl rfl
    have h2 : ∀ a ∈ (fairRun 1).waited.asked, Responds (fairRun 1) a := by unfold Responds; decide
    match n with
    | 0 => exact ⟨1, by decide, h1, .inr (h2 a ha)⟩
    | 1 => exact ⟨1, by decide, h1, .inr (h2 a ha)⟩
    | n + 2 => exact absurd ha (List.not_mem_nil)

/-- FusedEqualsStaged: ENCODE against FDCT and QUANT, on a 2x2 frame, buffers apart; all three runs end without
error. -/
theorem wit_fused :
    (let s := { cmdState .fdct .idle (mem16 0x1000 [0, 1, 0, 0] []) with busy := false }
     let t1 := afterRun 2 (startOn .fdct 0x1000 0x2000 s)
     let t2 := afterRun 2 (startOn .quant 0x2000 0x3000 t1)
     let t3 := afterRun 2 (startOn .encode 0x1000 0x3000 s)
     dstKind .encode = some .quantized ∧ s.agenda = [] ∧ s.answers = [] ∧ s.pending = [] ∧
       s.mem.wf = true ∧ 1 + unitCount .fdct s = 2 ∧ 1 + unitCount .quant s = 2 ∧
       1 + unitCount .encode s = 2 ∧
       (t1.phase = .idle ∧ t1.errcode = 0#4) ∧ (t2.phase = .idle ∧ t2.errcode = 0#4) ∧
       (t3.phase = .idle ∧ t3.errcode = 0#4) ∧ t1.done = true ∧ t2.done = true ∧ t3.done = true) := by
  decide

/-- TilesPartitionTheFrame. -/
theorem wit_tiles :
    isTile .quant = true ∧
      checkShape .quant { cmdState .quant .check [] with dim := 0x00040002 } = none := by decide

/-- The statements about blocks: a sample block with both extremes, a constant and a lone coefficient. -/
theorem wit_blocks :
    LegalSize 2 ∧ IsSampleBlock 2 [[32767, -32768], [0, 1]] ∧ IsBlock 2 [[2147483647, 0], [0, 0]] ∧
      (∀ u < 2, ∀ v < 2, ¬ (u = 0 ∧ v = 0) → blockAt [[2147483647, 0], [0, 0]] u v = 0) := by
  unfold LegalSize IsSampleBlock IsBlock
  decide

/-- QuantRoundsToNearest and DequantClampsOnlyOutOfRange at the ends of their ranges. -/
theorem wit_quant_ranges :
    (∀ a ∈ [(-2 ^ 31 : Int), 2 ^ 31 - 1], -2 ^ 31 ≤ a ∧ a ≤ 2 ^ 31 - 1) ∧
    (∀ q ∈ [(1 : Int), 65535], 1 ≤ q ∧ q ≤ 65535) ∧ |(2 ^ 27 : Int)| ≤ 2 ^ 27 ∧
    deqValue (2 ^ 31 - 1) 1 ≠ (2 ^ 31 - 1) * 1 * 256 := by decide

/-- FencesAndCacheCareMakeMemoryVisible: a store at the end of the DMA space, with a fence and with a clean; and a
stale byte that an invalidation of a part of its region covers, beside one that it does not; and a store to a frame
of a running VERIFY, and one before it whose fence comes after acceptance. -/
theorem wit_fence :
    (State.reset.pending = [] ∧ State.reset.mem.wf = true ∧ 0xFFFFFFFE + [(0x34 : Byte), 0x12].length ≤ 2 ^ 32 ∧
      State.reset.platform.dmaCoherent = true) ∧
    (let s := { State.reset with dmaWritten := [⟨0x2000, 16⟩] }
     s.phase = .idle ∧ s.pending = [] ∧ InElem 0x2004 0x2004 4 ∧ ¬ InElem 0x2008 0x2004 4 ∧
       isStale s 0x2004 = true ∧ isStale (invalidate 0x2004 4 s) 0x2004 = false ∧
       isStale (invalidate 0x2004 4 s) 0x2008 = true) ∧
    (let s := { cmdState .verify .run (mem16 0x1000 [1, 2] []) with memOld := mem16 0x1000 [1, 2] [] }
     s.pending = [] ∧ s.landed = [] ∧ s.wait = none ∧ s.mem.wf = true ∧ s.memOld.wf = true ∧
       s.memOld = s.mem ∧ 0x1002 % 4 + [(7 : Byte), 0].length ≤ 4 ∧ 0x1002 + [(7 : Byte), 0].length ≤ 2 ^ 32 ∧
       (hostFence (hostStore 0x1002 [7, 0] s)).mem.readLE 0x1002 2 ≠ s.mem.readLE 0x1002 2) ∧
    (let s := { State.reset with mem := mem16 0x1000 [1, 2] [] }
     s.busy = false ∧ s.pending = [] ∧ s.landed = [] ∧ s.wait = none ∧ s.mem.wf = true ∧
       (hostFence (acceptCommand (encode .verify) (hostStore 0x1002 [7, 0] s))).landed =
         [[(0x1002, 7), (0x1003, 0)]] ∧
       (hostFence (acceptCommand (encode .verify) (hostStore 0x1002 [7, 0] s))).memOld = s.mem) := by
  unfold InElem
  decide

/-- HostLoadIsOldOrNew: the last write of the unit that is due, in phases RUN and CHECK; the host has disturbed
memory just below SRC and just above DST. -/
theorem wit_host_load :
    ∀ ph ∈ [Phase.run, .check],
      (let s := { cmdState .fdct ph [] with touched := [0x0FFF, 0x2010] }
       (s.phase = .run ∨ s.phase = .check) ∧ decodeWord s.lastcmd = .ok .fdct ∧ check .fdct s = none ∧
         s.pending = [] ∧ s.dmaWritten = [] ∧ 0 < unitCount .fdct s ∧
         ⟨FrameName.dst, 0x200C, 4⟩ ∈ unitWrites .fdct s 0 ∧
         ∀ b ∈ s.touched, ¬ InElem b 0x200C 4 ∧ ∀ r ∈ unitReads .fdct s 0, ¬ InElem b r.addr r.size) := by
  unfold InElem
  intro ph hph
  rcases List.mem_pair.1 hph with rfl | rfl <;> exact ⟨by decide, rfl, by decide⟩

/-- The invariant of a state in phase RUN. -/
theorem wit_inv_run : Inv { cmdState .fdct .run [(5, 9)] with agenda := [.reset] } := by
  refine ⟨?_, ?_, ⟨?_, fun _ => ⟨.fdct, ?_⟩⟩, fun i _ hi => ?_, ?_⟩
  · unfold MemInv PendingOk; decide
  · unfold StatusInv; decide
  · decide
  · exact ⟨rfl, by decide⟩
  · obtain rfl : Instr.fdct = i := by injection (show Except.ok Instr.fdct = Except.ok i from hi)
    unfold HostQuiet ReadsAgree; decide
  · unfold ReportInv; decide

/-- ResetStepResult: a running command at the reset step. -/
theorem wit_reset_step :
    (let s := { cmdState .fdct .run [(5, 9)] with agenda := [.reset] }
     Inv s ∧ HostQuiet s ∧ s.agenda = .reset :: []) := ⟨wit_inv_run, ⟨rfl, rfl, rfl⟩, rfl⟩

/-- StepKeepsMemInv, StepKeepsStatusInv, StepKeepsInv, NoFaultUnderInv, OnlyVerifyWritesTheReport: a state that
meets the invariant, and its step goes on. -/
theorem wit_step_keeps :
    Inv { cmdState .fdct .run [(5, 9)] with agenda := [.reset] } ∧
      nextIs (step { cmdState .fdct .run [(5, 9)] with agenda := [.reset] }) (fun _ => true) = true :=
  ⟨wit_inv_run, by decide⟩

/-- OperandsStayFixedWhileBusy: a check step that passes; a locked write in between. -/
theorem wit_operands_fixed :
    (let s := cmdState .fdct .check []
     s.busy = true ∧ nextIs (step s) (fun t => t.busy) = true) ∧
    (let s := { cmdState .fdct .check [] with agenda := [.regWrite 4 0x014 0] }
     s.busy = true ∧ nextIs (step s) (fun t => t.busy) = true) := by decide

/-- FlagsChangeOnlyAsListed: each change of a flag happens. -/
theorem wit_flags_change :
    nextIs (step { State.reset with agenda := [.regWrite 4 0x00C 1], done := true, err := true, errcode := 1 })
      (fun t => t.busy && !t.done && !t.err) = true ∧
    nextIs (step (cmdState .fdct .run [])) (fun t => !t.busy && t.done && !t.err) = true ∧
    nextIs (step { cmdState .fdct .check [] with dim := 0 }) (fun t => t.err) = true ∧
    nextIs (step { State.reset with agenda := [.regWrite 4 0x008 10], done := true, wdrop := true })
      (fun t => !t.done && !t.wdrop) = true ∧
    nextIs (step { cmdState .fdct .run [] with agenda := [.regWrite 4 0x4FC 1] }) (fun t => t.wdrop) = true ∧
    nextIs (step { cmdState .qmbuild .run [] with dim := 0x00030001 }) (fun t => t.qmUnaligned) = true ∧
    nextIs (step { State.reset with agenda := [.regWrite 4 0x00C 1], qmUnaligned := true })
      (fun t => !t.qmUnaligned) = true ∧
    nextIs (step { cmdState .fdct .run [] with agenda := [.regWrite 4 0x004 2] }) (fun t => t.abort) = true ∧
    nextIs (step { cmdState .fdct .run [] with abort := true }) (fun t => !t.abort) = true ∧
    nextIs (step { cmdState .verify .run [] with unit := 1 }) (fun t => t.rptPassed) = true := by decide

/-- IrqRisesOnlyByCompletionOrEnable: both ways. -/
theorem wit_irq :
    (let s := { cmdState .fdct .run [] with ie := true }
     s.irq = false ∧ nextIs (step s) (fun t => t.irq) = true) ∧
    (let s := { State.reset with done := true, agenda := [.regWrite 4 0x004 1] }
     s.irq = false ∧ nextIs (step s) (fun t => t.irq) = true) := by decide

/-- UnreadRegistersDoNotMatter: the change of the registers FDCT does not read; and for QUANT a QM file that agrees on
the 2x2 corner and differs just outside it. -/
theorem wit_unread :
    (∃ alter : State → State, ∀ r : State, alter r =
      { r with dim2 := 7, src2 := 9, tol := 11, qm := State.reset.qm }) ∧
    (let s := cmdState .quant .check []
     let q := ((s.qmSet 2 0).qmSet 32 0).qm
     (∀ u < 16, ∀ v < 16, u < s.blockSize → v < s.blockSize → q.get (qmIndex u v) = s.qmGet u v) ∧
       q.get (qmIndex 0 2) ≠ s.qmGet 0 2 ∧ q.get (qmIndex 2 0) ≠ s.qmGet 2 0 ∧
       ∃ alter : State → State, ∀ r : State, alter r = { r with dim2 := 7, src2 := 9, tol := 11, qm := q }) :=
  ⟨⟨_, fun _ => rfl⟩, by decide, by decide, by decide, _, fun _ => rfl⟩

end Sys2Proof.Tests
end

section
/-! PROOFS. What the registers and the QM file hold after reset (R66, R54). -/

namespace Sys2Proof.Machine

/-! ## The QM file in row-major order (R53) -/

/-- A table laid out row by row, `w` entries to a row, holds entry `(u, v)` at index `w * u + v`. -/
theorem getElem?_rowMajor {α : Type} (f : Nat → Nat → α) {n w u v : Nat} (hu : u < n) (hv : v < w) :
    ((List.range n).flatMap fun u => (List.range w).map (f u))[w * u + v]? = some (f u v) := by
  induction n with
  | zero => omega
  | succ n ih =>
    have hlen : ((List.range n).flatMap fun u => (List.range w).map (f u)).length = w * n := by
      simp [List.length_flatMap, Nat.mul_comm]
    rw [List.range_succ, List.flatMap_append]
    obtain hlt | rfl := Nat.lt_succ_iff_lt_or_eq.1 hu
    · have hrow : w * u + v < w * n :=
        calc w * u + v < w * (u + 1) := by rw [Nat.mul_succ]; omega
          _ ≤ w * n := Nat.mul_le_mul_left w hlt
      rw [List.getElem?_append_left (by rwa [hlen]), ih hlt]
    · rw [List.getElem?_append_right (by omega), hlen, Nat.add_sub_cancel_left]
      simp [hv]

theorem qmIndex_val {u v : Nat} (hu : u < 16) (hv : v < 16) : (qmIndex u v).val = 16 * u + v :=
  Nat.mod_eq_of_lt (by omega)

/-! ## The reset state -/

/-- R54: the reset matrix, entry by entry. -/
theorem qmGet_resetOn (p : Platform) {u v : Nat} (hu : u < 16) (hv : v < 16) :
    (State.resetOn p).qmGet u v = qmResetEntry u v := by
  have hentry := getElem?_rowMajor qmResetEntry hu hv
  rw [← qmIndex_val hu hv] at hentry
  exact (List.getElem_eq_iff _).2 hentry

/-- In the corner the default of the lookup is never reached: a row of `QC` has 8 entries. -/
theorem qmResetEntry_eq (u v : Nat) :
    qmResetEntry u v = if u < 8 ∧ v < 8 then (qmCanonical.getD u []).getD v 0 else 1#32 := by
  have hrow : ∀ u < 8, (qmCanonical.getD u []).length = 8 := by decide
  unfold qmResetEntry
  split_ifs with hc
  · obtain ⟨hu, hv⟩ := hc
    rw [← hrow u hu] at hv
    rw [List.getD_eq_getElem _ _ hv, List.getD_eq_getElem _ _ hv]
  · rfl

/-- Settles O50: every register and hidden field by its own reset value, the QM file entry by entry. -/
theorem resetValues : Obligations.ResetValues := by
  rintro p s rfl
  refine ⟨rfl, rfl, rfl, rfl, rfl, rfl, rfl, rfl, rfl, rfl, rfl, rfl, rfl, rfl, rfl, rfl, rfl, rfl, rfl,
    rfl, rfl, rfl, rfl, fun u hu v hv => ?_⟩
  rw [qmGet_resetOn p hu hv, qmResetEntry_eq, qmCanonical]

end Sys2Proof.Machine
end

section
/-! PROOFS. The decoder as a lookup in the opcode map (R151, R152). -/

namespace Sys2Proof

/-- R151: the `OPC` column numbers the commands from 1, in the order of the map. -/
theorem instrOfOpc_eq_getElem?_all (opc : BitVec 4) :
    instrOfOpc opc = if 1 ≤ opc.toNat ∧ opc.toNat ≤ 8 then Instr.all[opc.toNat - 1]? else none := by
  revert opc
  decide

/-- R152: which command a word names, its reason for being illegal left out. -/
theorem toOption_decodeWord (w : Word) :
    (decodeWord w).toOption = if rsvField w = 0#28 then instrOfOpc (opcField w) else none := by
  by_cases hrsv : rsvField w = 0#28
  · cases hopc : instrOfOpc (opcField w) <;>
      simp [decodeWord, rsvIsZero, hrsv, hopc, Except.toOption]
  · simp [decodeWord, rsvIsZero, hrsv, Except.toOption]

/-- Settles O3: the decoder checks RSV, then looks the opcode up in the map. -/
theorem wordIsLegalExactlyByTheMap : Obligations.WordIsLegalExactlyByTheMap := by
  intro w
  rw [toOption_decodeWord, instrOfOpc_eq_getElem?_all]
  exact (ite_and ..).symm

end Sys2Proof
end

section
/-! PROOFS. A host write to CMD: acceptance while idle, the lock while busy (R201, R415). -/

namespace Sys2Proof.Machine

/-- R33, R201: a 32-bit write at the offset of CMD is well formed and, unless BUSY locks it, accepts its word. -/
theorem hostWrite_cmd (w : Word) (s : State) :
    hostWrite 4 0x00C w s = respond .ack (whenIdle s (acceptCommand w)) :=
  hostWrite_of_ok (by decide)

/-- Settles O7: while idle the write is `acceptCommand`, while busy only the lock's `WDROP`. -/
theorem cmdWriteAccepts : Obligations.CmdWriteAccepts := by
  refine ⟨fun s w hidle => ?idle, fun s w hbusy => ?busy⟩
  case idle =>
    rw [hostWrite_cmd, whenIdle_idle hidle]
    exact ⟨none, [], [], s.mem, some .ack, rfl⟩
  case busy =>
    rw [hostWrite_cmd, whenIdle_busy hbusy]
    exact ⟨some .ack, rfl⟩

end Sys2Proof.Machine
end

section
/-! PROOFS. The rounding shift and the clamp of R9, and blocks given by their elements (R10). -/

namespace Sys2Proof.Machine

open Finset

/-! ## Rounding and clamping (R9) -/

theorem clamp_eq_self {v lo hi : Int} (hlo : lo ≤ v) (hhi : v ≤ hi) : clamp v lo hi = v := by
  rw [clamp, if_neg (by omega), if_neg (by omega)]

theorem sgn_mul_natAbs (a : Int) : sgn a * a.natAbs = a := by
  unfold sgn
  split_ifs with h <;> omega

theorem abs_sgn (a : Int) : |sgn a| = 1 := by
  unfold sgn
  split_ifs <;> rfl

/-- R9: the rounding shift is off by at most half a unit. -/
theorem two_mul_abs_rshr_sub_le (a : Int) {k : Nat} (hk : 0 < k) : 2 * |2 ^ k * rshr a k - a| ≤ 2 ^ k := by
  obtain ⟨j, rfl⟩ := Nat.exists_eq_succ_of_ne_zero hk.ne'
  have hnat : ∀ p m : Nat, 0 < p → 2 * |(2 * p : Int) * ((m + p) / (2 * p) : Nat) - m| ≤ 2 * p := by
    intro p m hp
    have hdiv := Nat.div_add_mod (m + p) (2 * p)
    have hmod := Nat.mod_lt (m + p) (show 0 < 2 * p by omega)
    have hcast : (2 * p : Int) * ((m + p) / (2 * p) : Nat) = (2 * p * ((m + p) / (2 * p)) : Nat) := by
      push_cast; rfl
    rw [hcast, abs_eq_max_neg]
    omega
  have hmul : 2 ^ (j + 1) * rshr a (j + 1) - a =
      sgn a * (2 * (2 ^ j : Nat) * ((a.natAbs + 2 ^ j) / (2 * 2 ^ j) : Nat) - a.natAbs) := by
    rw [mul_sub, sgn_mul_natAbs, rshr, Nat.add_sub_cancel, ← pow_succ']
    push_cast
    ring
  rw [hmul, abs_mul, abs_sgn, one_mul, pow_succ']
  exact_mod_cast hnat (2 ^ j) a.natAbs (by positivity)

/-- What lies less than half a unit from `b` is rounded to `b`. -/
theorem rshr_eq_of_near {a b : Int} {k : Nat} (hk : 0 < k) (h : 2 * |a - 2 ^ k * b| < 2 ^ k) :
    rshr a k = b := by
  have hround := two_mul_abs_rshr_sub_le a hk
  have htri := abs_sub_le (2 ^ k * rshr a k) a (2 ^ k * b)
  have hpos : (0 : Int) < 2 ^ k := by positivity
  rw [← mul_sub, abs_mul, abs_of_pos hpos] at htri
  have hlt : 2 ^ k * |rshr a k - b| < 2 ^ k * 1 := by linarith
  exact sub_eq_zero.1 (Int.abs_lt_one_iff.1 (lt_of_mul_lt_mul_left hlt hpos.le))

/-- An exact multiple of the unit is not rounded. -/
theorem rshr_two_pow_mul (b : Int) {k : Nat} (hk : 0 < k) : rshr (2 ^ k * b) k = b :=
  rshr_eq_of_near hk (by simp)

/-! ## Elements of a block -/

theorem IsBlock.length_getD {b : Block} {n x : Nat} (hb : IsBlock n b) (hx : x < n) :
    (b.getD x []).length = n := by
  obtain ⟨hlen, hrows⟩ := hb
  rw [List.getD_eq_getElem b [] (by omega)]
  exact hrows _ (List.getElem_mem _)

theorem getElem_eq_blockAt {b : Block} {x y : Nat} (hx : x < b.length) (hy : y < b[x].length) :
    b[x][y] = blockAt b x y := by
  simp [blockAt, hx, hy]

/-- R10: a block is given by its elements. -/
theorem IsBlock.ext {b c : Block} {n : Nat} (hb : IsBlock n b) (hc : IsBlock n c)
    (heq : ∀ x < n, ∀ y < n, blockAt b x y = blockAt c x y) : b = c := by
  obtain ⟨hblen, hbrows⟩ := hb
  obtain ⟨hclen, hcrows⟩ := hc
  refine List.ext_getElem (by omega) fun x hbx hcx => List.ext_getElem ?_ fun y hby hcy => ?_
  · rw [hbrows _ (List.getElem_mem _), hcrows _ (List.getElem_mem _)]
  · rw [getElem_eq_blockAt, getElem_eq_blockAt]
    exact heq x (by omega) y (by rw [← hbrows _ (List.getElem_mem hbx)]; exact hby)

/-- R102: the elements of a sample block are 16-bit samples. -/
theorem IsSampleBlock.blockAt_bounds {f : Block} {n x y : Nat} (hf : IsSampleBlock n f) (hx : x < n)
    (hy : y < n) : -32768 ≤ blockAt f x y ∧ blockAt f x y ≤ 32767 := by
  obtain ⟨⟨hlen, hrows⟩, hvals⟩ := hf
  have hx' : x < f.length := by omega
  have hy' : y < f[x].length := by rwa [hrows _ (List.getElem_mem _)]
  rw [← getElem_eq_blockAt hx' hy']
  exact hvals _ (List.getElem_mem _) _ (List.getElem_mem _)

theorem IsSampleBlock.abs_blockAt_le {f : Block} {n x y : Nat} (hf : IsSampleBlock n f) (hx : x < n)
    (hy : y < n) : |blockAt f x y| ≤ 32768 := by
  have hbounds := hf.blockAt_bounds hx hy
  rw [abs_le]
  omega

/-- Two nested maps over lists of length `n`, as the block functions of R287 and R288 use them, make a block. -/
theorem isBlock_map_map {α β : Type} {n : Nat} {l : List α} {m : List β} (g : α → β → Int)
    (hl : l.length = n) (hm : m.length = n) : IsBlock n (l.map fun a => m.map fun b => g a b) := by
  refine ⟨by simpa, fun row hrow => ?_⟩
  obtain ⟨a, -, rfl⟩ := List.mem_map.1 hrow
  simpa

theorem blockAt_map_map {α β : Type} {n x y : Nat} {l : List α} {m : List β} (g : α → β → Int) (a : α)
    (b : β) (hl : l.length = n) (hm : m.length = n) (hx : x < n) (hy : y < n) :
    blockAt (l.map fun a => m.map fun b => g a b) x y = g (l.getD x a) (m.getD y b) := by
  simp [blockAt, hl, hm, hx, hy]

theorem isBlock_constBlock (n : Nat) (c : Int) : IsBlock n (constBlock n c) :=
  ⟨by simp [constBlock], fun row hrow => by simp [List.eq_of_mem_replicate hrow]⟩

theorem blockAt_constBlock {n x y : Nat} (c : Int) (hx : x < n) (hy : y < n) :
    blockAt (constBlock n c) x y = c := by
  simp [blockAt, constBlock, hx, hy]

theorem isSampleBlock_constBlock (n : Nat) {c : Int} (hlo : -32768 ≤ c) (hhi : c ≤ 32767) :
    IsSampleBlock n (constBlock n c) := by
  refine ⟨isBlock_constBlock n c, fun row hrow a ha => ?_⟩
  rw [List.eq_of_mem_replicate hrow] at ha
  rw [List.eq_of_mem_replicate ha]
  exact ⟨hlo, hhi⟩

end Sys2Proof.Machine
end

section
/-! PROOFS. The block transforms as double sums over indices (R287, R288). -/

namespace Sys2Proof.Machine

open Finset

/-! ## The sums of the model as sums over a range -/

theorem sum_zipWith_eq_sum {α β : Type} (g : α → β → Int) (a : α) (b : β) {n : Nat} :
    ∀ {l : List α} {m : List β}, l.length = n → m.length = n →
      (List.zipWith g l m).sum = ∑ i ∈ range n, g (l.getD i a) (m.getD i b) := by
  induction n with
  | zero =>
    intro l m hl _
    simp [List.length_eq_zero_iff.1 hl]
  | succ n ih =>
    intro l m hl hm
    obtain ⟨x, l, rfl⟩ := List.exists_cons_of_length_eq_add_one hl
    obtain ⟨y, m, rfl⟩ := List.exists_cons_of_length_eq_add_one hm
    simp [sum_range_succ', ih (by simpa using hl) (by simpa using hm), add_comm]

theorem doubleSum_eq_sum {n : Nat} {p q : List Int} {f : Block} (hp : p.length = n) (hq : q.length = n)
    (hf : IsBlock n f) :
    doubleSum p q f = ∑ x ∈ range n, ∑ y ∈ range n, p.getD x 0 * q.getD y 0 * blockAt f x y := by
  rw [doubleSum, sum_zipWith_eq_sum _ 0 [] hp hf.1]
  exact sum_congr rfl fun x hx => sum_zipWith_eq_sum _ 0 0 hq (hf.length_getD (mem_range.1 hx))

/-- The sum `S` of R287, before its rounding. -/
def forwardSum (n : Nat) (f : Nat → Nat → Int) (u v : Nat) : Int :=
  ∑ x ∈ range n, ∑ y ∈ range n, cosEntry n u x * cosEntry n v y * f x y

/-- The sum `S` of R288, before its rounding. -/
def inverseSum (n : Nat) (g : Nat → Nat → Int) (x y : Nat) : Int :=
  ∑ u ∈ range n, ∑ v ∈ range n, cosEntry n u x * cosEntry n v y * g u v

theorem fdctValue_eq (n : Nat) (f : Nat → Nat → Int) (u v : Nat) :
    fdctValue n f u v = clamp (rshr (forwardSum n f u v) 52) (-2 ^ 31) (2 ^ 31 - 1) := rfl

theorem idctValue_eq (n : Nat) (g : Nat → Nat → Int) (x y : Nat) :
    idctValue n g x y = clamp (rshr (inverseSum n g x y) 68) (-32768) 32767 := rfl

/-! ## The block functions, element by element -/

/-- R283 to R286: the table of a legal size has `n` rows of `n` entries. -/
theorem isBlock_cosTable {n : Nat} (hn : LegalSize n) : IsBlock n (cosTable n) := by
  obtain rfl | rfl | rfl | rfl := hn <;> exact ⟨rfl, by decide⟩

theorem length_cosColumns (n : Nat) : (cosColumns n).length = n := by
  simp [cosColumns]

theorem length_getD_cosColumns {n x : Nat} (hx : x < n) : ((cosColumns n).getD x []).length = n := by
  simp [cosColumns, hx]

theorem getD_getD_cosColumns {n u x : Nat} (hu : u < n) (hx : x < n) :
    ((cosColumns n).getD x []).getD u 0 = cosEntry n u x := by
  simp [cosColumns, hu, hx]

theorem isBlock_fdctBlock {n : Nat} (hn : LegalSize n) (f : Block) : IsBlock n (fdctBlock n f) :=
  have hlen := (isBlock_cosTable hn).1
  isBlock_map_map _ hlen hlen

theorem isBlock_idctBlock (n : Nat) (g : Block) : IsBlock n (idctBlock n g) :=
  isBlock_map_map _ (length_cosColumns n) (length_cosColumns n)

/-- R287: the forward block function computes the rule's value at every position. -/
theorem blockAt_fdctBlock {n u v : Nat} {f : Block} (hn : LegalSize n) (hf : IsBlock n f) (hu : u < n)
    (hv : v < n) : blockAt (fdctBlock n f) u v = fdctValue n (blockAt f) u v := by
  have htable := isBlock_cosTable hn
  rw [fdctBlock, blockAt_map_map _ [] [] htable.1 htable.1 hu hv,
    doubleSum_eq_sum (htable.length_getD hu) (htable.length_getD hv) hf]
  rfl

/-- R288: the inverse block function computes the rule's value at every position. -/
theorem blockAt_idctBlock {n x y : Nat} {g : Block} (hg : IsBlock n g) (hx : x < n) (hy : y < n) :
    blockAt (idctBlock n g) x y = idctValue n (blockAt g) x y := by
  have hlen := length_cosColumns n
  rw [idctBlock, blockAt_map_map _ [] [] hlen hlen hx hy,
    doubleSum_eq_sum (length_getD_cosColumns hx) (length_getD_cosColumns hy) hg, idctValue_eq, inverseSum]
  congr 2
  refine sum_congr rfl fun u hu => sum_congr rfl fun v hv => ?_
  rw [getD_getD_cosColumns (mem_range.1 hu) hx, getD_getD_cosColumns (mem_range.1 hv) hy]

end Sys2Proof.Machine
end

section
/-! PROOFS. The exact facts about the cosine tables that R290, R292 and R293 rest on. -/

namespace Sys2Proof.Machine

open Finset

/-- Entry `(x, z)` of `Tᵀ·T`, the table composed with its transpose: `2^60` times the identity, but for the
rounding of the table (R281, R282). -/
def gramEntry (n x z : Nat) : Int := ∑ u ∈ range n, cosEntry n u x * cosEntry n u z

/-- `Tᵀ·T` applied to a column of values. -/
def gramApply (n : Nat) (h : Nat → Int) (x : Nat) : Int := ∑ z ∈ range n, gramEntry n x z * h z

/-- How large the columns of `T_N` are, and how far `Tᵀ·T` is from `2^60` times the identity. -/
structure TableBounds (n : Nat) (col gram : Int) : Prop where
  abs_col_sum_le : ∀ x < n, ∑ u ∈ range n, |cosEntry n u x| ≤ col
  abs_gram_sum_le : ∀ x < n,
    ∑ z ∈ range n, |gramEntry n x z - if x = z then 2 ^ 60 else 0| ≤ gram

theorem tableBounds_two : TableBounds 2 1518500250 18184274 := ⟨by decide, by decide⟩

theorem tableBounds_four : TableBounds 4 2065749919 1461566898 := ⟨by decide, by decide⟩

theorem tableBounds_eight : TableBounds 8 2836660528 3592751444 := ⟨by decide, by decide⟩

theorem tableBounds_sixteen : TableBounds 16 3942345760 3387292408 := ⟨by decide, by decide⟩

/-- R290: the size of the table's rows. -/
theorem abs_row_sum_le {n u : Nat} (hn : LegalSize n) (hu : u < n) :
    ∑ x ∈ range n, |cosEntry n u x| ≤ 2 ^ 32 := by
  have htable : ∀ n ∈ [2, 4, 8, 16], ∀ u < n, ∑ x ∈ range n, |cosEntry n u x| ≤ 2 ^ 32 := by decide
  exact htable n (by simpa [LegalSize] using hn) u hu

/-- R282: every row of the table but the first sums to 0. -/
theorem sum_cosEntry_eq_zero {n u : Nat} (hn : LegalSize n) (hu : u < n) (hpos : u ≠ 0) :
    ∑ x ∈ range n, cosEntry n u x = 0 := by
  have htable : ∀ n ∈ [2, 4, 8, 16], ∀ u < n, u ≠ 0 → ∑ x ∈ range n, cosEntry n u x = 0 := by decide
  exact htable n (by simpa [LegalSize] using hn) u hu hpos

/-- R283 to R286: the first row of the table is constant. -/
theorem cosEntry_zero {n x : Nat} (hn : LegalSize n) (hx : x < n) : cosEntry n 0 x = cosEntry n 0 0 := by
  have htable : ∀ n ∈ [2, 4, 8, 16], ∀ x < n, cosEntry n 0 x = cosEntry n 0 0 := by decide
  exact htable n (by simpa [LegalSize] using hn) x hx

end Sys2Proof.Machine
end

section
/-! PROOFS. The forward transform of samples stays in range (R290), and what it makes of constant blocks (R293). -/

namespace Sys2Proof.Machine

open Finset

/-! ## No clamp in the forward direction (R290) -/

theorem abs_sum_sum_mul_le {n : Nat} {p q : Nat → Int} {g : Nat → Nat → Int} {B : Int}
    (hg : ∀ x < n, ∀ y < n, |g x y| ≤ B) :
    |∑ x ∈ range n, ∑ y ∈ range n, p x * q y * g x y| ≤
      (∑ x ∈ range n, |p x|) * (∑ y ∈ range n, |q y|) * B := by
  rw [sum_mul_sum, sum_mul]
  refine (abs_sum_le_sum_abs _ _).trans (sum_le_sum fun x hx => ?_)
  rw [sum_mul]
  refine (abs_sum_le_sum_abs _ _).trans (sum_le_sum fun y hy => ?_)
  rw [abs_mul, abs_mul]
  exact mul_le_mul_of_nonneg_left (hg x (mem_range.1 hx) y (mem_range.1 hy)) (by positivity)

/-- R289: the bound on the sum of R287 for samples. -/
theorem abs_forwardSum_le {n u v : Nat} {f : Nat → Nat → Int} (hn : LegalSize n)
    (hf : ∀ x < n, ∀ y < n, |f x y| ≤ 32768) (hu : u < n) (hv : v < n) :
    |forwardSum n f u v| ≤ 2 ^ 79 := by
  calc |forwardSum n f u v|
      ≤ (∑ x ∈ range n, |cosEntry n u x|) * (∑ y ∈ range n, |cosEntry n v y|) * 32768 :=
        abs_sum_sum_mul_le hf
    _ ≤ 2 ^ 32 * 2 ^ 32 * 32768 := by
        gcongr
        · exact abs_row_sum_le hn hu
        · exact abs_row_sum_le hn hv
    _ = 2 ^ 79 := by norm_num

theorem abs_rshr_le_of_abs_le {a : Int} (ha : |a| ≤ 2 ^ 79) : |rshr a 52| ≤ 2 ^ 27 := by
  have hround := two_mul_abs_rshr_sub_le a (show 0 < 52 by decide)
  rw [abs_le] at ha ⊢
  rw [abs_eq_max_neg] at hround
  omega

/-- R290, for a block given by its values. -/
theorem fdctValue_of_samples {n u v : Nat} {f : Nat → Nat → Int} (hn : LegalSize n)
    (hf : ∀ x < n, ∀ y < n, |f x y| ≤ 32768) (hu : u < n) (hv : v < n) :
    |fdctValue n f u v| ≤ 2 ^ 27 ∧ fdctValue n f u v = rshr (forwardSum n f u v) 52 := by
  have hbound := abs_rshr_le_of_abs_le (abs_forwardSum_le hn hf hu hv)
  have hclamp : fdctValue n f u v = rshr (forwardSum n f u v) 52 := by
    obtain ⟨hlo, hhi⟩ := abs_le.1 hbound
    rw [fdctValue_eq, clamp_eq_self (by omega) (by omega)]
  exact ⟨hclamp ▸ hbound, hclamp⟩

/-- R290: the forward coefficients of a sample block. -/
theorem blockAt_fdctBlock_of_samples {n u v : Nat} {f : Block} (hn : LegalSize n) (hf : IsSampleBlock n f)
    (hu : u < n) (hv : v < n) :
    |blockAt (fdctBlock n f) u v| ≤ 2 ^ 27 ∧
      blockAt (fdctBlock n f) u v = rshr (forwardSum n (blockAt f) u v) 52 := by
  rw [blockAt_fdctBlock hn hf.1 hu hv]
  exact fdctValue_of_samples hn (fun _ hx _ hy => hf.abs_blockAt_le hx hy) hu hv

/-- Settles O41: the sum is at most `2^79`, so its rounding is far inside the range of the clamp. -/
theorem forwardTransformNeverClamps : Obligations.ForwardTransformNeverClamps :=
  fun _ _ hn hf _ hu _ hv => blockAt_fdctBlock_of_samples hn hf hu hv

/-! ## Constant blocks and lone DC words (R293) -/

theorem forwardSum_constBlock (n : Nat) (c : Int) (u v : Nat) :
    forwardSum n (blockAt (constBlock n c)) u v =
      (∑ x ∈ range n, cosEntry n u x) * (∑ y ∈ range n, cosEntry n v y) * c := by
  rw [forwardSum, sum_mul_sum, sum_mul]
  refine sum_congr rfl fun x hx => ?_
  rw [sum_mul]
  refine sum_congr rfl fun y hy => ?_
  rw [blockAt_constBlock c (mem_range.1 hx) (mem_range.1 hy)]

theorem forwardSum_constBlock_of_ne {n u v : Nat} (c : Int) (hn : LegalSize n) (hu : u < n) (hv : v < n)
    (huv : ¬ (u = 0 ∧ v = 0)) : forwardSum n (blockAt (constBlock n c)) u v = 0 := by
  rw [forwardSum_constBlock]
  by_cases hu0 : u = 0
  · rw [sum_cosEntry_eq_zero hn hv fun hv0 => huv ⟨hu0, hv0⟩, mul_zero, zero_mul]
  · rw [sum_cosEntry_eq_zero hn hu hu0, zero_mul, zero_mul]

theorem forwardSum_constBlock_zero {n : Nat} (c : Int) (hn : LegalSize n) :
    forwardSum n (blockAt (constBlock n c)) 0 0 = cosEntry n 0 0 * cosEntry n 0 0 * (n * n * c) := by
  have hrow : ∑ x ∈ range n, cosEntry n 0 x = n * cosEntry n 0 0 := by
    rw [sum_congr rfl fun x hx => cosEntry_zero hn (mem_range.1 hx), sum_const, card_range, nsmul_eq_mul]
  rw [forwardSum_constBlock, hrow]
  ring

/-- R293, first bullet: a constant block has no coefficient but the one at `(0, 0)`. -/
theorem blockAt_fdct_constBlock_of_ne {n u v : Nat} {c : Int} (hn : LegalSize n) (hlo : -32768 ≤ c)
    (hhi : c ≤ 32767) (hu : u < n) (hv : v < n) (huv : ¬ (u = 0 ∧ v = 0)) :
    blockAt (fdctBlock n (constBlock n c)) u v = 0 := by
  rw [(blockAt_fdctBlock_of_samples hn (isSampleBlock_constBlock n hlo hhi) hu hv).2,
    forwardSum_constBlock_of_ne c hn hu hv huv]
  rfl

/-- R293, first and second bullet: the coefficient at `(0, 0)` of a constant block. -/
theorem blockAt_fdct_constBlock_zero {n : Nat} {c : Int} (hn : LegalSize n) (hlo : -32768 ≤ c)
    (hhi : c ≤ 32767) :
    blockAt (fdctBlock n (constBlock n c)) 0 0 = rshr (cosEntry n 0 0 * cosEntry n 0 0 * (n * n * c)) 52 := by
  have hpos : 0 < n := by unfold LegalSize at hn; omega
  rw [(blockAt_fdctBlock_of_samples hn (isSampleBlock_constBlock n hlo hhi) hpos hpos).2,
    forwardSum_constBlock_zero c hn]

/-- R284, R286: where `T_N[0][0]` is a power of two, the coefficient of a constant block is exact. -/
theorem rshr_constBlock_zero_exact {n : Nat} (hn : n = 4 ∨ n = 16) (c : Int) :
    rshr (cosEntry n 0 0 * cosEntry n 0 0 * (n * n * c)) 52 = n * c * 256 := by
  have hsquare : cosEntry n 0 0 * cosEntry n 0 0 * n = 2 ^ 52 * 256 := by
    obtain rfl | rfl := hn <;> decide
  rw [show cosEntry n 0 0 * cosEntry n 0 0 * (n * n * c) = 2 ^ 52 * (n * c * 256) by
    linear_combination hsquare * (n * c)]
  exact rshr_two_pow_mul _ (by decide)

theorem inverseSum_of_lone_dc {n x y : Nat} {g : Nat → Nat → Int} (hn : LegalSize n) (hx : x < n)
    (hy : y < n) (hg : ∀ u < n, ∀ v < n, ¬ (u = 0 ∧ v = 0) → g u v = 0) :
    inverseSum n g x y = cosEntry n 0 0 * cosEntry n 0 0 * g 0 0 := by
  have hmem : 0 ∈ range n := mem_range.2 (by omega)
  rw [inverseSum, sum_eq_single_of_mem 0 hmem fun u hu hu0 => ?rows,
    sum_eq_single_of_mem 0 hmem fun v hv hv0 => ?column, cosEntry_zero hn hx, cosEntry_zero hn hy]
  case rows =>
    refine sum_eq_zero fun v hv => ?_
    rw [hg u (mem_range.1 hu) v (mem_range.1 hv) fun h => hu0 h.1, mul_zero]
  case column =>
    rw [hg 0 (mem_range.1 hmem) v (mem_range.1 hv) fun h => hv0 h.2, mul_zero]

/-- R293, third bullet: a block whose only word is at `(0, 0)` has a constant inverse. -/
theorem idctBlock_of_lone_dc {n : Nat} {g : Block} (hn : LegalSize n) (hblock : IsBlock n g)
    (hg : ∀ u < n, ∀ v < n, ¬ (u = 0 ∧ v = 0) → blockAt g u v = 0) :
    idctBlock n g = constBlock n
      (clamp (rshr (cosEntry n 0 0 * cosEntry n 0 0 * blockAt g 0 0) 68) (-32768) 32767) := by
  refine (isBlock_idctBlock n g).ext (isBlock_constBlock n _) fun x hx y hy => ?_
  rw [blockAt_idctBlock hblock hx hy, blockAt_constBlock _ hx hy, idctValue_eq,
    inverseSum_of_lone_dc hn hx hy hg]

/-- Settles O43: the sums over the table's rows give the coefficients of a constant block. -/
theorem constantBlocks : Obligations.ConstantBlocks := by
  refine ⟨fun n c hn hlo hhi u hu v hv huv => ?others, fun n c hn hlo hhi => ?exact,
    fun n c hn hlo hhi => ?rounded, ?rule, fun n g hn hblock hg => ?inverse⟩
  case others => exact blockAt_fdct_constBlock_of_ne hn hlo hhi hu hv huv
  case exact =>
    rw [blockAt_fdct_constBlock_zero (by unfold LegalSize; omega) hlo hhi, rshr_constBlock_zero_exact hn]
  case rounded => exact blockAt_fdct_constBlock_zero (by unfold LegalSize; omega) hlo hhi
  case rule =>
    rw [blockAt_fdct_constBlock_zero (by unfold LegalSize; omega) (by decide) (by decide)]
    decide
  case inverse => exact ⟨_, idctBlock_of_lone_dc hn hblock hg⟩

end Sys2Proof.Machine
end

section
/-! PROOFS. The inverse transform undoes the forward transform of every sample block (R292). -/

namespace Sys2Proof.Machine

open Finset

/-! ## The transforms composed, without rounding -/

/-- Both double sums are separable (R289), so their composition applies `Tᵀ·T` to the rows and the columns. -/
theorem inverseSum_forwardSum (n : Nat) (f : Nat → Nat → Int) (x y : Nat) :
    inverseSum n (forwardSum n f) x y = gramApply n (fun z => gramApply n (f z) y) x := by
  have hinverse : inverseSum n (forwardSum n f) x y =
      ∑ p ∈ range n ×ˢ range n, ∑ q ∈ range n ×ˢ range n,
        cosEntry n p.1 x * cosEntry n p.2 y * (cosEntry n p.1 q.1 * cosEntry n p.2 q.2 * f q.1 q.2) := by
    simp only [inverseSum, forwardSum, mul_sum, sum_product]
  have hgram : gramApply n (fun z => gramApply n (f z) y) x =
      ∑ q ∈ range n ×ˢ range n, ∑ p ∈ range n ×ˢ range n,
        cosEntry n p.1 x * cosEntry n p.2 y * (cosEntry n p.1 q.1 * cosEntry n p.2 q.2 * f q.1 q.2) := by
    simp only [gramApply, sum_product, mul_sum]
    refine sum_congr rfl fun z _ => sum_congr rfl fun w _ => ?_
    rw [← mul_assoc, gramEntry, gramEntry, sum_mul_sum, sum_mul]
    refine sum_congr rfl fun u _ => ?_
    rw [sum_mul]
    exact sum_congr rfl fun v _ => by ring
  rw [hinverse, hgram]
  exact sum_comm

section
variable {n : Nat} {col gram : Int}

/-- Applying `Tᵀ·T` to values of at most `B` is multiplying them by `2^60`, up to `gram * B`. -/
theorem TableBounds.abs_gramApply_sub_le (htable : TableBounds n col gram) {x : Nat} (hx : x < n)
    {h : Nat → Int} {B : Int} (hh : ∀ z < n, |h z| ≤ B) :
    |gramApply n h x - 2 ^ 60 * h x| ≤ gram * B := by
  have hsplit : gramApply n h x - 2 ^ 60 * h x =
      ∑ z ∈ range n, (gramEntry n x z - if x = z then 2 ^ 60 else 0) * h z := by
    simp [gramApply, sub_mul, hx]
  have hB : 0 ≤ B := (abs_nonneg _).trans (hh x hx)
  rw [hsplit]
  calc |∑ z ∈ range n, (gramEntry n x z - if x = z then 2 ^ 60 else 0) * h z|
      ≤ ∑ z ∈ range n, |(gramEntry n x z - if x = z then 2 ^ 60 else 0) * h z| := abs_sum_le_sum_abs _ _
    _ ≤ ∑ z ∈ range n, |gramEntry n x z - if x = z then 2 ^ 60 else 0| * B := by
        refine sum_le_sum fun z hz => ?_
        rw [abs_mul]
        exact mul_le_mul_of_nonneg_left (hh z (mem_range.1 hz)) (abs_nonneg _)
    _ ≤ gram * B := by
        rw [← sum_mul]
        exact mul_le_mul_of_nonneg_right (htable.abs_gram_sum_le x hx) hB

/-- Without any rounding of coefficients, the error of the round trip is that of the table alone. -/
theorem TableBounds.abs_inverseSum_forwardSum_sub_le (htable : TableBounds n col gram) {x y : Nat} (hx : x < n)
    (hy : y < n) {f : Nat → Nat → Int} {B : Int} (hf : ∀ x < n, ∀ y < n, |f x y| ≤ B) :
    |inverseSum n (forwardSum n f) x y - 2 ^ 120 * f x y| ≤ B * (gram * (2 ^ 61 + gram)) := by
  have hrow : ∀ z < n, |gramApply n (f z) y - 2 ^ 60 * f z y| ≤ gram * B := fun z hz =>
    htable.abs_gramApply_sub_le hy (hf z hz)
  have hsize : ∀ z < n, |gramApply n (f z) y| ≤ (2 ^ 60 + gram) * B := by
    intro z hz
    have hfz := hf z hz y hy
    have hrowz := hrow z hz
    rw [abs_le] at hfz hrowz ⊢
    constructor <;> linarith
  have hcol := htable.abs_gramApply_sub_le hx hsize
  have hrowx := hrow x hx
  rw [inverseSum_forwardSum]
  rw [abs_le] at hrowx hcol ⊢
  constructor <;> linarith

theorem inverseSum_scaled_sub (n : Nat) (k : Int) (g h : Nat → Nat → Int) (x y : Nat) :
    inverseSum n (fun u v => k * g u v - h u v) x y = k * inverseSum n g x y - inverseSum n h x y := by
  simp only [inverseSum, mul_sum, ← sum_sub_distrib]
  exact sum_congr rfl fun u _ => sum_congr rfl fun v _ => by ring

/-! ## The round trip -/

/-- The error of the inverse transform of coefficients that are each within `d / 2^52` of the exact sum of R287:
that of the table, and that of the coefficients carried through the inverse. -/
theorem TableBounds.abs_inverseSum_sub_le (htable : TableBounds n col gram) {x y : Nat} (hx : x < n)
    (hy : y < n) {f g : Nat → Nat → Int} {B d : Int} (hf : ∀ x < n, ∀ y < n, |f x y| ≤ B)
    (hg : ∀ u < n, ∀ v < n, |2 ^ 52 * g u v - forwardSum n f u v| ≤ d) :
    2 ^ 52 * |inverseSum n g x y - 2 ^ 68 * f x y| ≤ B * (gram * (2 ^ 61 + gram)) + col * col * d := by
  have htable_error := htable.abs_inverseSum_forwardSum_sub_le hx hy hf
  have hd : 0 ≤ d := (abs_nonneg _).trans (hg x hx y hy)
  have hcol : 0 ≤ col := (sum_nonneg fun _ _ => abs_nonneg _).trans (htable.abs_col_sum_le x hx)
  have hcoefficients : |2 ^ 52 * inverseSum n g x y - inverseSum n (forwardSum n f) x y| ≤ col * col * d := by
    rw [← inverseSum_scaled_sub]
    refine (abs_sum_sum_mul_le hg).trans ?_
    gcongr
    · exact htable.abs_col_sum_le x hx
    · exact htable.abs_col_sum_le y hy
  calc 2 ^ 52 * |inverseSum n g x y - 2 ^ 68 * f x y|
      = |2 ^ 52 * inverseSum n g x y - 2 ^ 120 * f x y| := by
        rw [← abs_of_pos (show (0 : Int) < 2 ^ 52 by norm_num), ← abs_mul]
        ring_nf
    _ ≤ B * (gram * (2 ^ 61 + gram)) + col * col * d := by
        rw [add_comm]
        exact (abs_sub_le _ _ _).trans (add_le_add hcoefficients htable_error)

end

/-- R292's bounds on the error before the final rounding, in ten-thousandths. -/
def RoundTripBound (n : Nat) (bound : Int) : Prop :=
  (n = 2 ∧ bound = 40) ∨ (n = 4 ∧ bound = 81) ∨ (n = 8 ∧ bound = 192) ∨ (n = 16 ∧ bound = 406)

theorem RoundTripBound.legalSize {n : Nat} {bound : Int} (hn : RoundTripBound n bound) : LegalSize n := by
  unfold RoundTripBound at hn
  unfold LegalSize
  omega

theorem RoundTripBound.lt_half {n : Nat} {bound : Int} (hn : RoundTripBound n bound) : 2 * bound < 10000 := by
  unfold RoundTripBound at hn
  omega

/-- R292's bounds come from two errors: the error of the table on samples, and half a unit for the rounding of each
coefficient. -/
theorem RoundTripBound.exists_tableBounds {n : Nat} {bound : Int} (hn : RoundTripBound n bound) :
    ∃ col gram, TableBounds n col gram ∧
      10000 * (32768 * (gram * (2 ^ 61 + gram)) + col * col * 2 ^ 51) ≤ 2 ^ 52 * (bound * 2 ^ 68) := by
  obtain ⟨rfl, rfl⟩ | ⟨rfl, rfl⟩ | ⟨rfl, rfl⟩ | ⟨rfl, rfl⟩ := hn
  · exact ⟨_, _, tableBounds_two, by decide⟩
  · exact ⟨_, _, tableBounds_four, by decide⟩
  · exact ⟨_, _, tableBounds_eight, by decide⟩
  · exact ⟨_, _, tableBounds_sixteen, by decide⟩

/-- R292: before its final rounding the inverse is within `bound / 10000` of the sample. -/
theorem abs_inverseSum_fdctBlock_sub_le {n x y : Nat} {f : Block} {bound : Int}
    (hn : RoundTripBound n bound) (hf : IsSampleBlock n f) (hx : x < n) (hy : y < n) :
    10000 * |inverseSum n (blockAt (fdctBlock n f)) x y - 2 ^ 68 * blockAt f x y| ≤ bound * 2 ^ 68 := by
  obtain ⟨col, gram, htable, hbound⟩ := hn.exists_tableBounds
  have hround : ∀ u < n, ∀ v < n,
      |2 ^ 52 * blockAt (fdctBlock n f) u v - forwardSum n (blockAt f) u v| ≤ 2 ^ 51 := by
    intro u hu v hv
    have hhalf := two_mul_abs_rshr_sub_le (forwardSum n (blockAt f) u v) (show 0 < 52 by decide)
    rw [(blockAt_fdctBlock_of_samples hn.legalSize hf hu hv).2]
    linarith
  have herror := htable.abs_inverseSum_sub_le hx hy (fun _ hx _ hy => hf.abs_blockAt_le hx hy) hround
  linarith

/-- Settles O42: the error before the final rounding is below half a unit, so the rounding removes it. -/
theorem roundTripIsExact : Obligations.RoundTripIsExact := by
  intro n f bound hn hf
  change RoundTripBound n bound at hn
  refine ⟨?exact, fun x hx y hy => abs_inverseSum_fdctBlock_sub_le hn hf hx hy⟩
  refine (isBlock_idctBlock n _).ext hf.1 fun x hx y hy => ?_
  have herror := abs_inverseSum_fdctBlock_sub_le hn hf hx hy
  have hhalf := hn.lt_half
  have hround : rshr (inverseSum n (blockAt (fdctBlock n f)) x y) 68 = blockAt f x y :=
    rshr_eq_of_near (by decide) (by omega)
  obtain ⟨hlo, hhi⟩ := hf.blockAt_bounds hx hy
  rw [blockAt_idctBlock (isBlock_fdctBlock hn.legalSize f) hx hy, idctValue_eq, hround, clamp_eq_self hlo hhi]

end Sys2Proof.Machine
end

section
/-! PROOFS. Where the elements of a frame and of its tiles lie (R104, R105, R330). -/

namespace Sys2Proof.Machine

theorem mul_add_inj {n a b x y : Nat} (hx : x < n) (hy : y < n) (h : a * n + x = b * n + y) :
    a = b ∧ x = y := by
  have hpos : 0 < n := by omega
  obtain ⟨hdiv, hmod⟩ := (Nat.div_mod_unique hpos).2 ⟨show x + n * a = a * n + x by ring, hx⟩
  obtain ⟨hdiv', hmod'⟩ := (Nat.div_mod_unique hpos).2 ⟨show y + n * b = b * n + y by ring, hy⟩
  rw [h] at hdiv hmod
  exact ⟨hdiv.symm.trans hdiv', hmod.symm.trans hmod'⟩

/-! ## Elements of a frame (R104) -/

/-- Different positions of a frame hold elements that share no byte. -/
theorem elemAddr_apart {s : State} {f : FrameName} {e i j i' j' : Nat} (hj : j < s.cols) (hj' : j' < s.cols)
    (hne : (i, j) ≠ (i', j')) :
    s.elemAddr f e i j + e ≤ s.elemAddr f e i' j' ∨ s.elemAddr f e i' j' + e ≤ s.elemAddr f e i j := by
  have hidx : i * s.cols + j ≠ i' * s.cols + j' := fun h => hne (by
    obtain ⟨rfl, rfl⟩ := mul_add_inj hj hj' h
    rfl)
  unfold State.elemAddr
  obtain hlt | hlt := Nat.lt_or_gt_of_ne hidx
  · have hmul := Nat.mul_le_mul_right e (Nat.succ_le_of_lt hlt)
    rw [Nat.succ_mul] at hmul
    omega
  · have hmul := Nat.mul_le_mul_right e (Nat.succ_le_of_lt hlt)
    rw [Nat.succ_mul] at hmul
    omega

/-- Every byte of a frame's region is a byte of one of its elements. -/
theorem exists_elemAddr_of_inRegion {s : State} {f : FrameName} {e a : Nat} (he : 0 < e)
    (ha : InElem a (s.base f).toNat (s.frameBytes e)) :
    ∃ i < s.rows, ∃ j < s.cols, InElem a (s.elemAddr f e i j) e := by
  obtain ⟨d, rfl⟩ := Nat.exists_eq_add_of_le ha.1
  have hd : d < s.rows * s.cols * e := by have := ha.2; unfold State.frameBytes at this; omega
  have hidx : d / e < s.rows * s.cols := Nat.div_lt_of_lt_mul (by rwa [Nat.mul_comm])
  have hcols : 0 < s.cols := by
    by_contra h0
    simp [Nat.eq_zero_of_not_pos h0] at hidx
  refine ⟨d / e / s.cols, Nat.div_lt_of_lt_mul (by rwa [Nat.mul_comm]), d / e % s.cols, Nat.mod_lt _ hcols, ?_⟩
  have hsplit := Nat.div_add_mod' d e
  have hmod := Nat.mod_lt d he
  unfold InElem State.elemAddr
  rw [Nat.div_add_mod']
  omega

/-! ## Tiles (R105, R330) -/

/-- A tile command's legal shape is cut into tiles without remainder. -/
theorem tile_mul_blockSize {i : Instr} {s : State} (hi : isTile i = true) (hs : checkShape i s = none) :
    s.tileRows * s.blockSize = s.rows ∧ s.tileCols * s.blockSize = s.cols := by
  obtain ⟨-, -, -, htile, -⟩ := (checkShape_eq_none_iff i s).1 hs
  obtain ⟨hr, hc⟩ := htile hi
  exact ⟨Nat.div_mul_cancel (Nat.dvd_of_mod_eq_zero hr), Nat.div_mul_cancel (Nat.dvd_of_mod_eq_zero hc)⟩

theorem unitCount_of_tile {i : Instr} (hi : isTile i = true) (s : State) :
    unitCount i s = s.tileRows * s.tileCols := by
  rw [unitCount, if_pos hi]

/-- A tile command whose shape is legal has at least one tile. -/
theorem unitCount_pos {i : Instr} {s : State} (hi : isTile i = true) (hs : checkShape i s = none) :
    0 < unitCount i s := by
  obtain ⟨-, hrows, hcols, -⟩ := (checkShape_eq_none_iff i s).1 hs
  obtain ⟨hr, hc⟩ := tile_mul_blockSize hi hs
  rw [unitCount_of_tile hi]
  refine Nat.mul_pos (Nat.pos_of_ne_zero fun h => hrows ?_) (Nat.pos_of_ne_zero fun h => hcols ?_)
  · rw [← hr, h, Nat.zero_mul]
  · rw [← hc, h, Nat.zero_mul]

/-- R38, R11: the block size of a legal shape. -/
theorem legalSize_blockSize {i : Instr} {s : State} (hi : isTile i = true) (hs : checkShape i s = none) :
    LegalSize s.blockSize := by
  obtain ⟨hlog, -⟩ := (checkShape_eq_none_iff i s).1 hs
  have hlog := hlog (isTile_usesBlockSize hi)
  simp only [log2nLegal, Bool.and_eq_true, decide_eq_true_eq] at hlog
  obtain ⟨hlo, hhi⟩ := hlog
  unfold LegalSize State.blockSize
  interval_cases s.log2n.toNat <;> simp

theorem tilePos_inFrame {i : Instr} {s : State} {t x y : Nat} (hi : isTile i = true)
    (hs : checkShape i s = none) (ht : t < unitCount i s) (hx : x < s.blockSize) (hy : y < s.blockSize) :
    (s.tilePos t x y).1 < s.rows ∧ (s.tilePos t x y).2 < s.cols := by
  refine unitPositions_inFrame hs ht _ ?_
  rw [unitPositions, if_pos hi]
  exact List.mem_map.2 ⟨(x, y), mem_blockPositions.2 ⟨hx, hy⟩, rfl⟩

/-- No position belongs to two tiles, or twice to one. -/
theorem tilePos_inj {s : State} {t t' x x' y y' : Nat} (hx : x < s.blockSize) (hx' : x' < s.blockSize)
    (hy : y < s.blockSize) (hy' : y' < s.blockSize) (h : s.tilePos t x y = s.tilePos t' x' y') :
    t = t' ∧ x = x' ∧ y = y' := by
  obtain ⟨hrow, hcol⟩ := Prod.mk.inj h
  obtain ⟨hdiv, hxx⟩ := mul_add_inj hx hx' hrow
  obtain ⟨hmod, hyy⟩ := mul_add_inj hy hy' hcol
  refine ⟨?_, hxx, hyy⟩
  rw [← Nat.div_add_mod t s.tileCols, hdiv, hmod, Nat.div_add_mod]

/-- Every position of the frame belongs to a tile. -/
theorem exists_tilePos_eq {i : Instr} {s : State} {r c : Nat} (hi : isTile i = true)
    (hs : checkShape i s = none) (hr : r < s.rows) (hc : c < s.cols) :
    ∃ t < unitCount i s, ∃ x < s.blockSize, ∃ y < s.blockSize, s.tilePos t x y = (r, c) := by
  obtain ⟨hrows, hcols⟩ := tile_mul_blockSize hi hs
  have hn := blockSize_pos s
  have hk : r / s.blockSize < s.tileRows := Nat.div_lt_of_lt_mul (by rwa [Nat.mul_comm, hrows])
  have hl : c / s.blockSize < s.tileCols := Nat.div_lt_of_lt_mul (by rwa [Nat.mul_comm, hcols])
  have htiles : 0 < s.tileCols := (Nat.zero_le _).trans_lt hl
  refine ⟨r / s.blockSize * s.tileCols + c / s.blockSize, ?_, r % s.blockSize, Nat.mod_lt _ hn,
    c % s.blockSize, Nat.mod_lt _ hn, ?_⟩
  · rw [unitCount_of_tile hi]
    calc r / s.blockSize * s.tileCols + c / s.blockSize
        < (r / s.blockSize + 1) * s.tileCols := by rw [Nat.add_mul, Nat.one_mul]; omega
      _ ≤ s.tileRows * s.tileCols := Nat.mul_le_mul_right _ hk
  · obtain ⟨hdiv, hmod⟩ := (Nat.div_mod_unique htiles).2
      ⟨show c / s.blockSize + s.tileCols * (r / s.blockSize) =
        r / s.blockSize * s.tileCols + c / s.blockSize by ring, hl⟩
    rw [State.tilePos, hdiv, hmod, Nat.div_add_mod', Nat.div_add_mod']

/-- Elements of a tiled frame at different tile positions share no byte. -/
theorem tileAddr_apart {i : Instr} {s : State} {f : FrameName} {k : FrameKind} {t t' x x' y y' : Nat}
    (hi : isTile i = true) (hs : checkShape i s = none) (ht : t < unitCount i s) (ht' : t' < unitCount i s)
    (hx : x < s.blockSize) (hy : y < s.blockSize) (hx' : x' < s.blockSize) (hy' : y' < s.blockSize)
    (hne : ¬ (t = t' ∧ x = x' ∧ y = y')) :
    tileAddr s f k t x y + k.esize ≤ tileAddr s f k t' x' y' ∨
      tileAddr s f k t' x' y' + k.esize ≤ tileAddr s f k t x y :=
  elemAddr_apart (tilePos_inFrame hi hs ht hx hy).2 (tilePos_inFrame hi hs ht' hx' hy').2
    fun h => hne (tilePos_inj hx hx' hy hy' h)

theorem tileAddr_inRegion {i : Instr} {s : State} (f : FrameName) (k : FrameKind) {t x y : Nat}
    (hi : isTile i = true) (hs : checkShape i s = none) (ht : t < unitCount i s) (hx : x < s.blockSize)
    (hy : y < s.blockSize) :
    (s.base f).toNat ≤ tileAddr s f k t x y ∧
      tileAddr s f k t x y + k.esize ≤ (s.base f).toNat + s.frameBytes k.esize :=
  have h := tilePos_inFrame hi hs ht hx hy
  elemAddr_inRegion h.1 h.2

/-- Every byte of a tiled frame is a byte of an element of one of its tiles. -/
theorem exists_tileAddr_of_inRegion {i : Instr} {s : State} {f : FrameName} {k : FrameKind} {a : Nat}
    (hi : isTile i = true) (hs : checkShape i s = none)
    (ha : InElem a (s.base f).toNat (s.frameBytes k.esize)) :
    ∃ t < unitCount i s, ∃ x < s.blockSize, ∃ y < s.blockSize, InElem a (tileAddr s f k t x y) k.esize := by
  obtain ⟨r, hr, c, hc, hmem⟩ := exists_elemAddr_of_inRegion (by cases k <;> decide) ha
  obtain ⟨t, ht, x, hx, y, hy, hpos⟩ := exists_tilePos_eq hi hs hr hc
  obtain ⟨rfl, rfl⟩ := Prod.mk.inj hpos
  exact ⟨t, ht, x, hx, y, hy, hmem⟩

end Sys2Proof.Machine
end

section
/-! PROOFS. The work of a tile unit, as the values that the rules give its elements (R295, R296, R335 to R338). -/

namespace Sys2Proof.Machine

open Finset

/-! ## Blocks given by a function of the position -/

theorem isBlock_range (n : Nat) (g : Nat → Nat → Int) :
    IsBlock n ((List.range n).map fun x => (List.range n).map fun y => g x y) :=
  isBlock_map_map g List.length_range List.length_range

theorem blockAt_range {n x y : Nat} (g : Nat → Nat → Int) (hx : x < n) (hy : y < n) :
    blockAt ((List.range n).map fun x => (List.range n).map fun y => g x y) x y = g x y := by
  rw [blockAt_map_map g 0 0 List.length_range List.length_range hx hy]
  simp [hx, hy]

theorem isBlock_zipBlock {n : Nat} {b steps : Block} (f : Int → Int → Int) (hb : IsBlock n b)
    (hsteps : IsBlock n steps) : IsBlock n (zipBlock f b steps) := by
  obtain ⟨hblen, hbrows⟩ := hb
  obtain ⟨hslen, hsrows⟩ := hsteps
  refine ⟨by simp [zipBlock, hblen, hslen], fun row hrow => ?_⟩
  obtain ⟨x, hx, rfl⟩ := List.getElem_of_mem hrow
  simp only [zipBlock, List.getElem_zipWith, List.length_zipWith]
  rw [hbrows _ (List.getElem_mem _), hsrows _ (List.getElem_mem _), min_self]

/-- R333: the step of a position is the one at the same place. -/
theorem blockAt_zipBlock {n x y : Nat} {b steps : Block} (f : Int → Int → Int) (hb : IsBlock n b)
    (hsteps : IsBlock n steps) (hx : x < n) (hy : y < n) :
    blockAt (zipBlock f b steps) x y = f (blockAt b x y) (blockAt steps x y) := by
  have hbx : x < b.length := by rwa [hb.1]
  have hsx : x < steps.length := by rwa [hsteps.1]
  have hby : y < b[x].length := by rwa [hb.2 _ (List.getElem_mem _)]
  have hsy : y < steps[x].length := by rwa [hsteps.2 _ (List.getElem_mem _)]
  rw [← getElem_eq_blockAt hbx hby, ← getElem_eq_blockAt hsx hsy]
  simp [blockAt, zipBlock, hbx, hsx, hby, hsy]

section
variable {n x y : Nat} {b steps : Block} (hb : IsBlock n b) (hsteps : IsBlock n steps)
include hb hsteps

theorem isBlock_quantBlock : IsBlock n (quantBlock steps b) := isBlock_zipBlock _ hb hsteps

theorem isBlock_deqBlock : IsBlock n (deqBlock steps b) := isBlock_zipBlock _ hb hsteps

/-- R335: the block function of QUANT at a position. -/
theorem blockAt_quantBlock (hx : x < n) (hy : y < n) :
    blockAt (quantBlock steps b) x y = quantValue (blockAt b x y) (blockAt steps x y) :=
  blockAt_zipBlock _ hb hsteps hx hy

/-- R336: the block function of DEQUANT at a position. -/
theorem blockAt_deqBlock (hx : x < n) (hy : y < n) :
    blockAt (deqBlock steps b) x y = deqValue (blockAt b x y) (blockAt steps x y) :=
  blockAt_zipBlock _ hb hsteps hx hy

end

/-! ## The transforms depend on the block only -/

theorem fdctValue_congr {n : Nat} {f g : Nat → Nat → Int} (h : ∀ x < n, ∀ y < n, f x y = g x y) (u v : Nat) :
    fdctValue n f u v = fdctValue n g u v := by
  rw [fdctValue_eq, fdctValue_eq, forwardSum, forwardSum]
  congr 2
  exact sum_congr rfl fun x hx => sum_congr rfl fun y hy => by rw [h x (mem_range.1 hx) y (mem_range.1 hy)]

theorem idctValue_congr {n : Nat} {f g : Nat → Nat → Int} (h : ∀ u < n, ∀ v < n, f u v = g u v) (x y : Nat) :
    idctValue n f x y = idctValue n g x y := by
  rw [idctValue_eq, idctValue_eq, inverseSum, inverseSum]
  congr 2
  exact sum_congr rfl fun u hu => sum_congr rfl fun v hv => by rw [h u (mem_range.1 hu) v (mem_range.1 hv)]

/-! ## The rules of the tile commands as functions of the tile they read -/

/-- What the rule of a tile command makes of a source tile with the values `g` (R295, R296, R335 to R338). -/
def tileRule (i : Instr) (s : State) (g : Nat → Nat → Int) (x y : Nat) : Int :=
  match i with
  | .fdct => fdctValue s.blockSize g x y
  | .idct => idctValue s.blockSize g x y
  | .quant => quantValue (g x y) (s.qmStep x y)
  | .dequant => deqValue (g x y) (s.qmStep x y)
  | .encode => quantValue (fdctValue s.blockSize g x y) (s.qmStep x y)
  | .decode => idctValue s.blockSize (fun u v => deqValue (g u v) (s.qmStep u v)) x y
  | .qmbuild => 0
  | .verify => 0

/-- The value that memory holds for element `(x, y)` of tile `t` of the source frame, by its kind (R102). -/
def sourceValue (k : FrameKind) (s : State) (t x y : Nat) : Int :=
  match k with
  | .sample => srcSample s t x y
  | .coefficient => srcWord s t x y
  | .quantized => srcWord s t x y
  | .tiledQm => srcWord s t x y

theorem tileValue_eq_tileRule {i : Instr} {ks : FrameKind} (hks : srcKind i = some ks) (s : State) (t : Nat) :
    tileValue i s t = tileRule i s (sourceValue ks s t) := by
  cases i <;> cases hks <;> rfl

theorem tileRule_congr (i : Instr) (s : State) {g h : Nat → Nat → Int}
    (heq : ∀ x < s.blockSize, ∀ y < s.blockSize, g x y = h x y) {x y : Nat} (hx : x < s.blockSize)
    (hy : y < s.blockSize) : tileRule i s g x y = tileRule i s h x y := by
  cases i with
  | fdct => exact fdctValue_congr heq x y
  | idct => exact idctValue_congr heq x y
  | quant => exact congrArg (quantValue · (s.qmStep x y)) (heq x hx y hy)
  | dequant => exact congrArg (deqValue · (s.qmStep x y)) (heq x hx y hy)
  | encode => exact congrArg (quantValue · (s.qmStep x y)) (fdctValue_congr heq x y)
  | decode => exact idctValue_congr (fun u hu v hv => by rw [heq u hu v hv]) x y
  | qmbuild => rfl
  | verify => rfl

/-- The block function of each tile command (R295, R296, R335 to R338). -/
def tileBlock (i : Instr) (s : State) (b : Block) : Block :=
  match i with
  | .fdct => fdctBlock s.blockSize b
  | .idct => idctBlock s.blockSize b
  | .quant => quantBlock s.qmBlock b
  | .dequant => deqBlock s.qmBlock b
  | .encode => quantBlock s.qmBlock (fdctBlock s.blockSize b)
  | .decode => idctBlock s.blockSize (deqBlock s.qmBlock b)
  | .qmbuild => b
  | .verify => b

theorem isBlock_qmBlock (s : State) : IsBlock s.blockSize s.qmBlock := isBlock_range _ _

theorem blockAt_qmBlock {s : State} {u v : Nat} (hu : u < s.blockSize) (hv : v < s.blockSize) :
    blockAt s.qmBlock u v = s.qmStep u v := blockAt_range _ hu hv

theorem exists_srcKind_of_tile {i : Instr} (hi : isTile i = true) : ∃ ks, srcKind i = some ks := by
  cases i <;> cases hi <;> exact ⟨_, rfl⟩

/-- Every tile command's block function gives each element the value of the command's rule. -/
theorem blockAt_tileBlock {i : Instr} {s : State} {b : Block} {x y : Nat} (hi : isTile i = true)
    (hn : LegalSize s.blockSize) (hb : IsBlock s.blockSize b) (hx : x < s.blockSize) (hy : y < s.blockSize) :
    blockAt (tileBlock i s b) x y = tileRule i s (blockAt b) x y := by
  have hsteps := isBlock_qmBlock s
  cases i with
  | qmbuild => cases hi
  | verify => cases hi
  | fdct => exact blockAt_fdctBlock hn hb hx hy
  | idct => exact blockAt_idctBlock hb hx hy
  | quant => rw [tileBlock, blockAt_quantBlock hb hsteps hx hy, blockAt_qmBlock hx hy, tileRule]
  | dequant => rw [tileBlock, blockAt_deqBlock hb hsteps hx hy, blockAt_qmBlock hx hy, tileRule]
  | encode =>
    rw [tileBlock, blockAt_quantBlock (isBlock_fdctBlock hn b) hsteps hx hy, blockAt_fdctBlock hn hb hx hy,
      blockAt_qmBlock hx hy, tileRule]
  | decode =>
    rw [tileBlock, blockAt_idctBlock (isBlock_deqBlock hb hsteps) hx hy]
    exact idctValue_congr (fun u hu v hv => by rw [blockAt_deqBlock hb hsteps hu hv, blockAt_qmBlock hu hv]) x y

/-! ## What a tile unit reads and writes -/

theorem isBlock_readTile (s : State) (k : FrameKind) (t : Nat) : IsBlock s.blockSize (s.readTile k t) :=
  isBlock_range _ _

/-- R211, R102: a tile as the engine reads it where no host store is in its way. -/
theorem blockAt_readTile {s : State} (hq : HostQuiet s) (hr : ReadsAgree s) (k : FrameKind) (t : Nat) {x y : Nat}
    (hx : x < s.blockSize) (hy : y < s.blockSize) :
    blockAt (s.readTile k t) x y = sourceValue k s t x y := by
  rw [State.readTile, blockAt_range _ hx hy]
  cases k <;> rw [State.readElem, dmaRead_of_quiet hq hr] <;> rfl

theorem workOf_of_tile {i : Instr} {ks kd : FrameKind} (hi : isTile i = true) (hks : srcKind i = some ks)
    (hkd : dstKind i = some kd) (s : State) (t : Nat) :
    workOf i s t = ⟨s.tileWrites kd t (tileBlock i s (s.readTile ks t)), s.accExceed, s.accMax⟩ := by
  cases i <;> cases hi <;> cases hks <;> cases hkd <;> rfl

theorem nodup_blockPositions (n : Nat) : (blockPositions n).Nodup :=
  List.nodup_range.product List.nodup_range

section
variable {i : Instr} {ks kd : FrameKind} {s : State} {t : Nat} (hi : isTile i = true)
  (hks : srcKind i = some ks) (hkd : dstKind i = some kd)
include hi hks hkd

/-- The writes of a tile unit: one for each position of the tile, with the value of the command's rule. -/
theorem workOf_writes_of_tile (hn : LegalSize s.blockSize) (hq : HostQuiet s) (hr : ReadsAgree s) :
    (workOf i s t).writes = (blockPositions s.blockSize).map fun p =>
      ⟨tileAddr s .dst kd t p.1 p.2, kd.esize, tileValue i s t p.1 p.2⟩ := by
  rw [workOf_of_tile hi hks hkd]
  refine List.map_congr_left fun p hp => ?_
  obtain ⟨hx, hy⟩ := mem_blockPositions.1 hp
  have hvalue : blockAt (tileBlock i s (s.readTile ks t)) p.1 p.2 = tileValue i s t p.1 p.2 := by
    rw [blockAt_tileBlock hi hn (isBlock_readTile s ks t) hx hy, tileValue_eq_tileRule hks]
    exact tileRule_congr i s (fun _ hu _ hv => blockAt_readTile hq hr ks t hu hv) hx hy
  rw [hvalue]
  rfl

/-- R211, R112: a tile unit gives each DST element of its tile the value of the command's rule, and leaves every
other byte of memory as it was. -/
theorem tileUnit_memory (hc : check i s = none) (ht : t < unitCount i s) (hq : HostQuiet s)
    (hr : ReadsAgree s) (hm : s.mem.wf = true) :
    TileHolds s kd t (tileValue i s t) (writeElems s.mem (workOf i s t).writes) ∧
      OnlyTileWritten s kd t (writeElems s.mem (workOf i s t).writes) ∧
      (writeElems s.mem (workOf i s t).writes).wf = true := by
  obtain ⟨hs, -⟩ := (check_eq_none_iff i s).1 hc
  have hspace := workOf_writes_inRegion hc ht
  rw [workOf_writes_of_tile hi hks hkd (legalSize_blockSize hi hs) hq hr] at hspace ⊢
  refine ⟨fun x hx y hy => ?holds, fun a ha => ?frame, writeElems_wf hm hspace⟩
  case holds =>
    have hread := readLE_writeElems hm hspace
      (List.pairwise_map.2 ((nodup_blockPositions _).pairwise_of_forall_ne fun p hp q hq hne => by
        obtain ⟨hpx, hpy⟩ := mem_blockPositions.1 hp
        obtain ⟨hqx, hqy⟩ := mem_blockPositions.1 hq
        exact tileAddr_apart hi hs ht ht hpx hpy hqx hqy fun h => hne (Prod.ext h.2.1 h.2.2)))
      (List.mem_map.2 ⟨(x, y), mem_blockPositions.2 ⟨hx, hy⟩, rfl⟩)
    exact (congrArg Int.ofNat hread).trans (Int.toNat_of_nonneg (Int.emod_nonneg _ (by positivity)))
  case frame =>
    refine read_writeElems_of_outside hm hspace fun w hw => ?_
    obtain ⟨p, hp, rfl⟩ := List.mem_map.1 hw
    obtain ⟨hx, hy⟩ := mem_blockPositions.1 hp
    exact ha p.1 hx p.2 hy

end

end Sys2Proof.Machine
end

section
/-! PROOFS. A whole tile command, from its check step to its completion (R205, R212, R221, R330). -/

namespace Sys2Proof.Machine

/-! ## Runs of the machine, one step at a time -/

section
variable {k : Nat} {s t : State}

theorem run_succ_of_next (h : step s = .next t) : Sys2Proof.core.run (k + 1) s = Sys2Proof.core.run k t := by
  have hcore : Sys2Proof.core.step s = .next t := h
  simp only [Host.Core.run, hcore]

theorem run_succ_of_fault {r : Fault} (h : step s = .fault r) :
    Sys2Proof.core.run (k + 1) s = .fault r := by
  have hcore : Sys2Proof.core.step s = .fault r := h
  simp only [Host.Core.run, hcore]

theorem run_succ_of_refused {r : Refusal} (h : step s = .refused r) :
    Sys2Proof.core.run (k + 1) s = .refused r := by
  have hcore : Sys2Proof.core.step s = .refused r := h
  simp only [Host.Core.run, hcore]

theorem run_one (s : State) : Sys2Proof.core.run 1 s = step s := by
  cases hs : step s with
  | next s' => exact run_succ_of_next hs
  | fault r => exact run_succ_of_fault hs
  | refused r => exact run_succ_of_refused hs

/-- A run is extended by a step at its end. -/
theorem run_succ_of_run (h : Sys2Proof.core.run k s = .next t) : Sys2Proof.core.run (k + 1) s = step t := by
  induction k generalizing s with
  | zero =>
    rw [← Host.Outcome.next.inj h]
    exact run_one s
  | succ k ih =>
    cases hs : step s with
    | next s' =>
      rw [run_succ_of_next hs] at h ⊢
      exact ih h
    | fault r =>
      rw [run_succ_of_fault hs] at h
      cases h
    | refused r =>
      rw [run_succ_of_refused hs] at h
      cases h

end

/-- R496: with no other agent moving, an idle machine stays as it is. -/
theorem run_idle {s : State} (hp : s.phase = .idle) (ha : s.agenda = []) (k : Nat) :
    Sys2Proof.core.run k s = .next { s with freeCount := s.freeCount + k } := by
  induction k with
  | zero => rfl
  | succ k ih =>
    rw [run_succ_of_run ih]
    unfold step engineStep
    simp only [ha, hp, State.tick]
    rfl

/-- An engine step of a running or a starting command, where no other agent moves. -/
theorem step_of_command {i : Instr} {s : State} (ha : s.agenda = []) (hp : s.phase ≠ .idle)
    (hd : decodeWord s.lastcmd = .ok i) : step s = exec i s.tick := by
  have hstep : step s = engineStep s.tick := by unfold step; rw [ha]
  rw [hstep]
  obtain ⟨hidle, -⟩ | ⟨-, j, hj, hexec⟩ | ⟨-, r, hr, -⟩ := engineStep_cases s.tick
  · exact absurd hidle hp
  · rw [tick_lastcmd, hd] at hj
    cases hj
    exact hexec
  · rw [tick_lastcmd, hd] at hr
    cases hr

/-! ## What the first tiles leave -/

/-- The first `k` tiles of the DST frame hold in `m` what the command's rule makes of the source in `s`, and every
byte outside them reads as in `s`. -/
def TilesDone (i : Instr) (kd : FrameKind) (s : State) (k : Nat) (m : Memory) : Prop :=
  (∀ t < k, TileHolds s kd t (tileValue i s t) m) ∧
  (∀ a, (∀ t < k, ∀ x < s.blockSize, ∀ y < s.blockSize, ¬ InElem a (tileAddr s .dst kd t x y) kd.esize) →
    m.read a = s.mem.read a) ∧
  m.wf = true

/-- Command `i` running from its check step in `s`: the checks and the first `k` units are done, memory is `m`. -/
def runningState (s : State) (m : Memory) (k : Nat) : State :=
  { s with phase := .run, mem := m, unit := k, freeCount := s.freeCount + (1 + k) }

section
variable {i : Instr} {ks kd : FrameKind} {s : State} {m : Memory} {t : Nat} (hi : isTile i = true)
  (hks : srcKind i = some ks) (hkd : dstKind i = some kd) (hc : check i s = none) (ht : t < unitCount i s)
include hi hks hkd hc ht

/-- The source elements of a tile read the same once the tiles before it are done: the source frame is apart from
the DST frame, or it is the same frame and the tiles are apart (R109, R330). -/
theorem TilesDone.readLE_source (hdone : TilesDone i kd s t m) {x y : Nat} (hx : x < s.blockSize)
    (hy : y < s.blockSize) :
    m.readLE (tileAddr s .src ks t x y) ks.esize = s.mem.readLE (tileAddr s .src ks t x y) ks.esize := by
  obtain ⟨-, hframe, -⟩ := hdone
  obtain ⟨hs, -, -, -, hoverlap⟩ := (check_eq_none_iff i s).1 hc
  have hsrc := tileAddr_inRegion .src ks hi hs ht hx hy
  refine Memory.readLE_congr fun b hlo hhi => hframe b fun t' ht' x' hx' y' hy' hb => ?_
  obtain ⟨hblo, hbhi⟩ := hb
  have hdst := tileAddr_inRegion .dst kd hi hs (ht'.trans ht) hx' hy'
  simp only [State.base] at hsrc hdst
  obtain h | h | ⟨hbase, hsize⟩ := (checkOverlap_eq_none_iff i s).1 hoverlap hi ks kd hks hkd
  · omega
  · omega
  · have hsame : tileAddr s .src ks t x y = tileAddr s .dst kd t x y := by
      simp only [tileAddr, State.elemAddr, State.base, hbase, hsize]
    have hapart := tileAddr_apart (f := .dst) (k := kd) hi hs ht (ht'.trans ht) hx hy hx' hy'
      fun h => ht'.ne' h.1
    omega

/-- The due tile still gets the values that the source in `s` gives it. -/
theorem TilesDone.tileValue_running (hdone : TilesDone i kd s t m) {x y : Nat} (hx : x < s.blockSize)
    (hy : y < s.blockSize) : tileValue i (runningState s m t).tick t x y = tileValue i s t x y := by
  have hsource : ∀ u < s.blockSize, ∀ v < s.blockSize,
      sourceValue ks (runningState s m t).tick t u v = sourceValue ks s t u v := fun u hu v hv => by
    have hread := hdone.readLE_source hi hks hkd hc ht hu hv
    cases ks with
    | sample => exact congrArg (fun w => (BitVec.ofNat 16 w).toInt) hread
    | coefficient | quantized | tiledQm => exact congrArg (fun w => (BitVec.ofNat 32 w).toInt) hread
  rw [tileValue_eq_tileRule hks, tileValue_eq_tileRule hks]
  exact tileRule_congr i s hsource hx hy

omit hks hkd in
/-- One more tile done. -/
theorem TilesDone.succ (hdone : TilesDone i kd s t m) {m' : Memory}
    (hholds : TileHolds s kd t (tileValue i s t) m')
    (honly : OnlyTileWritten { s with mem := m } kd t m') (hwf : m'.wf = true) :
    TilesDone i kd s (t + 1) m' := by
  obtain ⟨hs, -⟩ := (check_eq_none_iff i s).1 hc
  obtain ⟨hbefore, hframe, -⟩ := hdone
  refine ⟨fun t' ht' => ?holds, fun a ha => ?frame, hwf⟩
  case holds =>
    obtain hlt | rfl := Nat.lt_succ_iff_lt_or_eq.1 ht'
    · intro x hx y hy
      rw [← hbefore t' hlt x hx y hy]
      refine congrArg Int.ofNat (Memory.readLE_congr fun b hlo hhi => honly b fun x' hx' y' hy' hb => ?_)
      have hbyte : InElem b (tileAddr s .dst kd t x' y') kd.esize := hb
      obtain ⟨hblo, hbhi⟩ := hbyte
      have hapart := tileAddr_apart (f := .dst) (k := kd) hi hs (hlt.trans ht) ht hx hy hx' hy'
        fun h => hlt.ne h.1
      omega
    · exact hholds
  case frame =>
    rw [honly a fun x hx y hy => ha t (Nat.lt_succ_self t) x hx y hy]
    exact hframe a fun t' ht' => ha t' (Nat.lt_succ_of_lt ht')

end

theorem tilesDone_zero {i : Instr} {kd : FrameKind} {s : State} (hm : s.mem.wf = true) :
    TilesDone i kd s 0 s.mem :=
  ⟨fun _ ht => absurd ht (Nat.not_lt_zero _), fun _ _ => rfl, hm⟩

/-! ## The run of a tile command -/

/-- R220, R221: what the last tile leaves. -/
theorem endRun_running {i : Instr} {s : State} (hfree : RunsFreely s) (m : Memory) (k : Nat) :
    endRun i .none 0 0 (runningState s m k) =
      { afterLastUnit i m s with unit := k, freeCount := s.freeCount + (1 + k) } := by
  obtain ⟨-, -, -, hq, -⟩ := hfree
  rw [endRun, closeRun_of_quiet (s := runningState s m k) hq]
  rfl

section
variable {i : Instr} {ks kd : FrameKind} {s : State} {m : Memory} {t : Nat}

theorem unitRuns_running (hc : check i s = none) (ht : t < unitCount i s) (hfree : RunsFreely s) :
    UnitRuns i (runningState s m t).tick := by
  obtain ⟨habort, -, hanswers, hq, hwait⟩ := hfree
  refine ⟨⟨rfl, hc, ht⟩, .inl habort, ⟨fun a _ => ?_, fun a _ => ?_⟩, hq, readsAgree_of_fresh hwait⟩
  · simp [State.answerOf, runningState, hanswers]
  · simp [State.answerOf, runningState, hanswers]

theorem applyUnit_running (hi : isTile i = true) (hks : srcKind i = some ks) (hkd : dstKind i = some kd)
    (hwait : s.wait = none) :
    applyUnit (workOf i (runningState s m t).tick t) (runningState s m t).tick =
      runningState s (writeElems m (workOf i (runningState s m t).tick t).writes) (t + 1) := by
  rw [workOf_of_tile hi hks hkd]
  simp only [applyUnit, runningState, State.tick, hwait]
  rfl

/-- R205: the step of a command in its check step. -/
theorem step_eq_checkStep (ha : s.agenda = []) (hp : s.phase = .check) (hd : decodeWord s.lastcmd = .ok i) :
    step s = checkStep i s.tick := by
  rw [step_of_command ha (by rw [hp]; nofun) hd, exec_check (s := s.tick) hp]

/-- R205: where the checks pass, the first unit is due. -/
theorem step_check_passes (ha : s.agenda = []) (hp : s.phase = .check) (hd : decodeWord s.lastcmd = .ok i)
    (hu : s.unit = 0) (hc : check i s = none) (hf : sideEffectFrame i s = none) :
    step s = .next (runningState s s.mem 0) := by
  have hstate : { s.tick with phase := .run } = runningState s s.mem 0 := by
    simp only [runningState, State.tick, hu]
  rw [step_eq_checkStep ha hp hd, ← hstate]
  obtain ⟨e, he, -⟩ | ⟨-, f, hf', -⟩ | ⟨-, -, hstep⟩ := checkStep_cases i s.tick
  · exact absurd (hc.symm.trans he) nofun
  · exact absurd (hf.symm.trans hf') nofun
  · exact hstep

variable (hi : isTile i = true) (hks : srcKind i = some ks) (hkd : dstKind i = some kd)
  (hd : decodeWord s.lastcmd = .ok i) (hc : check i s = none) (hfree : RunsFreely s)
include hi hks hkd hd hc hfree

/-- R212: one engine step does the tile that is due, and after the last one the command completes. -/
theorem TilesDone.step_running (hdone : TilesDone i kd s t m) (ht : t < unitCount i s) :
    ∃ m', TilesDone i kd s (t + 1) m' ∧ step (runningState s m t) = .next
      (if t + 1 = unitCount i s then endRun i .none 0 0 (runningState s m' (t + 1))
        else runningState s m' (t + 1)) := by
  have hruns := unitRuns_running (m := m) hc ht hfree
  have hstep := (step_of_command hfree.2.1 (s := runningState s m t) nofun hd).trans (exec_of_unitRuns hruns)
  obtain ⟨-, -, -, hq, hwait⟩ := hfree
  have hm : m.wf = true := by
    obtain ⟨-, -, hm⟩ := hdone
    exact hm
  obtain ⟨hholds, honly, hwf⟩ := tileUnit_memory hi hks hkd (s := (runningState s m t).tick) hc ht hq
    (readsAgree_of_fresh hwait) hm
  refine ⟨_, hdone.succ hi hc ht (fun x hx y hy => ?_) honly hwf, ?_⟩
  · rw [← hdone.tileValue_running hi hks hkd hc ht hx hy]
    exact hholds x hx y hy
  · have hfinish : finishOf i = noAction := by cases i <;> cases hi <;> rfl
    rw [hstep, hfinish]
    exact congrArg (fun r => Host.Outcome.next (afterUnit i noAction r)) (applyUnit_running hi hks hkd hwait)

/-- R205, R212: the checks take one step, and every tile one more. -/
theorem run_running (hp : s.phase = .check) (hu : s.unit = 0) (hf : sideEffectFrame i s = none)
    (hm : s.mem.wf = true) (t : Nat) (ht : t < unitCount i s) :
    ∃ m, TilesDone i kd s t m ∧ Sys2Proof.core.run (1 + t) s = .next (runningState s m t) := by
  induction t with
  | zero =>
    exact ⟨s.mem, tilesDone_zero hm, (run_one s).trans (step_check_passes hfree.2.1 hp hd hu hc hf)⟩
  | succ t ih =>
    obtain ⟨m, hdone, hrun⟩ := ih (Nat.lt_of_succ_lt ht)
    obtain ⟨m', hdone', hstep⟩ := hdone.step_running hi hks hkd hd hc hfree (Nat.lt_of_succ_lt ht)
    rw [if_neg ht.ne] at hstep
    exact ⟨m', hdone', (run_succ_of_run hrun).trans hstep⟩

/-- The whole command: every DST element holds the value of the rule, every other byte reads as before, and the
registers are those of a completion (R220, R221). -/
theorem run_tileCommand (hp : s.phase = .check) (hu : s.unit = 0) (hf : sideEffectFrame i s = none)
    (hm : s.mem.wf = true) :
    ∃ m, TilesDone i kd s (unitCount i s) m ∧ Sys2Proof.core.run (1 + unitCount i s) s =
      .next { afterLastUnit i m s with
        unit := unitCount i s, freeCount := s.freeCount + (1 + unitCount i s) } := by
  obtain ⟨t, ht⟩ := Nat.exists_eq_add_one_of_ne_zero
    (unitCount_pos hi ((check_eq_none_iff i s).1 hc).1).ne'
  obtain ⟨m, hdone, hrun⟩ := run_running hi hks hkd hd hc hfree hp hu hf hm t (by omega)
  obtain ⟨m', hdone', hstep⟩ := hdone.step_running hi hks hkd hd hc hfree (show t < unitCount i s by omega)
  rw [if_pos ht.symm, endRun_running hfree] at hstep
  rw [ht]
  exact ⟨m', hdone', (run_succ_of_run hrun).trans hstep⟩

end

end Sys2Proof.Machine
end

section
/-! PROOFS. The fused commands against their two stages (R340). -/

namespace Sys2Proof.Machine

/-! ## Memory read back -/

/-- Memories that agree on a wide read agree on each of its bytes. -/
theorem Memory.read_eq_of_readLE_eq {n : Nat} {m m' : Memory} {a b : Nat}
    (h : m.readLE a n = m'.readLE a n) (hb : InElem b a n) : m.read b = m'.read b := by
  obtain ⟨hlo, hhi⟩ := hb
  induction n generalizing a with
  | zero => omega
  | succ n ih =>
    simp only [Memory.readLE] at h
    have hbyte := (m.read a).isLt
    have hbyte' := (m'.read a).isLt
    obtain rfl | hlt := Nat.eq_or_lt_of_le hlo
    · exact BitVec.eq_of_toNat_eq (by omega)
    · exact ih (a := a + 1) (by omega) (by omega) (by omega)

theorem clamp_bounds (v : Int) {lo hi : Int} (h : lo ≤ hi) : lo ≤ clamp v lo hi ∧ clamp v lo hi ≤ hi := by
  unfold clamp
  split_ifs <;> omega

/-- R102: a value in the range of a 32-bit element reads back as it was written. -/
theorem toInt_ofNat_of_emod {n : Nat} {v : Int} (hn : (n : Int) = v % 2 ^ 32) (hlo : -2 ^ 31 ≤ v)
    (hhi : v ≤ 2 ^ 31 - 1) : (BitVec.ofNat 32 n).toInt = v := by
  rw [BitVec.toInt_ofNat', hn]
  exact (Int.emod_bmod v (2 ^ 32)).trans (Int.bmod_eq_of_le (by omega) (by omega))

/-! ## A command that the host starts, and that ends without error -/

/-- No host store is under way, no agent is about to move, and every DMA access will be answered. -/
def AtRest (s : State) : Prop := s.agenda = [] ∧ s.answers = [] ∧ s.pending = [] ∧ s.mem.wf = true

/-- The command `i` on the frames at `src` and `dst`, started by the host in `s`, has ended in `t` without error. -/
def Completes (i : Instr) (src dst : Word) (s t : State) : Prop :=
  Sys2Proof.core.run (1 + unitCount i s) (startOn i src dst s) = .next t ∧ t.phase = .idle ∧ t.errcode = 0#4

theorem decodeWord_encode (i : Instr) : decodeWord (encode i) = .ok i := by
  cases i <;> rfl

section
variable {i : Instr} {s : State} {e : ErrRec}

theorem code_of_checkShape (h : checkShape i s = some e) : e.code = .invalidShape := by
  unfold checkShape at h
  split_ifs at h <;> cases h <;> rfl

theorem code_of_checkQm (h : checkQm i s = some e) : e.code = .invalidQmatrix := by
  unfold checkQm at h
  split at h
  · split at h <;> cases h
    rfl
  · cases h

theorem code_of_checkAlign (h : checkAlign i s = some e) : e.code = .misaligned := by
  unfold checkAlign at h
  split at h <;> cases h
  rfl

theorem code_of_checkFit (h : checkFit i s = some e) : e.code = .allocationFailure := by
  unfold checkFit at h
  split at h <;> cases h
  rfl

theorem code_of_checkOverlap (h : checkOverlap i s = some e) : e.code = .overlap := by
  unfold checkOverlap at h
  split at h
  · split at h
    · split_ifs at h
      cases h
      rfl
    · cases h
  · cases h

/-- R458: an error of the check step is one of the codes of R451, never 0. -/
theorem errCodeBits_check_ne_zero (h : check i s = some e) : errCodeBits e.code ≠ 0#4 := by
  unfold check at h
  split at h
  · rename_i hshape
    cases h
    rw [code_of_checkShape hshape]
    decide
  · split at h
    · rename_i hqm
      cases h
      rw [code_of_checkQm hqm]
      decide
    · split at h
      · rename_i halign
        cases h
        rw [code_of_checkAlign halign]
        decide
      · split at h
        · rename_i hfit
          cases h
          rw [code_of_checkFit hfit]
          decide
        · rw [code_of_checkOverlap h]
          decide

end

section
variable {i : Instr} {s t : State} {src dst : Word}

theorem runsFreely_startOn (hrest : AtRest s) : RunsFreely (startOn i src dst s) := by
  obtain ⟨ha, hans, hp, -⟩ := hrest
  exact ⟨rfl, ha, hans, ⟨hp, rfl, rfl⟩, rfl⟩

/-- A command that completes has passed its checks (R205, R458). -/
theorem Completes.checks_pass (h : Completes i src dst s t) (hrest : AtRest s) :
    check i (startOn i src dst s) = none ∧ sideEffectFrame i (startOn i src dst s) = none := by
  obtain ⟨hrun, -, hcode⟩ := h
  have hstep := step_eq_checkStep (s := startOn i src dst s) hrest.1 rfl (decodeWord_encode i)
  rw [Nat.add_comm] at hrun
  obtain ⟨e, he, hend⟩ | ⟨-, f, -, hend⟩ | ⟨hc, hf, -⟩ := checkStep_cases i (startOn i src dst s).tick
  · rw [hend] at hstep
    have hidle := run_idle (s := raiseErr e (startOn i src dst s).tick) rfl hrest.1 (unitCount i s)
    have ht := Host.Outcome.next.inj (((run_succ_of_next hstep).symm.trans hrun).symm.trans hidle)
    rw [ht] at hcode
    exact absurd hcode (errCodeBits_check_ne_zero he)
  · rw [run_succ_of_refused (hstep.trans hend)] at hrun
    cases hrun
  · exact ⟨hc, hf⟩

/-- What a tile command that completes leaves (R220, R221). -/
theorem Completes.tilesDone {kd : FrameKind} (h : Completes i src dst s t) (hrest : AtRest s)
    (hi : isTile i = true) (hkd : dstKind i = some kd) :
    TilesDone i kd (startOn i src dst s) (unitCount i s) t.mem ∧
    ∃ c, t = { afterLastUnit i t.mem (startOn i src dst s) with unit := unitCount i s, freeCount := c } := by
  obtain ⟨hc, hf⟩ := h.checks_pass hrest
  obtain ⟨ks, hks⟩ := exists_srcKind_of_tile hi
  obtain ⟨m, hdone, hrun⟩ := run_tileCommand (s := startOn i src dst s) hi hks hkd (decodeWord_encode i) hc
    (runsFreely_startOn hrest) rfl rfl hf hrest.2.2.2
  have hcount : unitCount i (startOn i src dst s) = unitCount i s := rfl
  rw [hcount] at hdone hrun
  obtain rfl := Host.Outcome.next.inj (h.1.symm.trans hrun)
  exact ⟨hdone, _, rfl⟩

end

/-! ## Two stages and their fusion -/

/-- The machine is at rest again after a command (R220). -/
theorem Completes.atRest {i : Instr} {kd : FrameKind} {s t : State} {src dst : Word}
    (h : Completes i src dst s t) (hrest : AtRest s) (hi : isTile i = true) (hkd : dstKind i = some kd) :
    AtRest t := by
  obtain ⟨⟨-, -, hwf⟩, c, ht⟩ := h.tilesDone hrest hi hkd
  obtain ⟨ha, hans, hp, -⟩ := hrest
  rw [ht]
  exact ⟨ha, hans, hp, hwf⟩

/-- R337, R338: `fused` applies the rule of `second` to what the rule of `first` makes of a tile. -/
def Fuses (first second fused : Instr) : Prop :=
  (first = .fdct ∧ second = .quant ∧ fused = .encode) ∨
    (first = .dequant ∧ second = .idct ∧ fused = .decode)

section
variable {first second fused : Instr} (hfuse : Fuses first second fused)
include hfuse

theorem Fuses.isTile : isTile first = true ∧ isTile second = true ∧ isTile fused = true := by
  obtain ⟨rfl, rfl, rfl⟩ | ⟨rfl, rfl, rfl⟩ := hfuse <;> exact ⟨rfl, rfl, rfl⟩

theorem Fuses.kinds : dstKind first = some .coefficient ∧ srcKind second = some .coefficient ∧
    dstKind second = dstKind fused ∧ srcKind fused = srcKind first := by
  obtain ⟨rfl, rfl, rfl⟩ | ⟨rfl, rfl, rfl⟩ := hfuse <;> exact ⟨rfl, rfl, rfl, rfl⟩

/-- R337, R338. -/
theorem Fuses.tileRule_comp (s : State) (g : Nat → Nat → Int) (x y : Nat) :
    tileRule second s (tileRule first s g) x y = tileRule fused s g x y := by
  obtain ⟨rfl, rfl, rfl⟩ | ⟨rfl, rfl, rfl⟩ := hfuse <;> rfl

/-- The first stage clamps its values to 32 bits (R287, R332), so nothing is lost in the buffer. -/
theorem Fuses.tileValue_first_bounds (s : State) (t x y : Nat) :
    -2 ^ 31 ≤ tileValue first s t x y ∧ tileValue first s t x y ≤ 2 ^ 31 - 1 := by
  obtain ⟨rfl, -⟩ | ⟨rfl, -⟩ := hfuse
  · exact clamp_bounds _ (by decide)
  · exact clamp_bounds _ (by decide)

/-- R340, element by element: the second stage makes of the buffer what the fused command makes of the source. -/
theorem Fuses.tileValue_second {s s' : State} {t x y : Nat}
    (hfirst : TileHolds s .coefficient t (tileValue first s t) s'.mem)
    (hbuffer : ∀ u v, tileAddr s' .src .coefficient t u v = tileAddr s .dst .coefficient t u v)
    (hrule : tileRule second s' = tileRule second s)
    (hx : x < s.blockSize) (hy : y < s.blockSize) :
    tileValue second s' t x y = tileValue fused s t x y := by
  obtain ⟨-, hsecond, -, hsource⟩ := hfuse.kinds
  obtain ⟨ks, hks⟩ := exists_srcKind_of_tile hfuse.isTile.1
  have hread : ∀ u < s.blockSize, ∀ v < s.blockSize,
      sourceValue .coefficient s' t u v = tileValue first s t u v := fun u hu v hv => by
    obtain ⟨hlo, hhi⟩ := hfuse.tileValue_first_bounds s t u v
    rw [sourceValue, srcWord, hbuffer]
    exact toInt_ofNat_of_emod (hfirst u hu v hv) hlo hhi
  rw [tileValue_eq_tileRule hsecond, hrule, tileRule_congr second s hread hx hy, tileValue_eq_tileRule hks,
    tileValue_eq_tileRule (hsource.trans hks), hfuse.tileRule_comp]

end

/-- Settles O39: each element of the second stage has the value of the fused command's rule. -/
theorem fusedEqualsStaged : Obligations.FusedEqualsStaged := by
  intro first second fused kd s t1 t2 t3 src buf out hfuse hkd ha hans hp hm hrun1 hidle1 hcode1 hrun2 hidle2
    hcode2 hrun3 hidle3 hcode3 a hbyte
  change Fuses first second fused at hfuse
  have hrest : AtRest s := ⟨ha, hans, hp, hm⟩
  obtain ⟨htile1, htile2, htile3⟩ := hfuse.isTile
  obtain ⟨hkd1, -, hkd2, -⟩ := hfuse.kinds
  have hend1 : Completes first src buf s t1 := ⟨hrun1, hidle1, hcode1⟩
  have hend3 : Completes fused src out s t3 := ⟨hrun3, hidle3, hcode3⟩
  have hrest1 := hend1.atRest hrest htile1 hkd1
  obtain ⟨⟨hfirst, -⟩, c, ht1⟩ := hend1.tilesDone hrest htile1 hkd1
  have hcount : unitCount second t1 = unitCount second s := by rw [ht1]; rfl
  have hend2 : Completes second buf out t1 t2 := ⟨hcount ▸ hrun2, hidle2, hcode2⟩
  obtain ⟨⟨hsecond, -⟩, -⟩ := hend2.tilesDone hrest1 htile2 (hkd2.trans hkd)
  obtain ⟨⟨hfused, -⟩, -⟩ := hend3.tilesDone hrest htile3 hkd
  have hshape := ((check_eq_none_iff _ _).1 (hend3.checks_pass hrest).1).1
  obtain ⟨t, ht, x, hx, y, hy, hmem⟩ :=
    exists_tileAddr_of_inRegion (s := startOn fused src out s) (f := .dst) htile3 hshape hbyte
  have htiles : ∀ i, isTile i = true → t < unitCount i s := fun i hi => by
    rw [unitCount_of_tile hi, ← unitCount_of_tile htile3]
    exact ht
  have hdst : tileAddr (startOn second buf out t1) .dst kd t x y =
      tileAddr (startOn fused src out s) .dst kd t x y := by rw [ht1]; rfl
  have hvalue : tileValue second (startOn second buf out t1) t x y =
      tileValue fused (startOn fused src out s) t x y :=
    hfuse.tileValue_second (s := startOn first src buf s) (hfirst t (htiles _ htile1))
      (fun u v => by rw [ht1]; rfl) (by rw [ht1]; rfl) hx hy
  have hread2 := hsecond t (hcount ▸ htiles _ htile2) x (by rw [ht1]; exact hx) y (by rw [ht1]; exact hy)
  have hread3 := hfused t (htiles _ htile3) x hx y hy
  rw [hvalue, hdst] at hread2
  exact Memory.read_eq_of_readLE_eq (Int.ofNat.inj (hread2.trans hread3.symm)) hmem

end Sys2Proof.Machine
end

section
/-! PROOFS. Quantization and dequantization of one value (R331, R332). -/

namespace Sys2Proof.Machine

/-- R9: a rounded quotient times its divisor is off by at most half the divisor. -/
theorem two_mul_abs_rdiv_sub_le (a : Int) {d : Nat} (hd : 0 < d) : 2 * |rdiv a d * d - a| ≤ d := by
  have hnat : 2 * |(((2 * a.natAbs + d) / (2 * d) : Nat) : Int) * d - a.natAbs| ≤ d := by
    have hdiv := Nat.div_add_mod' (2 * a.natAbs + d) (2 * d)
    have hmod := Nat.mod_lt (2 * a.natAbs + d) (show 0 < 2 * d by omega)
    rw [abs_eq_max_neg, ← Nat.cast_mul]
    rw [Nat.mul_left_comm] at hdiv
    omega
  have hmul : rdiv a d * d - a =
      sgn a * ((((2 * a.natAbs + d) / (2 * d) : Nat) : Int) * d - a.natAbs) := by
    rw [mul_sub, sgn_mul_natAbs, rdiv, mul_assoc]
  rwa [hmul, abs_mul, abs_sgn, one_mul]

section
variable {a q : Int} (hq : 1 ≤ q)
include hq

/-- R331: the rule's formula. -/
theorem quantValue_eq : quantValue a q = sgn a * ((2 * |a| + 256 * q) / (512 * q)) := by
  rw [quantValue, rdiv]
  push_cast
  rw [Int.toNat_of_nonneg (by omega), show 2 * (256 * q) = 512 * q by ring]

/-- R331: `quant(a, Q)` is the nearest integer to `a / (256*Q)`. -/
theorem two_mul_abs_quantValue_mul_sub_le : 2 * |quantValue a q * (256 * q) - a| ≤ 256 * q := by
  have hround := two_mul_abs_rdiv_sub_le a (show 0 < 256 * q.toNat by omega)
  rwa [← quantValue, Nat.cast_mul, Int.toNat_of_nonneg (by omega)] at hround

/-- The size of a dequantized value, against that of the coefficient. -/
theorem abs_quantValue_mul_le : 512 * |quantValue a q * q| ≤ 2 * |a| + 256 * q := by
  have hround := two_mul_abs_quantValue_mul_sub_le (a := a) hq
  have htri := abs_sub_abs_le_abs_sub (quantValue a q * (256 * q)) a
  rw [show quantValue a q * (256 * q) = 256 * (quantValue a q * q) by ring, abs_mul,
    abs_of_pos (show (0 : Int) < 256 by decide)] at htri
  rw [show quantValue a q * (256 * q) = 256 * (quantValue a q * q) by ring] at hround
  omega

/-- R331: a quantized value fits its element. -/
theorem abs_quantValue_le (ha : |a| ≤ 2 ^ 31) : |quantValue a q| ≤ 2 ^ 23 := by
  have hmul := abs_quantValue_mul_le (a := a) hq
  rw [abs_mul, abs_of_pos (show 0 < q by omega)] at hmul
  by_contra hlarge
  have hstep : (2 ^ 23 + 1) * q ≤ |quantValue a q| * q := by gcongr; omega
  omega

end

/-- Settles O44: the formula of R331 rounds to nearest, and its size follows from that. -/
theorem quantRoundsToNearest : Obligations.QuantRoundsToNearest := by
  intro a q hlo hhi hq _
  have ha : |a| ≤ 2 ^ 31 := abs_le.2 ⟨hlo, by omega⟩
  exact ⟨quantValue_eq hq, abs_quantValue_le hq ha, two_mul_abs_quantValue_mul_sub_le hq⟩

/-- R332: below `2^23` in size the product does not reach the clamp. -/
theorem deqValue_eq_self {v q : Int} (h : |v * q| < 2 ^ 23) : deqValue v q = v * q * 256 := by
  obtain ⟨hlo, hhi⟩ := abs_lt.1 h
  exact clamp_eq_self (by omega) (by omega)

/-- R332: what `quant` makes of a coefficient of a sample block (R290) is dequantized without the clamp. -/
theorem abs_quantValue_mul_lt {a q : Int} (ha : |a| ≤ 2 ^ 27) (hq : 1 ≤ q) (hq' : q ≤ 65535) :
    |quantValue a q * q| < 2 ^ 23 := by
  have hmul := abs_quantValue_mul_le (a := a) hq
  omega

/-- Settles O45: the clamp needs a product of at least `2^23`, which quantized sample coefficients never reach. -/
theorem dequantClampsOnlyOutOfRange : Obligations.DequantClampsOnlyOutOfRange := by
  refine ⟨fun v q _ _ _ _ => ⟨rfl, fun hclamp => ?_⟩, fun a q ha hq hq' => ⟨?_, ?_, ?_⟩⟩
  · exact not_lt.1 fun hsmall => hclamp (deqValue_eq_self hsmall)
  · have hmul := abs_quantValue_mul_le (a := a) hq
    omega
  · exact abs_quantValue_mul_lt ha hq hq'
  · exact deqValue_eq_self (abs_quantValue_mul_lt ha hq hq')

end Sys2Proof.Machine
end

section
/-! PROOFS. The lossy round trip with a unit step matrix (R343). -/

namespace Sys2Proof.Machine

/-- The bounds of R343 on the error of the lossy round trip. -/
def UnitStepBound (n : Nat) (bound : Int) : Prop :=
  (n = 2 ∧ bound = 1) ∨ (n = 4 ∧ bound = 2) ∨ (n = 8 ∧ bound = 4) ∨ (n = 16 ∧ bound = 7)

theorem UnitStepBound.legalSize {n : Nat} {bound : Int} (hn : UnitStepBound n bound) : LegalSize n := by
  unfold UnitStepBound at hn
  unfold LegalSize
  omega

/-- R343's bounds come from the error of the table on samples, half a unit for the rounding of each coefficient and
128 units for its quantization: before the final rounding the error is less than `bound` and a half. -/
theorem UnitStepBound.exists_tableBounds {n : Nat} {bound : Int} (hn : UnitStepBound n bound) :
    ∃ col gram, TableBounds n col gram ∧
      2 * (32768 * (gram * (2 ^ 61 + gram)) + col * col * (2 ^ 52 * 128 + 2 ^ 51)) <
        2 ^ 52 * ((2 * bound + 1) * 2 ^ 68) := by
  obtain ⟨rfl, rfl⟩ | ⟨rfl, rfl⟩ | ⟨rfl, rfl⟩ | ⟨rfl, rfl⟩ := hn
  · exact ⟨_, _, tableBounds_two, by decide⟩
  · exact ⟨_, _, tableBounds_four, by decide⟩
  · exact ⟨_, _, tableBounds_eight, by decide⟩
  · exact ⟨_, _, tableBounds_sixteen, by decide⟩

/-- What lies less than `bound` and a half units from `b` is rounded to within `bound` of it. -/
theorem abs_rshr_sub_le_of_near {a b bound : Int} {k : Nat} (hk : 0 < k)
    (h : 2 * |a - 2 ^ k * b| < (2 * bound + 1) * 2 ^ k) : |rshr a k - b| ≤ bound := by
  have hround := two_mul_abs_rshr_sub_le a hk
  have htri := abs_sub_le (2 ^ k * rshr a k) a (2 ^ k * b)
  have hpos : (0 : Int) < 2 ^ k := by positivity
  rw [← mul_sub, abs_mul, abs_of_pos hpos] at htri
  have hlt : 2 ^ k * |rshr a k - b| < 2 ^ k * (bound + 1) := by linarith
  exact Int.lt_add_one_iff.1 (lt_of_mul_lt_mul_left hlt hpos.le)

/-- A clamp to a range brings no value further away from one inside it. -/
theorem abs_clamp_sub_le {v b lo hi : Int} (hlo : lo ≤ b) (hhi : b ≤ hi) : |clamp v lo hi - b| ≤ |v - b| := by
  unfold clamp
  rw [abs_eq_max_neg, abs_eq_max_neg]
  split_ifs <;> omega

/-- The coefficients of `f` after quantization and dequantization with a unit step matrix. -/
def unitStepCoefficients (n : Nat) (f : Block) : Block :=
  deqBlock (constBlock n 1) (quantBlock (constBlock n 1) (fdctBlock n f))

theorem isBlock_unitStepCoefficients {n : Nat} (hn : LegalSize n) (f : Block) :
    IsBlock n (unitStepCoefficients n f) :=
  have hsteps := isBlock_constBlock n 1
  isBlock_deqBlock (isBlock_quantBlock (isBlock_fdctBlock hn f) hsteps) hsteps

/-- R331, R332: a unit step moves a coefficient of a sample block by at most 128 of its units of `1/256`. -/
theorem abs_unitStepCoefficients_sub_le {n u v : Nat} {f : Block} (hn : LegalSize n) (hf : IsSampleBlock n f)
    (hu : u < n) (hv : v < n) :
    |blockAt (unitStepCoefficients n f) u v - blockAt (fdctBlock n f) u v| ≤ 128 := by
  have hsteps := isBlock_constBlock n 1
  have hblock := isBlock_fdctBlock hn f
  have hsize := (blockAt_fdctBlock_of_samples hn hf hu hv).1
  have hround := two_mul_abs_quantValue_mul_sub_le (a := blockAt (fdctBlock n f) u v) (le_refl 1)
  rw [unitStepCoefficients, blockAt_deqBlock (isBlock_quantBlock hblock hsteps) hsteps hu hv,
    blockAt_quantBlock hblock hsteps hu hv, blockAt_constBlock 1 hu hv,
    deqValue_eq_self (abs_quantValue_mul_lt hsize (le_refl 1) (by decide)), mul_one]
  rw [mul_one] at hround
  omega

/-- R343: before its final rounding the lossy round trip is less than `bound` and a half from the sample. -/
theorem two_mul_abs_inverseSum_unitStep_sub_lt {n x y : Nat} {f : Block} {bound : Int}
    (hn : UnitStepBound n bound) (hf : IsSampleBlock n f) (hx : x < n) (hy : y < n) :
    2 * |inverseSum n (blockAt (unitStepCoefficients n f)) x y - 2 ^ 68 * blockAt f x y| <
      (2 * bound + 1) * 2 ^ 68 := by
  obtain ⟨col, gram, htable, hbound⟩ := hn.exists_tableBounds
  have hcoefficient : ∀ u < n, ∀ v < n,
      |2 ^ 52 * blockAt (unitStepCoefficients n f) u v - forwardSum n (blockAt f) u v| ≤ 2 ^ 52 * 128 + 2 ^ 51 := by
    intro u hu v hv
    have hround := two_mul_abs_rshr_sub_le (forwardSum n (blockAt f) u v) (show 0 < 52 by decide)
    rw [← (blockAt_fdctBlock_of_samples hn.legalSize hf hu hv).2] at hround
    have hstep := abs_unitStepCoefficients_sub_le hn.legalSize hf hu hv
    rw [abs_le] at hstep ⊢
    rw [abs_eq_max_neg] at hround
    omega
  have herror := htable.abs_inverseSum_sub_le hx hy (fun _ hx _ hy => hf.abs_blockAt_le hx hy) hcoefficient
  linarith

/-- Settles O46: the bound on the error before the final rounding, and the rule's own examples by evaluation. -/
theorem unitStepRoundTripBound : Obligations.UnitStepRoundTripBound := by
  refine ⟨fun n f bound hn hf x hx y hy => ?bound, by decide, by decide, by decide⟩
  change UnitStepBound n bound at hn
  obtain ⟨hlo, hhi⟩ := hf.blockAt_bounds hx hy
  have hround := abs_rshr_sub_le_of_near (by decide) (two_mul_abs_inverseSum_unitStep_sub_lt hn hf hx hy)
  rw [← unitStepCoefficients, blockAt_idctBlock (isBlock_unitStepCoefficients hn.legalSize f) hx hy, idctValue_eq]
  exact (abs_clamp_sub_le hlo hhi).trans hround

end Sys2Proof.Machine
end

section
/-! PROOFS. The register window: what stands at an offset, and what an access to it does (R33, R410 to R419). -/

namespace Sys2Proof.Machine

/-! ## Offsets (R33, R51, R410) -/

theorem accessOk_iff {width off : Nat} :
    accessOk width off = true ↔ width = 4 ∧ off % 4 = 0 ∧ off ≤ 0xFFC := by
  simp only [accessOk, Bool.and_eq_true, beq_iff_eq, decide_eq_true_eq]
  rw [Config.windowBytes]
  omega

/-- R33: the registers with a name of their own end at PROGRESS. -/
theorem regAt_of_ge {off : Nat} (h : 0x048 ≤ off) :
    regAt off =
      if 0x100 ≤ off ∧ off < 0x500 then .qm (Fin.ofNat 256 ((off - 0x100) / 4)) else .reserved := by
  have hnamed : ∀ r ∈ regMap, r.1 < 0x048 := by decide
  have hnone : regMap.find? (fun r => r.1 == off) = none :=
    List.find?_eq_none.2 fun r hr heq => absurd (hnamed r hr) (by rw [beq_iff_eq.1 heq]; omega)
  rw [regAt, hnone]

/-- R53: the QM file lies at `0x100`, one word to an entry. -/
theorem regAt_qm {k : Nat} (hk : k < 256) : regAt (0x100 + 4 * k) = .qm ⟨k, hk⟩ := by
  rw [regAt_of_ge (by omega), if_pos (by omega), Nat.add_sub_cancel_left, Nat.mul_div_cancel_left k (by decide)]
  exact congrArg Reg.qm (Fin.ext (Nat.mod_eq_of_lt hk))

/-- R51: the reserved offsets lie between the named registers and the QM file, and behind the QM file. -/
theorem regAt_reserved {off : Nat} (h : 0x048 ≤ off ∧ off ≤ 0x0FC ∨ 0x500 ≤ off ∧ off ≤ 0xFFC) :
    regAt off = .reserved := by
  rw [regAt_of_ge (by omega), if_neg (by omega)]

/-! ## Access types (R34) -/

/-- The registers whose writes BUSY locks (R415). -/
def Reg.locked : Reg → Bool
  | .cmd | .cfg | .dim | .dim2 | .src | .src2 | .dst | .tol | .qm _ => true
  | _ => false

/-- The registers that only read, and the reserved offsets (R413, R51). -/
def Reg.readOnly : Reg → Bool
  | .id | .rptExceed | .rptTotal | .rptMaxerr | .rptFlags | .errinfo | .errdata | .progress | .reserved => true
  | _ => false

theorem regWrite_locked_busy {r : Reg} {w : Word} {s : State} (hlocked : r.locked = true)
    (hbusy : s.busy = true) : regWrite w s r = { s with wdrop := true } := by
  cases r
  case cmd | cfg | dim | dim2 | src | src2 | dst | tol | qm => rw [regWrite, whenIdle_busy hbusy]
  all_goals cases hlocked

theorem regWrite_readOnly {r : Reg} {w : Word} {s : State} (hro : r.readOnly = true) : regWrite w s r = s := by
  cases r
  case id | rptExceed | rptTotal | rptMaxerr | rptFlags | errinfo | errdata | progress | reserved => rfl
  all_goals cases hro

/-- R33, R415: every offset of a locked register is one. -/
theorem regAt_locked {off : Nat}
    (h : off ∈ [0x00C, 0x010, 0x014, 0x018, 0x01C, 0x020, 0x024, 0x028] ∨
      (off % 4 = 0 ∧ 0x100 ≤ off ∧ off ≤ 0x4FC)) :
    accessOk 4 off = true ∧ (regAt off).locked = true := by
  obtain hnamed | ⟨hword, hlo, hhi⟩ := h
  · revert off
    decide
  · rw [accessOk_iff, regAt_of_ge (by omega), if_pos (by omega)]
    exact ⟨by omega, rfl⟩

/-- R33, R413: every offset of a read-only register, and every reserved one, ignores writes. -/
theorem regAt_readOnly {off : Nat}
    (h : off ∈ [0x000, 0x02C, 0x030, 0x034, 0x038, 0x03C, 0x040, 0x044] ∨
      (off % 4 = 0 ∧ (0x048 ≤ off ∧ off ≤ 0x0FC ∨ 0x500 ≤ off ∧ off ≤ 0xFFC))) :
    accessOk 4 off = true ∧ (regAt off).readOnly = true := by
  obtain hnamed | ⟨hword, hrange⟩ := h
  · revert off
    decide
  · rw [accessOk_iff, regAt_reserved hrange]
    exact ⟨by omega, rfl⟩

/-! ## Writes -/

theorem get_qmSet (s : State) (k j : Fin 256) (w : Word) :
    (s.qmSet k w).qm.get j = if j.val = k.val then w else s.qm.get j := by
  simp only [qmSet_qm, Vector.get_eq_getElem, Vector.getElem_set, eq_comm]

/-- R38, R419: of a word written to CFG its bits `[2:0]` count. -/
theorem extractLsb'_low_three (w : Word) : w.extractLsb' 0 3 = BitVec.ofNat 3 (w.toNat % 8) := by
  apply BitVec.eq_of_toNat_eq
  simp

theorem writeStatus_eq (w : Word) (s : State) :
    writeStatus w s =
      { s with
        done := if w.getLsbD 1 = true then false else s.done
        wdrop := if w.getLsbD 3 = true then false else s.wdrop } := by
  have hdrop : (s.wdrop && !w.getLsbD 3) = if w.getLsbD 3 = true then false else s.wdrop := by
    cases w.getLsbD 3 <;> simp
  rw [← hdrop, writeStatus]
  cases w.getLsbD 1 <;> rfl

/-- Settles O8: the lock by the registers' access type, the QM file by its index. -/
theorem lockedWritesStoreOnlyWhileIdle : Obligations.LockedWritesStoreOnlyWhileIdle := by
  refine ⟨fun s off w hbusy hoff => ?busy, fun s w hidle => ?idle, fun s w u v hidle hu hv => ?qm⟩
  case busy =>
    obtain ⟨hok, hlocked⟩ := regAt_locked hoff
    rw [hostWrite_of_ok hok, regWrite_locked_busy hlocked hbusy]
    exact ⟨some .ack, rfl⟩
  case idle =>
    rw [← extractLsb'_low_three]
    refine ⟨?_, ?_, ?_, ?_, ?_, ?_, ?_⟩
    all_goals
      refine ⟨some .ack, (hostWrite_of_ok rfl).trans ?_⟩
      change respond .ack (whenIdle s _) = _
      rw [whenIdle_idle hidle]
      rfl
  case qm =>
    have hk : 16 * u + v < 256 := by omega
    refine ⟨_, some .ack, ?_, fun j => get_qmSet s ⟨16 * u + v, hk⟩ j w⟩
    rw [hostWrite_of_ok (accessOk_iff.2 (by omega)), regAt_qm hk, regWrite, whenIdle_idle hidle]
    rfl

/-- Settles O9: read-only registers and reserved offsets, by the registers' access type. -/
theorem readOnlyAndReservedIgnoreWrites : Obligations.ReadOnlyAndReservedIgnoreWrites := by
  refine ⟨fun s off w hoff => ?write, fun s off hword hrange => ?read⟩
  case write =>
    obtain ⟨hok, hro⟩ := regAt_readOnly hoff
    rw [hostWrite_of_ok hok, regWrite_readOnly hro]
    exact ⟨some .ack, rfl⟩
  case read =>
    rw [hostRead_of_ok (accessOk_iff.2 (by omega)), regAt_reserved hrange]
    rfl

theorem hostWrite_status (w : Word) (s : State) : hostWrite 4 0x008 w s = respond .ack (writeStatus w s) :=
  hostWrite_of_ok (by decide)

theorem hostWrite_ctrl (w : Word) (s : State) : hostWrite 4 0x004 w s = respond .ack (writeCtrl w s) :=
  hostWrite_of_ok (by decide)

/-- Settles O10: the two writes that BUSY does not lock. -/
theorem statusAndCtrlWritesAct : Obligations.StatusAndCtrlWritesAct := by
  refine ⟨fun s w => ?status, fun s w => ⟨some .ack, hostWrite_ctrl w s⟩⟩
  case status =>
    rw [hostWrite_status, writeStatus_eq]
    exact ⟨⟨some .ack, rfl⟩, fun hdone => by simp [State.irq, hdone]⟩

/-- Settles O11: such an access reaches no register. -/
theorem malformedAccessHasNoEffect : Obligations.MalformedAccessHasNoEffect := by
  intro s width off w hbad
  have hnot : ¬ accessOk width off = true := by
    rw [accessOk_iff]
    omega
  exact ⟨if_neg hnot, if_neg hnot⟩

/-! ## The words of CTRL, STATUS, CFG and RPT_FLAGS by their fields (R35, R36, R38, R48) -/

theorem bitNat_lt_two (b : Bool) : bitNat b < 2 := by
  cases b <;> decide

theorem getLsbD_ofNat_of_digit {n k : Nat} {b : Bool} (hk : k < 32) (h : n / 2 ^ k % 2 = bitNat b) :
    (BitVec.ofNat 32 n).getLsbD k = b := by
  rw [BitVec.getLsbD_ofNat, Nat.testBit_eq_decide_div_mod_eq, h]
  cases b <;> simp [bitNat, hk]

theorem extractLsb'_ofNat_of_digits {n start len : Nat} {x : BitVec len} (hn : n < 2 ^ 32)
    (h : n / 2 ^ start % 2 ^ len = x.toNat) : (BitVec.ofNat 32 n).extractLsb' start len = x := by
  apply BitVec.eq_of_toNat_eq
  rw [BitVec.extractLsb'_toNat, BitVec.toNat_ofNat, Nat.mod_eq_of_lt hn, Nat.shiftRight_eq_div_pow, h]

theorem extractLsb'_ofNat_eq_zero {n start len : Nat} (hn : n < 2 ^ 32) (h : n / 2 ^ start % 2 ^ len = 0) :
    (BitVec.ofNat 32 n).extractLsb' start len = 0#len :=
  extractLsb'_ofNat_of_digits hn (by rw [h, BitVec.toNat_zero])

theorem ctrlWord_fields (s : State) :
    s.ctrlWord.getLsbD 0 = s.ie ∧ s.ctrlWord.getLsbD 1 = s.abort ∧ s.ctrlWord.extractLsb' 2 30 = 0#30 := by
  have hie := bitNat_lt_two s.ie
  have habort := bitNat_lt_two s.abort
  refine ⟨getLsbD_ofNat_of_digit ?_ ?_, getLsbD_ofNat_of_digit ?_ ?_, extractLsb'_ofNat_eq_zero ?_ ?_⟩ <;>
    omega

theorem statusWord_fields (s : State) :
    s.statusWord.getLsbD 0 = s.busy ∧ s.statusWord.getLsbD 1 = s.done ∧ s.statusWord.getLsbD 2 = s.err ∧
      s.statusWord.getLsbD 3 = s.wdrop ∧ s.statusWord.getLsbD 4 = s.qmUnaligned ∧
      s.statusWord.extractLsb' 5 3 = 0#3 ∧ s.statusWord.extractLsb' 8 4 = s.errcode ∧
      s.statusWord.extractLsb' 12 20 = 0#20 := by
  have hbusy := bitNat_lt_two s.busy
  have hdone := bitNat_lt_two s.done
  have herr := bitNat_lt_two s.err
  have hwdrop := bitNat_lt_two s.wdrop
  have hqm := bitNat_lt_two s.qmUnaligned
  have hcode := s.errcode.isLt
  refine ⟨getLsbD_ofNat_of_digit ?_ ?_, getLsbD_ofNat_of_digit ?_ ?_, getLsbD_ofNat_of_digit ?_ ?_,
    getLsbD_ofNat_of_digit ?_ ?_, getLsbD_ofNat_of_digit ?_ ?_, extractLsb'_ofNat_eq_zero ?_ ?_,
    extractLsb'_ofNat_of_digits ?_ ?_, extractLsb'_ofNat_eq_zero ?_ ?_⟩ <;> omega

theorem cfgWord_fields (s : State) :
    s.cfgWord.extractLsb' 0 3 = s.log2n ∧ s.cfgWord.extractLsb' 3 29 = 0#29 := by
  have hlog := s.log2n.isLt
  rw [State.cfgWord, ← BitVec.ofNat_toNat]
  refine ⟨extractLsb'_ofNat_of_digits ?_ ?_, extractLsb'_ofNat_eq_zero ?_ ?_⟩ <;> omega

theorem rptFlagsWord_fields (s : State) :
    s.rptFlagsWord.getLsbD 0 = s.rptPassed ∧ s.rptFlagsWord.extractLsb' 1 31 = 0#31 := by
  have hpassed := bitNat_lt_two s.rptPassed
  refine ⟨getLsbD_ofNat_of_digit ?_ ?_, extractLsb'_ofNat_eq_zero ?_ ?_⟩ <;> omega

/-- R53, R411: a QM offset reads its entry. -/
theorem hostRead_qm (s : State) (k : Fin 256) :
    hostRead 4 (0x100 + 4 * k.val) s = respond (.data (s.qm.get k)) s := by
  rw [hostRead_of_ok (accessOk_iff.2 (by omega)), regAt_qm k.isLt]
  rfl

/-- Settles O12: the stored words by the register map, the composed words by their fields. -/
theorem windowReads : Obligations.WindowReads := by
  intro s
  refine ⟨?_, ?_, ?_, ?_, ?_, ?_, ?_, ?_, ?_, ?_, ?_, ?_, ?_, ?_,
    ?ctrl, ?status, ?cfg, ?rptFlags, ?qm, ?reserved⟩
  case ctrl => exact ⟨_, hostRead_of_ok rfl, ctrlWord_fields s⟩
  case status => exact ⟨_, hostRead_of_ok rfl, statusWord_fields s⟩
  case cfg => exact ⟨_, hostRead_of_ok rfl, cfgWord_fields s⟩
  case rptFlags => exact ⟨_, hostRead_of_ok rfl, rptFlagsWord_fields s⟩
  case qm => exact hostRead_qm s
  case reserved => exact readOnlyAndReservedIgnoreWrites.2 s
  all_goals exact hostRead_of_ok rfl

end Sys2Proof.Machine
end

section
/-! PROOFS. How a command ends with an error: the check step's first error in the order of R458, and the codes
that are left to a run (R205, R452 to R457, R459). -/

namespace Sys2Proof.Machine

/-! ## Which check speaks (R458) -/

/-- R458: the first of the five groups of checks that fails gives the error. -/
theorem check_eq_or (i : Instr) (s : State) :
    check i s = (checkShape i s).or ((checkQm i s).or ((checkAlign i s).or
      ((checkFit i s).or (checkOverlap i s)))) := by
  unfold check
  cases checkShape i s <;> cases checkQm i s <;> cases checkAlign i s <;> cases checkFit i s <;> rfl

section
variable {i : Instr} {s t : State} {e : ErrRec}

theorem check_eq_some_iff :
    check i s = some e ↔ checkShape i s = some e ∨ checkShape i s = none ∧
      (checkQm i s = some e ∨ checkQm i s = none ∧
        (checkAlign i s = some e ∨ checkAlign i s = none ∧
          (checkFit i s = some e ∨ checkFit i s = none ∧ checkOverlap i s = some e))) := by
  simp only [check_eq_or, Option.or_eq_some_iff]

/-- R458, R459: the code of the check step's error tells which check has found it. -/
theorem check_eq_some_cases (h : check i s = some e) :
    (e.code = .invalidShape ∧ checkShape i s = some e) ∨
    (e.code = .invalidQmatrix ∧ checkQm i s = some e) ∨
    (e.code = .misaligned ∧ checkAlign i s = some e) ∨
    (e.code = .allocationFailure ∧ checkFit i s = some e) ∨
    (e.code = .overlap ∧ checkOverlap i s = some e) := by
  obtain hshape | ⟨-, hqm | ⟨-, halign | ⟨-, hfit | ⟨-, hoverlap⟩⟩⟩⟩ := check_eq_some_iff.1 h
  · exact .inl ⟨code_of_checkShape hshape, hshape⟩
  · exact .inr (.inl ⟨code_of_checkQm hqm, hqm⟩)
  · exact .inr (.inr (.inl ⟨code_of_checkAlign halign, halign⟩))
  · exact .inr (.inr (.inr (.inl ⟨code_of_checkFit hfit, hfit⟩)))
  · exact .inr (.inr (.inr (.inr ⟨code_of_checkOverlap hoverlap, hoverlap⟩)))

/-! ## The end of a command -/

/-- R220, R450: an error that is raised ends the command with its record. -/
theorem endsInError_raiseErr (e : ErrRec) (s : State) (he : e.code ≠ .none) :
    EndsInError (.next (raiseErr e s)) (errCodeBits e.code) e.info e.data s :=
  ⟨none, [], [], [], by simp only [raiseErr, endCommand, he, ne_eq, not_false_eq_true, decide_true]⟩

/-- R205: the check step ends the command with the error of its checks. -/
theorem endsInError_of_check (hp : s.phase = .check) (hc : check i s = some e) :
    EndsInError (exec i s) (errCodeBits e.code) e.info e.data s := by
  have hcode : e.code ≠ .none := fun h0 => errCodeBits_check_ne_zero hc (by rw [h0]; rfl)
  rw [exec_check hp, checkStep, hc]
  exact endsInError_raiseErr e s hcode

/-- R212, R215, R216, R221: a unit that ends its command ends it with success or with a bus error. -/
theorem runUnit_ends_cases {work : State → Nat → UnitWork} {finish : State → State} (hp : s.phase = .run)
    (hidle : (runUnit i work finish s).phase = .idle) :
    ∃ c info data s', (c = .none ∨ c = .busError) ∧ runUnit i work finish s = endRun i c info data s' := by
  have hrun : s.phase ≠ .idle := by rw [hp]; decide
  obtain ⟨a, -, -, h⟩ | ⟨a, -, -, h⟩ | ⟨-, a, -, -, h⟩ | ⟨-, a, -, -, h⟩ | ⟨-, h⟩ :=
    runUnit_cases i work finish s
  · rw [h] at hidle
    exact absurd hidle hrun
  · exact ⟨.busError, _, _, _, .inr rfl, h⟩
  · rw [h] at hidle
    exact absurd hidle hrun
  · exact ⟨.busError, _, _, _, .inr rfl, h⟩
  · rw [h] at hidle ⊢
    unfold afterUnit at hidle ⊢
    split_ifs at hidle ⊢ with hlast
    · exact ⟨.none, _, _, _, .inl rfl, rfl⟩
    · exact absurd hidle hrun

/-- R459: a command ends with the error of its checks, or in phase RUN with success, an abort or a bus error. -/
theorem exec_ends_cases (hp : s.phase ≠ .idle) (h : exec i s = .next t) (hidle : t.phase = .idle) :
    (∃ e, check i s = some e ∧ t = raiseErr e s) ∨
    (∃ c info data s', (c = .none ∨ c = .busError ∨ c = .aborted) ∧ t = endRun i c info data s') := by
  cases hph : s.phase with
  | idle => exact absurd hph hp
  | check =>
    rw [exec_check hph] at h
    obtain ⟨e, he, hstep⟩ | ⟨-, f, -, hstep⟩ | ⟨-, -, hstep⟩ := checkStep_cases i s
    · rw [hstep] at h
      exact .inl ⟨e, he, (Host.Outcome.next.inj h).symm⟩
    · rw [hstep] at h
      cases h
    · rw [hstep] at h
      cases h
      cases hidle
  | run =>
    rw [exec_run hph] at h
    obtain ⟨-, hstep⟩ | ⟨-, -, -, hstep⟩ | ⟨-, -, hstep⟩ := runStep_cases i (workOf i) (finishOf i) s
    · rw [hstep] at h
      cases h
    · rw [hstep] at h
      exact .inr ⟨.aborted, _, _, _, .inr (.inr rfl), (Host.Outcome.next.inj h).symm⟩
    · rw [hstep] at h
      cases h
      obtain ⟨c, info, data, s', hc, hend⟩ := runUnit_ends_cases hph hidle
      exact .inr ⟨c, info, data, s', hc.imp_right .inl, hend⟩

/-- R459: the code a command ends with is that of success, of a bus error or of an abort, or that of a check
which fails. -/
theorem errcode_cases_of_exec_ends (hp : s.phase ≠ .idle) (h : exec i s = .next t) (hidle : t.phase = .idle) :
    (t.errcode = 0#4 ∨ t.errcode = 7#4 ∨ t.errcode = 8#4) ∨
    (t.errcode = 1#4 ∧ checkShape i s ≠ none) ∨ (t.errcode = 2#4 ∧ checkQm i s ≠ none) ∨
    (t.errcode = 5#4 ∧ checkAlign i s ≠ none) ∨ (t.errcode = 3#4 ∧ checkFit i s ≠ none) ∨
    (t.errcode = 6#4 ∧ checkOverlap i s ≠ none) := by
  obtain ⟨e, he, rfl⟩ | ⟨c, info, data, s', rfl | rfl | rfl, rfl⟩ := exec_ends_cases hp h hidle
  · have hbits {c : ErrCode} (hc : e.code = c) : (raiseErr e s).errcode = errCodeBits c :=
      congrArg errCodeBits hc
    obtain ⟨hc, hsome⟩ | ⟨hc, hsome⟩ | ⟨hc, hsome⟩ | ⟨hc, hsome⟩ | ⟨hc, hsome⟩ := check_eq_some_cases he
    all_goals rw [hbits hc, hsome]
    · exact .inr (.inl ⟨rfl, nofun⟩)
    · exact .inr (.inr (.inl ⟨rfl, nofun⟩))
    · exact .inr (.inr (.inr (.inl ⟨rfl, nofun⟩)))
    · exact .inr (.inr (.inr (.inr (.inl ⟨rfl, nofun⟩))))
    · exact .inr (.inr (.inr (.inr (.inr ⟨rfl, nofun⟩))))
  · exact .inl (.inl rfl)
  · exact .inl (.inr (.inl rfl))
  · exact .inl (.inr (.inr rfl))

end

/-! ## INVALID_SHAPE (R452) -/

theorem usesBlockSize_iff (i : Instr) : usesBlockSize i = true ↔ i ≠ .verify := by
  cases i <;> decide

theorem isTile_iff (i : Instr) : isTile i = true ↔ i ≠ .qmbuild ∧ i ≠ .verify := by
  cases i <;> decide

theorem log2nLegal_iff (s : State) : log2nLegal s = true ↔ 1 ≤ s.log2n.toNat ∧ s.log2n.toNat ≤ 4 := by
  simp only [log2nLegal, Bool.and_eq_true, decide_eq_true_eq]

/-- R452 with its conditions as the rule writes them. -/
theorem checkShape_eq (i : Instr) (s : State) :
    checkShape i s =
      if i ≠ .verify ∧ ¬ (1 ≤ s.log2n.toNat ∧ s.log2n.toNat ≤ 4) then
        some ⟨.invalidShape, 1, BitVec.ofNat 32 s.log2n.toNat⟩
      else if s.rows = 0 then some ⟨.invalidShape, 2, 0⟩
      else if s.cols = 0 then some ⟨.invalidShape, 3, 0⟩
      else if (i ≠ .qmbuild ∧ i ≠ .verify) ∧ s.rows % 2 ^ s.log2n.toNat ≠ 0 then
        some ⟨.invalidShape, 4, BitVec.ofNat 32 s.rows⟩
      else if (i ≠ .qmbuild ∧ i ≠ .verify) ∧ s.cols % 2 ^ s.log2n.toNat ≠ 0 then
        some ⟨.invalidShape, 5, BitVec.ofNat 32 s.cols⟩
      else if i = .verify ∧ s.rows2 ≠ s.rows then some ⟨.invalidShape, 6, BitVec.ofNat 32 s.rows2⟩
      else if i = .verify ∧ s.cols2 ≠ s.cols then some ⟨.invalidShape, 7, BitVec.ofNat 32 s.cols2⟩
      else none := by
  simp only [checkShape, usesBlockSize_iff, isTile_iff, ← log2nLegal_iff, Bool.not_eq_true,
    BitVec.ofNat_toNat, State.blockSize]

theorem endsInError_of_checkShape {i : Instr} {s : State} {info data : Word} (hp : s.phase = .check)
    (h : checkShape i s = some ⟨.invalidShape, info, data⟩) : EndsInError (exec i s) 1#4 info data s :=
  endsInError_of_check hp (check_eq_some_iff.2 (.inl h))

/-- Settles O15: the subcodes are the branches of `checkShape`, in their order. -/
theorem invalidShapeIsReported : Obligations.InvalidShapeIsReported := by
  intro i s hp
  refine ⟨fun hi hlog => endsInError_of_checkShape hp ?log2n, fun hlog => ?_⟩
  case log2n => rw [checkShape_eq, if_pos ⟨hi, hlog⟩]; rfl
  have hlegal : ¬ (i ≠ .verify ∧ ¬ (1 ≤ s.log2n.toNat ∧ s.log2n.toNat ≤ 4)) := fun h => h.2 (hlog h.1)
  refine ⟨fun hrows => endsInError_of_checkShape hp ?rows,
    fun hrows hcols => endsInError_of_checkShape hp ?cols,
    fun hrows hcols => ⟨fun hqb hv => ⟨fun hmod => endsInError_of_checkShape hp ?rowsMod,
      fun hmod hmod' => endsInError_of_checkShape hp ?colsMod⟩, ?_⟩⟩
  case rows => rw [checkShape_eq, if_neg hlegal, if_pos hrows]; rfl
  case cols => rw [checkShape_eq, if_neg hlegal, if_neg hrows, if_pos hcols]; rfl
  case rowsMod => rw [checkShape_eq, if_neg hlegal, if_neg hrows, if_neg hcols, if_pos ⟨⟨hqb, hv⟩, hmod⟩]; rfl
  case colsMod =>
    rw [checkShape_eq, if_neg hlegal, if_neg hrows, if_neg hcols, if_neg (fun h => h.2 hmod),
      if_pos ⟨⟨hqb, hv⟩, hmod'⟩]
    rfl
  rintro rfl
  refine ⟨fun hne => endsInError_of_checkShape hp ?rows2, fun heq hne => endsInError_of_checkShape hp ?cols2⟩
  case rows2 => simp [checkShape_eq, hrows, hcols, hne]
  case cols2 => simp [checkShape_eq, hrows, hcols, heq, hne]

/-! ## INVALID_QMATRIX (R453) -/

theorem qmLegal_iff (s : State) (u v : Nat) :
    qmLegal s u v = true ↔ 1 ≤ (s.qmGet u v).toInt ∧ (s.qmGet u v).toInt ≤ 65535 := by
  simp only [qmLegal, Bool.and_eq_true, decide_eq_true_eq]
  rfl

/-- In a list that is ordered by `R`, the search finds the element before which, by `R`, there is no other hit. -/
theorem find?_eq_some_of_pairwise {α : Type} {R : α → α → Prop} {l : List α} {p : α → Bool} {a : α}
    (hl : l.Pairwise R) (ha : a ∈ l) (hp : p a = true) (hfirst : ∀ b ∈ l, R b a → p b = false) :
    l.find? p = some a := by
  obtain ⟨before, after, rfl⟩ := List.append_of_mem ha
  obtain ⟨-, -, hbefore⟩ := List.pairwise_append.1 hl
  refine List.find?_eq_some_iff_append.2 ⟨hp, before, after, rfl, fun b hb => ?_⟩
  rw [hfirst b (List.mem_append_left _ hb) (hbefore b hb a List.mem_cons_self)]
  rfl

/-- The positions of a block stand in row-major order (R453). -/
theorem pairwise_blockPositions (n : Nat) :
    (blockPositions n).Pairwise fun p q => p.1 < q.1 ∨ (p.1 = q.1 ∧ p.2 < q.2) := by
  refine List.pairwise_flatMap.2 ⟨fun u _ => ?_, List.pairwise_lt_range.imp fun {u u'} hu p hp q hq => ?_⟩
  · exact List.pairwise_map.2 (List.pairwise_lt_range.imp fun hv => .inr ⟨rfl, hv⟩)
  · obtain ⟨-, -, rfl⟩ := List.mem_map.1 hp
    obtain ⟨-, -, rfl⟩ := List.mem_map.1 hq
    exact .inl hu

theorem checkQm_eq_none_of_not_usesQm {i : Instr} (hi : usesQm i = false) (s : State) : checkQm i s = none := by
  simp [checkQm, hi]

/-- R453: the first bad entry is the one the check reports. -/
theorem checkQm_of_first_bad {i : Instr} {s : State} {u v : Nat} (hi : usesQm i = true)
    (hu : u < s.blockSize) (hv : v < s.blockSize) (hbad : qmLegal s u v = false)
    (hfirst : ∀ u' < s.blockSize, ∀ v' < s.blockSize, (u' < u ∨ (u' = u ∧ v' < v)) → qmLegal s u' v' = true) :
    checkQm i s = some ⟨.invalidQmatrix, BitVec.ofNat 32 (16 * u + v), s.qmGet u v⟩ := by
  have hfind : (blockPositions s.blockSize).find? (fun p => !qmLegal s p.1 p.2) = some (u, v) := by
    refine find?_eq_some_of_pairwise (pairwise_blockPositions _) (mem_blockPositions.2 ⟨hu, hv⟩) ?_ ?_
    · simp [hbad]
    · rintro ⟨u', v'⟩ hmem hlt
      obtain ⟨hu', hv'⟩ := mem_blockPositions.1 hmem
      simp [hfirst u' hu' v' hv' hlt]
  rw [checkQm, if_pos hi, hfind]

/-- Settles O16: the search runs in row-major order; a command that uses no steps does not search. -/
theorem invalidQmatrixReportsTheFirstBadEntry : Obligations.InvalidQmatrixReportsTheFirstBadEntry := by
  refine ⟨fun i s u v hp hshape hi hu hv hbad hfirst => ?reported, fun i s t hi hp h hidle hcode => ?never⟩
  case reported =>
    have huses : usesQm i = true := by
      obtain rfl | rfl | rfl | rfl | rfl := hi <;> rfl
    rw [← qmLegal_iff, Bool.not_eq_true] at hbad
    simp only [← qmLegal_iff] at hfirst
    have hqm := checkQm_of_first_bad huses hu hv hbad hfirst
    exact endsInError_of_check hp (check_eq_some_iff.2 (.inr ⟨hshape, .inl hqm⟩))
  case never =>
    have hnone : checkQm i s = none := by
      obtain rfl | rfl | rfl := hi <;> exact checkQm_eq_none_of_not_usesQm rfl s
    have hcases := errcode_cases_of_exec_ends hp h hidle
    simp [hcode, hnone] at hcases

/-! ## MISALIGNED and ALLOCATION_FAILURE (R455, R456) -/

section
variable {i : Instr} {s : State} {before after : List (FrameName × Nat)} {f : FrameName × Nat}

theorem checkAlign_of_first_bad (hframes : frames i = before ++ f :: after)
    (hbefore : ∀ g ∈ before, (s.base g.1).toNat % g.2 = 0) (hbad : (s.base f.1).toNat % f.2 ≠ 0) :
    checkAlign i s = some ⟨.misaligned, BitVec.ofNat 32 f.1.number, s.base f.1⟩ := by
  have hfind : (frames i).find? (fun g => decide ((s.base g.1).toNat % g.2 ≠ 0)) = some f :=
    List.find?_eq_some_iff_append.2
      ⟨decide_eq_true hbad, before, after, hframes, fun g hg => by simp [hbefore g hg]⟩
  rw [checkAlign, hfind]

theorem checkFit_of_first_bad (hframes : frames i = before ++ f :: after)
    (hbefore : ∀ g ∈ before, (s.base g.1).toNat + s.frameBytes g.2 ≤ Config.dmaSpace)
    (hbad : Config.dmaSpace < (s.base f.1).toNat + s.frameBytes f.2) :
    checkFit i s = some ⟨.allocationFailure, BitVec.ofNat 32 f.1.number, s.base f.1⟩ := by
  have hfind : (frames i).find? (fun g => decide (Config.dmaSpace < (s.base g.1).toNat + s.frameBytes g.2)) =
      some f :=
    List.find?_eq_some_iff_append.2
      ⟨decide_eq_true hbad, before, after, hframes, fun g hg => by simpa using hbefore g hg⟩
  rw [checkFit, hfind]

end

/-- Settles O17: both searches run through the frames in their order. -/
theorem frameErrorsReportTheFirstFrame : Obligations.FrameErrorsReportTheFirstFrame := by
  intro i s before after f hp hshape hqm hframes
  refine ⟨fun hbefore hbad => ?misaligned, fun haligned hbefore hbad => ?unfit⟩
  case misaligned =>
    have halign := checkAlign_of_first_bad hframes hbefore hbad
    exact endsInError_of_check hp (check_eq_some_iff.2 (.inr ⟨hshape, .inr ⟨hqm, .inl halign⟩⟩))
  case unfit =>
    have halign := (checkAlign_eq_none_iff i s).2 haligned
    have hfit := checkFit_of_first_bad hframes hbefore hbad
    exact endsInError_of_check hp
      (check_eq_some_iff.2 (.inr ⟨hshape, .inr ⟨hqm, .inr ⟨halign, .inl hfit⟩⟩⟩))

/-! ## OVERLAP (R457) -/

theorem exists_srcKind_of_mem_frames {i : Instr} {es : Nat} (h : (FrameName.src, es) ∈ frames i) :
    ∃ k, srcKind i = some k ∧ k.esize = es := by
  simpa [frames] using h

theorem exists_dstKind_of_mem_frames {i : Instr} {ed : Nat} (h : (FrameName.dst, ed) ∈ frames i) :
    ∃ k, dstKind i = some k ∧ k.esize = ed := by
  simpa [frames] using h

/-- R101: the commands that both read a frame at SRC and write one are the tile commands. -/
theorem isTile_of_kinds {i : Instr} {ks kd : FrameKind} (hks : srcKind i = some ks) (hkd : dstKind i = some kd) :
    isTile i = true := by
  rw [isTile_iff]
  constructor <;> rintro rfl
  · cases hks
  · cases hkd

/-- R457: a byte of both regions is an overlap, unless base and element size are the same. -/
theorem checkOverlap_of_shared_byte {i : Instr} {s : State} {ks kd : FrameKind} {a : Nat}
    (hks : srcKind i = some ks) (hkd : dstKind i = some kd)
    (hsrc : InElem a s.src.toNat (s.frameBytes ks.esize)) (hdst : InElem a s.dst.toNat (s.frameBytes kd.esize))
    (halias : ¬ (s.src = s.dst ∧ ks.esize = kd.esize)) : checkOverlap i s = some ⟨.overlap, 1, s.dst⟩ := by
  obtain ⟨hsrcLo, hsrcHi⟩ := hsrc
  obtain ⟨hdstLo, hdstHi⟩ := hdst
  rw [checkOverlap, if_pos (isTile_of_kinds hks hkd), hks, hkd]
  exact if_pos ⟨by omega, by omega, halias⟩

theorem checkOverlap_eq_none_of_not_tile {i : Instr} (hi : isTile i = false) (s : State) :
    checkOverlap i s = none := by
  simp [checkOverlap, hi]

/-- Settles O18: the shared byte puts each region's start below the other's end; the two commands that are no
tile commands do not look. -/
theorem overlapIsReported : Obligations.OverlapIsReported := by
  refine ⟨fun i s es ed a hp hshape hqm halign hfit hes hed hsrc hdst halias => ?reported,
    fun i s t hi hp h hidle hcode => ?never⟩
  case reported =>
    obtain ⟨ks, hks, rfl⟩ := exists_srcKind_of_mem_frames hes
    obtain ⟨kd, hkd, rfl⟩ := exists_dstKind_of_mem_frames hed
    have hoverlap := checkOverlap_of_shared_byte hks hkd hsrc hdst halias
    exact endsInError_of_check hp
      (check_eq_some_iff.2 (.inr ⟨hshape, .inr ⟨hqm, .inr ⟨halign, .inr ⟨hfit, hoverlap⟩⟩⟩⟩))
  case never =>
    have hnone : checkOverlap i s = none := by
      obtain rfl | rfl := hi <;> exact checkOverlap_eq_none_of_not_tile rfl s
    have hcases := errcode_cases_of_exec_ends hp h hidle
    simp [hcode, hnone] at hcases

/-! ## ILLEGAL_COMMAND (R454) -/

/-- R155: no command stands for a word with a reserved bit or with an opcode outside the map. -/
theorem decodeWord_ne_ok_of_illegal {w : Word}
    (h : w.extractLsb' 4 28 ≠ 0#28 ∨ w.extractLsb' 0 4 = 0#4 ∨ 9 ≤ (w.extractLsb' 0 4).toNat) (i : Instr) :
    decodeWord w ≠ .ok i := by
  intro hd
  have hmap := wordIsLegalExactlyByTheMap w
  have hillegal : ¬ (w.extractLsb' 4 28 = 0#28 ∧ 1 ≤ (w.extractLsb' 0 4).toNat ∧
      (w.extractLsb' 0 4).toNat ≤ 8) := by
    rintro ⟨hrsv, hlo, hhi⟩
    obtain hrsv' | hzero | hhigh := h
    · exact hrsv' hrsv
    · rw [hzero] at hlo
      exact absurd hlo (by decide)
    · omega
  rw [if_neg hillegal, hd] at hmap
  cases hmap

/-- Settles O6: the word does not decode, and the engine's step is that of an illegal word. -/
theorem illegalWordEndsItsCommand : Obligations.IllegalWordEndsItsCommand := by
  intro s hp hillegal
  obtain ⟨hidle, -⟩ | ⟨-, i, hd, -⟩ | ⟨-, r, -, hstep⟩ := engineStep_cases s
  · rw [hp] at hidle
    cases hidle
  · exact absurd hd (decodeWord_ne_ok_of_illegal hillegal i)
  · rw [hstep, illegalStep, hp]
    exact endsInError_raiseErr ⟨.illegalCommand, 0, s.lastcmd⟩ s nofun

end Sys2Proof.Machine
end

section
/-! PROOFS. The reset step: what is left of a command that a reset abandons (R520, R66). -/

namespace Sys2Proof.Machine

/-! ## Memory of an abandoned command (R520) -/

section
variable {i : Instr} {s : State}

/-- R520: before its first unit a command has written nothing, and with a quiet host nothing is left open. -/
theorem abandon_mem_of_not_run (hq : HostQuiet s) (hp : s.phase ≠ .run) : (abandon s).mem = s.mem := by
  unfold abandon
  split
  case h_1 hrun => exact absurd hrun hp
  case h_2 => rw [settle_of_quiet hq]
  case h_3 => rfl
  case h_4 => rfl

/-- R520: in phase RUN the elements of the current unit are open, and with a quiet host nothing else is. -/
theorem abandon_mem_of_run (hq : HostQuiet s) (hp : s.phase = .run) (hd : decodeWord s.lastcmd = .ok i) :
    (abandon s).mem = freeElems s.freeCount s.mem (unitWrites i s s.unit) := by
  have hactive : activeCommand s = some i := by rw [activeCommand, hp, hd]; rfl
  simp only [abandon, hactive, hp]
  rw [closeRun_of_quiet]
  exact hq

/-- The invariant names the command of phase RUN, and keeps the writes of its current unit in memory. -/
theorem CommandInv.unitWrites_inSpace (h : CommandInv s) (hp : s.phase = .run)
    (hd : decodeWord s.lastcmd = .ok i) : ∀ w ∈ unitWrites i s s.unit, w.addr + w.size ≤ Config.dmaSpace := by
  obtain ⟨-, hrun⟩ := h
  obtain ⟨j, hj, hcheck, -, hunit, -⟩ := hrun hp
  obtain rfl : i = j := Except.ok.inj (hd.symm.trans hj)
  intro w hw
  obtain ⟨-, -, -, -, -, -, hspace⟩ := unitWrites_inRegion hcheck hunit w hw
  exact hspace

theorem abandon_mem_wf (hinv : Inv s) (hq : HostQuiet s) : (abandon s).mem.wf = true := by
  obtain ⟨⟨hmem, -⟩, -, hcommand, -⟩ := hinv
  by_cases hp : s.phase = .run
  · obtain ⟨i, hd, -⟩ := hcommand.2 hp
    rw [abandon_mem_of_run hq hp hd]
    exact freeElems_wf hmem (hcommand.unitWrites_inSpace hp hd)
  · rwa [abandon_mem_of_not_run hq hp]

/-- R520: outside the DST elements of the current unit memory stays. -/
theorem abandon_read_of_outside (hinv : Inv s) (hq : HostQuiet s) (hp : s.phase = .run)
    (hd : decodeWord s.lastcmd = .ok i) {a : Nat}
    (ha : ∀ w ∈ unitWrites i s s.unit, ¬ InElem a w.addr w.size) : (abandon s).mem.read a = s.mem.read a := by
  obtain ⟨⟨hmem, -⟩, -, hcommand, -⟩ := hinv
  rw [abandon_mem_of_run hq hp hd]
  exact read_freeElems_of_outside hmem (hcommand.unitWrites_inSpace hp hd) ha

end

/-! ## The reset step (R520) -/

theorem step_reset {s : State} {rest : List Event} (ha : s.agenda = .reset :: rest) :
    step s = .next (resetStep { s.tick with agenda := rest }) := by
  simp only [step, ha, envStep]

/-- Settles O49: the registers are those of `resetOn` by definition, and memory is that of the abandoned
command. The model's step counter and the agenda, which a step moves on first, stand neither in the invariant
nor in the accesses of a unit. -/
theorem resetStepResult : Obligations.ResetStepResult := by
  intro s rest ha
  refine ⟨_, step_reset ha, rfl, rfl, rfl, rfl, rfl, rfl, fun hinv hq => ?memory⟩
  case memory =>
    have hinv' : Inv { s.tick with agenda := rest } := hinv
    have hq' : HostQuiet { s.tick with agenda := rest } := hq
    exact ⟨abandon_mem_wf hinv' hq', abandon_mem_of_not_run hq',
      fun i hp hd a houtside => abandon_read_of_outside hinv' hq' hp hd houtside⟩

end Sys2Proof.Machine
end

section
/-! PROOFS. Encoding, the next step, and the reset state against the map and the invariant (R151, R200, R201, R66). -/

namespace Sys2Proof

/-- R151: no two commands share a word, so the word of a legal command is its encoding. -/
theorem eq_encode_of_fields {w : Word} (hrsv : rsvField w = 0#28) {i : Instr}
    (hopc : instrOfOpc (opcField w) = some i) : w = encode i := by
  have hmap : ∀ opc : BitVec 4, ∀ i : Instr, i ∈ instrOfOpc opc → opc = opcField (encode i) := by
    intro opc i
    cases i <;> revert opc <;> decide
  have hsplit : w.toNat = 16 * (rsvField w).toNat + (opcField w).toNat := by
    have hlt := w.isLt
    simp only [rsvField, opcField, BitVec.extractLsb'_toNat, Nat.shiftRight_eq_div_pow]
    omega
  have hsmall : (encode i).toNat = (opcField (encode i)).toNat := by
    cases i <;> rfl
  apply BitVec.eq_of_toNat_eq
  rw [hsplit, hrsv, hmap _ i hopc, hsmall, BitVec.toNat_zero, Nat.mul_zero, Nat.zero_add]

/-- R152: a word decodes to the command that it encodes, and to no other. -/
theorem decodeWord_eq_ok_iff (w : Word) (i : Instr) : decodeWord w = .ok i ↔ w = encode i := by
  constructor
  · intro h
    by_cases hrsv : rsvField w = 0#28
    · have hopc := toOption_decodeWord w
      rw [h, if_pos hrsv] at hopc
      exact eq_encode_of_fields hrsv hopc.symm
    · simp [decodeWord, rsvIsZero, hrsv] at h
  · rintro rfl
    exact Machine.decodeWord_encode i

/-- Settles O2: the bytes of each word compose to the word again, and the fields of a legal word determine it. -/
theorem decodeAndEncodeAgree : Obligations.DecodeAndEncodeAgree := by
  refine ⟨fun i rest => ?bytes, decodeWord_eq_ok_iff⟩
  case bytes => cases i <;> rfl

/-- Settles O1: each word is looked up in the map. -/
theorem specWordsDecode : Obligations.SpecWordsDecode := by
  unfold Obligations.SpecWordsDecode
  decide

end Sys2Proof

namespace Sys2Proof.Machine

/-! ## A step (R200, R201, R414) -/

/-- An engine step of a running or a starting command, where the agenda lets the engine move next. -/
theorem step_of_engine {i : Instr} {s : State} {rest : List Event} (ha : s.agenda = .engine :: rest)
    (hp : s.phase ≠ .idle) (hd : decodeWord s.lastcmd = .ok i) : step s = exec i { s.tick with agenda := rest } := by
  have hstep : step s = engineStep { s.tick with agenda := rest } := by unfold step; rw [ha]
  rw [hstep]
  obtain ⟨hidle, -⟩ | ⟨-, j, hj, hexec⟩ | ⟨-, r, hr, -⟩ := engineStep_cases { s.tick with agenda := rest }
  · exact absurd hidle hp
  · obtain rfl : i = j := Except.ok.inj (hd.symm.trans hj)
    exact hexec
  · exact absurd (hd.symm.trans hr) nofun

theorem step_of_event {s : State} {e : Event} {rest : List Event} (ha : s.agenda = e :: rest) (he : e ≠ .engine) :
    step s = .next (envStep e { s.tick with agenda := rest }) := by
  unfold step
  rw [ha]
  cases e
  case engine => exact absurd rfl he
  all_goals rfl

/-- Settles O4: the engine's step by the command of LASTCMD, an idle engine's, and an agent's. -/
theorem stepRunsTheDecodedCommand : Obligations.StepRunsTheDecodedCommand := by
  refine ⟨fun s i hp hd ha => step_of_command ha hp hd, fun s i rest hp hd ha => step_of_engine ha hp hd,
    fun s hp ha => ?idle, fun s e rest he ha => step_of_event ha he⟩
  case idle => exact (run_one s).symm.trans (run_idle hp ha 1)

/-- Settles O5: the write accepts the word, and the engine's step that follows is that of its command. -/
theorem writtenCommandRunsNext : Obligations.WrittenCommandRunsNext := by
  intro s i rest hidle ha
  have haccept : step s = .next (respond .ack (acceptCommand (encode i)
      { s.tick with agenda := .engine :: rest })) := by
    rw [step_of_event ha nofun, envStep, hostWrite_cmd, whenIdle_idle (by exact hidle)]
  exact ⟨_, _, haccept, rfl, rfl, rfl, rfl, step_of_engine rfl nofun (decodeWord_encode i)⟩

/-- Settles O51: the fields of the reset state, one after another. -/
theorem resetMeetsInv : Obligations.ResetMeetsInv := by
  intro p
  refine ⟨⟨rfl, rfl, fun st hst => ?_⟩, ⟨?_, ?_, ?_, ?_, ?_, ?_⟩, ⟨nofun, nofun⟩, nofun, nofun, ?_⟩
  · cases hst
  all_goals simp [State.resetOn]

/-! ## A host write while a command runs (R421) -/

/-- Settles O13: a locked register takes only `WDROP`, and of the others CTRL and STATUS hold just these flags. -/
theorem hostWriteDuringACommand : Obligations.HostWriteDuringACommand := by
  intro s width off w hbusy
  by_cases hok : accessOk width off = true
  · rw [hostWrite_of_ok hok]
    cases hr : regAt off
    case ctrl => exact ⟨_, _, _, _, rfl⟩
    case status =>
      rw [regWrite, writeStatus_eq]
      exact ⟨_, _, _, _, rfl⟩
    case id | rptExceed | rptTotal | rptMaxerr | rptFlags | errinfo | errdata | progress | reserved =>
      exact ⟨_, _, _, _, rfl⟩
    case cmd | cfg | dim | dim2 | src | src2 | dst | tol | qm =>
      rw [regWrite_locked_busy rfl hbusy]
      exact ⟨s.ie, s.abort, s.done, true, rfl⟩
  · rw [hostWrite, if_neg hok]
    exact ⟨_, _, _, _, rfl⟩

end Sys2Proof.Machine
end

section
/-! PROOFS. One work unit of a tile command, and its whole frame (R211, R212, R221, R330). -/

namespace Sys2Proof.Machine

/-- Settles O40: every position lies in a tile of the frame, and by `tilePos_inj` in one place of one tile. -/
theorem tilesPartitionTheFrame : Obligations.TilesPartitionTheFrame := by
  intro i s hi hs
  refine ⟨fun r hr c hc => exists_tilePos_eq hi hs hr hc, fun t ht x hx y hy => ?_⟩
  obtain ⟨hrow, hcol⟩ := tilePos_inFrame hi hs ht hx hy
  exact ⟨hrow, hcol, fun t' _ x' hx' y' hy' => tilePos_inj hx hx' hy hy'⟩

/-- Settles O36: all the tiles together are the whole DST frame. -/
theorem tileCommandWritesItsWholeFrame : Obligations.TileCommandWritesItsWholeFrame := by
  intro i kd s hi hkd hd hp hu hc hf hfree hm
  obtain ⟨ks, hks⟩ := exists_srcKind_of_tile hi
  obtain ⟨hs, -⟩ := (check_eq_none_iff i s).1 hc
  obtain ⟨m, ⟨hholds, hframe, hwf⟩, hrun⟩ := run_tileCommand hi hks hkd hd hc hfree hp hu hf hm
  refine ⟨m, hrun, hholds, fun a houtside => hframe a fun t ht x hx y hy ha => houtside ?_, hwf⟩
  have hregion := tileAddr_inRegion .dst kd hi hs ht hx hy
  exact ⟨hregion.1.trans ha.1, ha.2.trans_le hregion.2⟩

/-! ## One unit (R212) -/

/-- R220, R221: with a quiet host the end of a run is what completion writes and the record of stale copies. -/
theorem endRun_of_quiet {i : Instr} {s : State} (hq : HostQuiet s) (c : ErrCode) (info data : Word) :
    endRun i c info data s = { endCommand c info data s with dmaWritten := noteDmaWritten i s } := by
  rw [endRun, closeRun_of_quiet hq]
  rfl

/-- R212, R221: what a unit that runs leaves, for a command without completion action. -/
theorem exec_tileUnit_eq {i : Instr} {kd : FrameKind} {s : State} (hi : isTile i = true)
    (hkd : dstKind i = some kd) (h : UnitRuns i s) :
    exec i s = .next (afterTileUnit i (writeElems s.mem (workOf i s s.unit).writes) s) := by
  obtain ⟨ks, hks⟩ := exists_srcKind_of_tile hi
  have hfinish : finishOf i = noAction := by cases i <;> cases hi <;> rfl
  rw [exec_of_unitRuns h, hfinish, workOf_of_tile hi hks hkd]
  obtain ⟨-, -, -, hq, -⟩ := h
  unfold afterUnit afterTileUnit
  split_ifs with hlast hlast' hlast'
  · rw [noAction, endRun_of_quiet (by exact hq)]
    rfl
  · exact absurd hlast hlast'
  · exact absurd hlast' hlast
  · rfl

/-- R211, R212, R112: a tile unit gives each DST element of its tile the value of the command's rule, and leaves
everything else but the cursor and what completion writes. -/
theorem exec_tileUnit {i : Instr} {kd : FrameKind} {s : State} (hi : isTile i = true)
    (hkd : dstKind i = some kd) (h : UnitRuns i s) (hm : s.mem.wf = true) :
    ∃ m, exec i s = .next (afterTileUnit i m s) ∧ TileHolds s kd s.unit (tileValue i s s.unit) m ∧
      OnlyTileWritten s kd s.unit m ∧ m.wf = true := by
  obtain ⟨ks, hks⟩ := exists_srcKind_of_tile hi
  have hexec := exec_tileUnit_eq hi hkd h
  obtain ⟨⟨-, hc, hu⟩, -, -, hq, hr⟩ := h
  exact ⟨_, hexec, tileUnit_memory hi hks hkd hc hu hq hr hm⟩

/-- Settles O23: `tileValue` of FDCT is R287's double sum. -/
theorem fdctUnitResult : Obligations.FdctUnitResult := fun _ h hm => exec_tileUnit rfl rfl h hm

/-- Settles O24: `tileValue` of IDCT is R288's double sum. -/
theorem idctUnitResult : Obligations.IdctUnitResult := fun _ h hm => exec_tileUnit rfl rfl h hm

/-- Settles O25: `tileValue` of QUANT is R331's quotient. -/
theorem quantUnitResult : Obligations.QuantUnitResult := fun _ h hm => exec_tileUnit rfl rfl h hm

/-- Settles O26: `tileValue` of DEQUANT is R332's clamped product. -/
theorem dequantUnitResult : Obligations.DequantUnitResult := fun _ h hm => exec_tileUnit rfl rfl h hm

/-- Settles O27: `tileValue` of ENCODE is R331's quotient of R287's double sum. -/
theorem encodeUnitResult : Obligations.EncodeUnitResult := fun _ h hm => exec_tileUnit rfl rfl h hm

/-- Settles O28: `tileValue` of DECODE is R288's double sum of R332's products. -/
theorem decodeUnitResult : Obligations.DecodeUnitResult := fun _ h hm => exec_tileUnit rfl rfl h hm

end Sys2Proof.Machine
end

section
/-! PROOFS. QMBUILD and VERIFY: one frame row, and the whole command (R250 to R256, R380 to R386). -/

namespace Sys2Proof.Machine

/-! ## A command unit by unit -/

/-- A run that comes to its first unit in one step, and does each further unit in one step, has done `t` units after
`1 + t` steps. -/
theorem run_of_units {s r₀ : State} {units : Nat} {done : Nat → State → Prop} (hfirst : step s = .next r₀)
    (hzero : done 0 r₀)
    (hunit : ∀ t r, t + 1 < units → done t r → ∃ r', done (t + 1) r' ∧ step r = .next r') (t : Nat)
    (ht : t < units) : ∃ r, done t r ∧ Sys2Proof.core.run (1 + t) s = .next r := by
  induction t with
  | zero => exact ⟨r₀, hzero, (run_one s).trans hfirst⟩
  | succ t ih =>
    obtain ⟨r, hdone, hrun⟩ := ih (Nat.lt_of_succ_lt ht)
    obtain ⟨r', hdone', hstep⟩ := hunit t r ht hdone
    exact ⟨r', hdone', (run_succ_of_run hrun).trans hstep⟩

theorem rows_pos {i : Instr} {s : State} (hc : check i s = none) : 0 < s.rows := by
  obtain ⟨hs, -⟩ := (check_eq_none_iff i s).1 hc
  obtain ⟨-, hrows, -⟩ := (checkShape_eq_none_iff i s).1 hs
  exact Nat.pos_of_ne_zero hrows

/-! ## One row of QMBUILD (R252) -/

/-- R102: a step is written as its own word. -/
theorem toNat_toInt_emod (w : Word) : (w.toInt % 2 ^ (8 * 4)).toNat = w.toNat := by
  have hlt := w.isLt
  rw [BitVec.toInt_eq_toNat_cond]
  split <;> omega

/-- The values that row `i` of the tiled matrix holds in `m` (R252). -/
def QmRowHolds (s : State) (i : Nat) (m : Memory) : Prop :=
  ∀ j < s.cols, m.readLE (s.elemAddr .dst 4 i j) 4 = (s.qmGet (i % s.blockSize) (j % s.blockSize)).toNat

/-- R252, R112: a unit of QMBUILD writes the elements of its row and no other byte. -/
theorem qmbuildWork_memory {s : State} {t : Nat} (hc : check .qmbuild s = none) (ht : t < s.rows)
    (hm : s.mem.wf = true) :
    QmRowHolds s t (writeElems s.mem (qmbuildWork s t).writes) ∧
      OnlyRowWritten s .tiledQm t (writeElems s.mem (qmbuildWork s t).writes) ∧
      (writeElems s.mem (qmbuildWork s t).writes).wf = true := by
  have hspace : ∀ w ∈ (qmbuildWork s t).writes, w.addr + w.size ≤ Config.dmaSpace :=
    workOf_writes_inRegion (i := .qmbuild) hc ht
  refine ⟨fun j hj => ?holds, fun a ha => ?frame, writeElems_wf hm hspace⟩
  case holds =>
    have hapart : (qmbuildWork s t).writes.Pairwise WritesApart :=
      List.pairwise_map.2 (List.nodup_range.pairwise_of_forall_ne fun j hj j' hj' hne =>
        elemAddr_apart (List.mem_range.1 hj) (List.mem_range.1 hj') fun h => hne (Prod.ext_iff.1 h).2)
    exact (readLE_writeElems hm hspace hapart (List.mem_map.2 ⟨j, List.mem_range.2 hj, rfl⟩)).trans
      (toNat_toInt_emod _)
  case frame =>
    refine read_writeElems_of_outside hm hspace fun w hw => ?_
    obtain ⟨j, hj, rfl⟩ := List.mem_map.1 hw
    exact ha j (List.mem_range.1 hj)

/-- R254: the flag as the rule writes it. -/
theorem qmUnalignedFlag_eq (s : State) :
    qmUnalignedFlag s = decide (s.rows % s.blockSize ≠ 0 ∨ s.cols % s.blockSize ≠ 0) :=
  (Bool.decide_or _ _).symm

/-- R212, R221, R254: what a unit of QMBUILD leaves. -/
theorem exec_qmbuildUnit_eq {s : State} (h : UnitRuns .qmbuild s) :
    exec .qmbuild s = .next
      (if s.unit + 1 = s.rows then
        { afterLastUnit .qmbuild (writeElems s.mem (qmbuildWork s s.unit).writes) s with
          qmUnaligned := decide (s.rows % s.blockSize ≠ 0 ∨ s.cols % s.blockSize ≠ 0) }
      else afterInnerUnit (writeElems s.mem (qmbuildWork s s.unit).writes) s) := by
  rw [exec_of_unitRuns h, ← qmUnalignedFlag_eq]
  obtain ⟨-, -, -, hq, -⟩ := h
  refine congrArg Host.Outcome.next (if_congr Iff.rfl ?_ rfl)
  rw [endRun_of_quiet (by exact hq)]
  rfl

/-- Settles O22: the row's writes, and the state after them by R212. -/
theorem qmbuildUnitResult : Obligations.QmbuildUnitResult := by
  intro s h hm
  have hexec := exec_qmbuildUnit_eq h
  obtain ⟨⟨-, hc, hu⟩, -⟩ := h
  exact ⟨_, hexec, qmbuildWork_memory hc hu hm⟩

/-! ## The whole of QMBUILD -/

/-- The first `k` rows of the DST frame hold in `m` the tiled matrix of `s`, and every byte outside them reads as
in `s`. -/
def QmRowsDone (s : State) (k : Nat) (m : Memory) : Prop :=
  (∀ i < k, QmRowHolds s i m) ∧
  (∀ a, (∀ i < k, ∀ j < s.cols, ¬ InElem a (s.elemAddr .dst 4 i j) 4) → m.read a = s.mem.read a) ∧
  m.wf = true

theorem qmRowsDone_zero {s : State} (hm : s.mem.wf = true) : QmRowsDone s 0 s.mem :=
  ⟨fun _ ht => absurd ht (Nat.not_lt_zero _), fun _ _ => rfl, hm⟩

/-- One more row done. -/
theorem QmRowsDone.succ {s : State} {t : Nat} {m m' : Memory} (hdone : QmRowsDone s t m)
    (hholds : QmRowHolds s t m') (honly : OnlyRowWritten { s with mem := m } .tiledQm t m')
    (hwf : m'.wf = true) : QmRowsDone s (t + 1) m' := by
  obtain ⟨hbefore, hframe, -⟩ := hdone
  refine ⟨fun i hi => ?holds, fun a ha => ?frame, hwf⟩
  case holds =>
    obtain hlt | rfl := Nat.lt_succ_iff_lt_or_eq.1 hi
    · intro j hj
      rw [← hbefore i hlt j hj]
      refine Memory.readLE_congr fun b hlo hhi => honly b fun j' hj' hb => ?_
      have hbyte : InElem b (s.elemAddr .dst 4 t j') 4 := hb
      obtain ⟨hblo, hbhi⟩ := hbyte
      have hapart := elemAddr_apart (s := s) (f := .dst) (e := 4) (i := i) (i' := t) hj hj'
        fun h => hlt.ne (Prod.ext_iff.1 h).1
      omega
    · exact hholds
  case frame =>
    rw [honly a fun j hj => ha t (Nat.lt_succ_self t) j hj]
    exact hframe a fun i hi => ha i (Nat.lt_succ_of_lt hi)

section
variable {s : State} {t : Nat} {m : Memory} (hd : decodeWord s.lastcmd = .ok .qmbuild)
  (hc : check .qmbuild s = none) (hfree : RunsFreely s)
include hd hc hfree

/-- R212: one engine step does the row that is due, and after the last one the command completes. -/
theorem QmRowsDone.step_running (hdone : QmRowsDone s t m) (ht : t < s.rows) :
    ∃ m', QmRowsDone s (t + 1) m' ∧ step (runningState s m t) = .next
      (if t + 1 = s.rows then
        { afterLastUnit .qmbuild m' s with
          unit := t + 1, freeCount := s.freeCount + (1 + (t + 1))
          qmUnaligned := decide (s.rows % s.blockSize ≠ 0 ∨ s.cols % s.blockSize ≠ 0) }
      else runningState s m' (t + 1)) := by
  have hruns : UnitRuns .qmbuild (runningState s m t).tick := unitRuns_running hc ht hfree
  have hstep := (step_of_command hfree.2.1 (s := runningState s m t) nofun hd).trans (exec_qmbuildUnit_eq hruns)
  obtain ⟨-, -, -, -, hwait⟩ := hfree
  have hm : m.wf = true := by
    obtain ⟨-, -, hm⟩ := hdone
    exact hm
  obtain ⟨hholds, honly, hwf⟩ := qmbuildWork_memory (s := (runningState s m t).tick) hc ht hm
  refine ⟨_, hdone.succ hholds honly hwf, hstep.trans ?_⟩
  refine congrArg Host.Outcome.next (if_congr Iff.rfl rfl ?_)
  simp only [afterInnerUnit, runningState, State.tick, hwait]
  rfl

/-- R205, R212, R254: the whole run. -/
theorem run_qmbuild (hp : s.phase = .check) (hu : s.unit = 0) (hf : sideEffectFrame .qmbuild s = none)
    (hm : s.mem.wf = true) :
    ∃ m, QmRowsDone s s.rows m ∧ Sys2Proof.core.run (1 + s.rows) s =
      .next { afterLastUnit .qmbuild m s with
        unit := s.rows, freeCount := s.freeCount + (1 + s.rows)
        qmUnaligned := decide (s.rows % s.blockSize ≠ 0 ∨ s.cols % s.blockSize ≠ 0) } := by
  obtain ⟨t, ht⟩ := Nat.exists_eq_add_one_of_ne_zero (rows_pos hc).ne'
  obtain ⟨r, ⟨m, hdone, rfl⟩, hrun⟩ := run_of_units (units := s.rows)
    (done := fun t r => ∃ m, QmRowsDone s t m ∧ r = runningState s m t)
    (step_check_passes hfree.2.1 hp hd hu hc hf) ⟨s.mem, qmRowsDone_zero hm, rfl⟩
    (fun t r ht ⟨m, hdone, hr⟩ => by
      obtain ⟨m', hdone', hstep⟩ := hdone.step_running hd hc hfree (Nat.lt_of_succ_lt ht)
      rw [if_neg ht.ne] at hstep
      exact ⟨_, ⟨m', hdone', rfl⟩, hr ▸ hstep⟩)
    t (by omega)
  obtain ⟨m', hdone', hstep⟩ := hdone.step_running hd hc hfree (show t < s.rows by omega)
  rw [if_pos ht.symm, ht] at hstep
  rw [ht]
  exact ⟨m', hdone', (run_succ_of_run hrun).trans hstep⟩

end

/-- Settles O37: the rows together are the whole DST frame, and R253's bounds are those of the checked steps. -/
theorem qmbuildWritesTheTiledMatrix : Obligations.QmbuildWritesTheTiledMatrix := by
  intro s hd hp hu hc hf hfree hm
  obtain ⟨m, ⟨hholds, hframe, hwf⟩, hrun⟩ := run_qmbuild hd hc hfree hp hu hf hm
  obtain ⟨-, hqm, -⟩ := (check_eq_none_iff .qmbuild s).1 hc
  refine ⟨m, hrun, fun i hi j hj => ?_, fun a houtside => hframe a fun i hi j hj ha => houtside ?_, hwf⟩
  · have hvalue := hholds i hi j hj
    obtain ⟨hlo, hhi⟩ := (qmLegal_iff _ _ _).1 ((checkQm_eq_none_iff _ _).1 hqm rfl (i % s.blockSize)
      (Nat.mod_lt _ (blockSize_pos s)) (j % s.blockSize) (Nat.mod_lt _ (blockSize_pos s)))
    rw [BitVec.toInt_eq_toNat_cond] at hlo hhi
    refine ⟨hvalue, ?_, ?_⟩
    all_goals
      rw [State.elemAddr, State.base] at hvalue
      rw [hvalue]
      split at hlo <;> omega
  · have hregion := elemAddr_inRegion (f := .dst) (e := 4) hi hj
    exact ⟨hregion.1.trans ha.1, ha.2.trans_le hregion.2⟩

/-! ## One row of VERIFY (R383) -/

/-- R383: the difference of the two samples at a position, as memory holds them. -/
def sampleDiff (s : State) (i j : Nat) : Nat :=
  (sampleAt s.mem s .src i j - sampleAt s.mem s .src2 i j).natAbs

theorem rowDiffs_of_quiet {s : State} (hq : HostQuiet s) (hr : ReadsAgree s) (t : Nat) :
    rowDiffs s t = (List.range s.cols).map (sampleDiff s t) := by
  refine List.map_congr_left fun j _ => ?_
  rw [State.readElem, State.readElem, dmaRead_of_quiet hq hr, dmaRead_of_quiet hq hr]
  rfl

/-- R383: the accumulators after row `t` of VERIFY. -/
theorem verifyWork_of_quiet {s : State} (hq : HostQuiet s) (hr : ReadsAgree s) (t : Nat) :
    verifyWork s t =
      ⟨[], s.accExceed + ((List.range s.cols).filter fun j => s.tol.toNat < 256 * sampleDiff s t j).length,
        ((List.range s.cols).map (sampleDiff s t)).foldl max s.accMax⟩ := by
  rw [verifyWork, rowDiffs_of_quiet hq hr, List.filter_map, List.length_map]
  rfl

/-- `s` after a row of VERIFY that leaves the accumulators `e` and `x` (R212, R386). -/
def afterVerifyUnit (e x : Nat) (s : State) : State :=
  if s.unit + 1 = s.rows then
    { afterLastUnit .verify s.mem s with
      accExceed := e, accMax := x
      rptExceed := BitVec.ofNat 32 e, rptTotal := BitVec.ofNat 32 (s.rows * s.cols)
      rptMaxerr := BitVec.ofNat 32 x, rptPassed := decide (e = 0) }
  else { afterInnerUnit s.mem s with accExceed := e, accMax := x }

theorem exec_verifyUnit {s : State} (h : UnitRuns .verify s) :
    exec .verify s = .next (afterVerifyUnit
      (s.accExceed + ((List.range s.cols).filter fun j => s.tol.toNat < 256 * sampleDiff s s.unit j).length)
      (((List.range s.cols).map (sampleDiff s s.unit)).foldl max s.accMax) s) := by
  rw [exec_of_unitRuns h]
  obtain ⟨-, -, -, hq, hr⟩ := h
  rw [workOf, verifyWork_of_quiet hq hr]
  refine congrArg Host.Outcome.next (if_congr Iff.rfl ?_ rfl)
  rw [endRun_of_quiet (by exact hq)]
  rfl

/-- Settles O29: the row's accumulators, and the state after them by R212 and R386. -/
theorem verifyUnitResult : Obligations.VerifyUnitResult := by
  rintro s d e x h hd rfl rfl
  obtain rfl : d = sampleDiff s s.unit := funext hd
  exact exec_verifyUnit h

/-! ## The whole of VERIFY -/

/-- The positions of the first `k` rows, in the order of R383. -/
def rowPositions (s : State) (k : Nat) : List (Nat × Nat) :=
  (List.range k).flatMap fun i => (List.range s.cols).map fun j => (i, j)

/-- How many of the first `k` rows' differences are over the tolerance (R383). -/
def exceedCount (s : State) (k : Nat) : Nat :=
  ((rowPositions s k).filter fun p => s.tol.toNat < 256 * sampleDiff s p.1 p.2).length

/-- The largest difference of the first `k` rows (R383). -/
def maxDiff (s : State) (k : Nat) : Nat :=
  ((rowPositions s k).map fun p => sampleDiff s p.1 p.2).foldl max 0

theorem rowPositions_succ (s : State) (k : Nat) :
    rowPositions s (k + 1) = rowPositions s k ++ (List.range s.cols).map fun j => (k, j) := by
  simp only [rowPositions, List.range_succ, List.flatMap_append, List.flatMap_singleton]

theorem exceedCount_succ (s : State) (k : Nat) :
    exceedCount s (k + 1) = exceedCount s k +
      ((List.range s.cols).filter fun j => s.tol.toNat < 256 * sampleDiff s k j).length := by
  rw [exceedCount, rowPositions_succ, List.filter_append, List.length_append, List.filter_map, List.length_map]
  rfl

theorem maxDiff_succ (s : State) (k : Nat) :
    maxDiff s (k + 1) = ((List.range s.cols).map (sampleDiff s k)).foldl max (maxDiff s k) := by
  rw [maxDiff, rowPositions_succ, List.map_append, List.foldl_append, List.map_map]
  rfl

/-- VERIFY running from its check step in `s`: the checks and the first `k` rows are done. -/
def verifyRunning (s : State) (k : Nat) : State :=
  { runningState s s.mem k with accExceed := exceedCount s k, accMax := maxDiff s k }

/-- R386: what the last row leaves. -/
theorem afterVerifyUnit_last {s : State} {t : Nat} (ht : t + 1 = s.rows) (e x : Nat) :
    afterVerifyUnit e x (verifyRunning s t).tick =
      { afterLastUnit .verify s.mem s with
        unit := t + 1, freeCount := s.freeCount + (1 + (t + 1)), accExceed := e, accMax := x
        rptExceed := BitVec.ofNat 32 e, rptTotal := BitVec.ofNat 32 (s.rows * s.cols)
        rptMaxerr := BitVec.ofNat 32 x, rptPassed := decide (e = 0) } := by
  rw [afterVerifyUnit, if_pos (by exact ht)]
  rfl

section
variable {s : State} {t : Nat} (hd : decodeWord s.lastcmd = .ok .verify) (hc : check .verify s = none)
  (hfree : RunsFreely s)
include hd hc hfree

/-- R212, R386: one engine step compares the row that is due. -/
theorem step_verifyRunning (ht : t < s.rows) :
    step (verifyRunning s t) =
      .next (afterVerifyUnit (exceedCount s (t + 1)) (maxDiff s (t + 1)) (verifyRunning s t).tick) := by
  have hruns : UnitRuns .verify (verifyRunning s t).tick := unitRuns_running (m := s.mem) hc ht hfree
  have hstep := (step_of_command hfree.2.1 (s := verifyRunning s t) nofun hd).trans (exec_verifyUnit hruns)
  rw [exceedCount_succ, maxDiff_succ]
  exact hstep

theorem step_verifyRunning_inner (ht : t + 1 < s.rows) :
    step (verifyRunning s t) = .next (verifyRunning s (t + 1)) := by
  rw [step_verifyRunning hd hc hfree (Nat.lt_of_succ_lt ht), afterVerifyUnit, if_neg (by exact ht.ne)]
  obtain ⟨-, -, -, -, hwait⟩ := hfree
  simp only [afterInnerUnit, verifyRunning, runningState, State.tick, hwait]
  rfl

/-- R205, R212, R386: the whole run. -/
theorem run_verify (hp : s.phase = .check) (hu : s.unit = 0) (he : s.accExceed = 0) (hx : s.accMax = 0)
    (hf : sideEffectFrame .verify s = none) :
    Sys2Proof.core.run (1 + s.rows) s =
      .next { afterLastUnit .verify s.mem s with
        unit := s.rows, freeCount := s.freeCount + (1 + s.rows)
        accExceed := exceedCount s s.rows, accMax := maxDiff s s.rows
        rptExceed := BitVec.ofNat 32 (exceedCount s s.rows), rptTotal := BitVec.ofNat 32 (s.rows * s.cols)
        rptMaxerr := BitVec.ofNat 32 (maxDiff s s.rows), rptPassed := decide (exceedCount s s.rows = 0) } := by
  obtain ⟨t, ht⟩ := Nat.exists_eq_add_one_of_ne_zero (rows_pos hc).ne'
  have hfirst : runningState s s.mem 0 = verifyRunning s 0 := by
    simp only [verifyRunning, runningState, he, hx]
    rfl
  obtain ⟨r, rfl, hrun⟩ := run_of_units (units := s.rows) (done := fun t r => r = verifyRunning s t)
    (step_check_passes hfree.2.1 hp hd hu hc hf) hfirst
    (fun t r ht hr => ⟨_, rfl, hr ▸ step_verifyRunning_inner hd hc hfree ht⟩) t (by omega)
  have hlast := step_verifyRunning hd hc hfree (show t < s.rows by omega)
  rw [afterVerifyUnit_last ht.symm, ht] at hlast
  rw [ht]
  exact (run_succ_of_run hrun).trans hlast

end

/-- Settles O38: count and maximum over the rows, one after another, are those over all positions. -/
theorem verifyReportsBothFrames : Obligations.VerifyReportsBothFrames := by
  rintro s d e x hd hp hu he hx hc hf hfree hdiff rfl rfl
  obtain rfl : d = fun p => sampleDiff s p.1 p.2 := funext hdiff
  exact run_verify hd hc hfree hp hu he hx hf

end Sys2Proof.Machine
end

section
/-! PROOFS. The check step as a whole: when it passes, what it changes, and when it is refused (R205, R458, R472,
R113). -/

namespace Sys2Proof.Machine

/-! ## When the checks pass (R458) -/

theorem usesQm_iff (i : Instr) : usesQm i = true ↔ i ≠ .fdct ∧ i ≠ .idct ∧ i ≠ .verify := by
  cases i <;> decide

/-- Two regions, both empty or neither, share no byte exactly when one ends before the other begins. -/
theorem regions_apart_iff {x y p q : Nat} (h : 0 < p ↔ 0 < q) :
    (y + q ≤ x ∨ x + p ≤ y) ↔ ∀ a, ¬ ((x ≤ a ∧ a < x + p) ∧ (y ≤ a ∧ a < y + q)) := by
  constructor
  · intro hapart a ha
    omega
  · intro hnone
    have hmax := hnone (max x y)
    omega

theorem frameBytes_pos_iff (s : State) (k : FrameKind) : 0 < s.frameBytes k.esize ↔ 0 < s.rows * s.cols := by
  rw [State.frameBytes, Nat.mul_pos_iff_of_pos_right (by cases k <;> decide)]

/-- R457, R109 with the regions as sets of bytes. -/
theorem checkOverlap_eq_none_iff_bytes (i : Instr) (s : State) :
    checkOverlap i s = none ↔
      ∀ es ed, (FrameName.src, es) ∈ frames i → (FrameName.dst, ed) ∈ frames i →
        (∀ a, ¬ ((s.src.toNat ≤ a ∧ a < s.src.toNat + s.frameBytes es) ∧
          (s.dst.toNat ≤ a ∧ a < s.dst.toNat + s.frameBytes ed))) ∨ (s.src = s.dst ∧ es = ed) := by
  rw [checkOverlap_eq_none_iff]
  constructor
  · intro h es ed hes hed
    obtain ⟨ks, hks, rfl⟩ := exists_srcKind_of_mem_frames hes
    obtain ⟨kd, hkd, rfl⟩ := exists_dstKind_of_mem_frames hed
    have hsizes := (frameBytes_pos_iff s ks).trans (frameBytes_pos_iff s kd).symm
    rw [← regions_apart_iff hsizes, or_assoc]
    exact h (isTile_of_kinds hks hkd) ks kd hks hkd
  · intro h _ ks kd hks hkd
    have hsizes := (frameBytes_pos_iff s ks).trans (frameBytes_pos_iff s kd).symm
    rw [← or_assoc, regions_apart_iff hsizes]
    exact h _ _ (mem_frames_src hks) (mem_frames_dst hkd)

/-- Settles O14: each of the five groups of R458 in the words of its rule. -/
theorem checksPassExactly : Obligations.ChecksPassExactly := by
  intro i s
  rw [check_eq_none_iff]
  refine and_congr ?shape (and_congr ?steps (and_congr (checkAlign_eq_none_iff i s)
    (and_congr (checkFit_eq_none_iff i s) (checkOverlap_eq_none_iff_bytes i s))))
  case shape =>
    rw [checkShape_eq_none_iff, usesBlockSize_iff, isTile_iff, log2nLegal_iff]
    rfl
  case steps =>
    simp only [checkQm_eq_none_iff, usesQm_iff, qmLegal_iff]
    rfl

/-! ## What the check step changes (R472) -/

/-- R450: a raised error leaves exactly what `complete` writes. -/
theorem raiseErr_eq_afterError {e : ErrRec} (he : e.code ≠ .none) (s : State) :
    raiseErr e s = afterError (errCodeBits e.code) e.info e.data s := by
  simp only [raiseErr, endCommand, afterError, he, ne_eq, not_false_eq_true, decide_true]

theorem code_ne_none_of_check {i : Instr} {s : State} {e : ErrRec} (h : check i s = some e) : e.code ≠ .none :=
  fun h0 => errCodeBits_check_ne_zero h (by rw [h0]; rfl)

/-- Settles O19: the check step raises an error or moves the phase. -/
theorem checkStepIsPrecise : Obligations.CheckStepIsPrecise := by
  intro i s t hp h
  rw [exec_check hp] at h
  obtain ⟨e, he, hstep⟩ | ⟨-, f, -, hstep⟩ | ⟨hc, -, hstep⟩ := checkStep_cases i s
  · obtain rfl := Host.Outcome.next.inj (hstep.symm.trans h)
    exact .inl ⟨rfl, errCodeBits_check_ne_zero he, raiseErr_eq_afterError (code_ne_none_of_check he) s⟩
  · exact absurd (hstep.symm.trans h) nofun
  · exact .inr ⟨hc, (Host.Outcome.next.inj (hstep.symm.trans h)).symm⟩

/-! ## Regions with side effects (R113) -/

theorem spanMeets_iff (p q : Span) :
    spanMeets p q = true ↔ ∃ a, InElem a p.base p.size ∧ InElem a q.base q.size := by
  simp only [spanMeets, Bool.and_eq_true, decide_eq_true_eq, InElem]
  constructor
  · intro h
    exact ⟨max p.base q.base, by omega⟩
  · rintro ⟨a, ha⟩
    omega

theorem sideEffectFrame_eq_none_iff (i : Instr) (s : State) :
    sideEffectFrame i s = none ↔
      ∀ f ∈ frames i, ¬ ((forbiddenSpans s.platform).any fun d => spanMeets (s.region f.1 f.2) d) = true := by
  rw [← List.find?_eq_none, sideEffectFrame]
  split <;> simp [*]

/-- R113: the memory a frame region may not meet, byte by byte. -/
theorem any_spanMeets_forbidden_iff (s : State) (f : FrameName × Nat) :
    ((forbiddenSpans s.platform).any fun d => spanMeets (s.region f.1 f.2) d) = true ↔
      ∃ a, (s.base f.1).toNat ≤ a ∧ a < (s.base f.1).toNat + s.frameBytes f.2 ∧
        ((s.platform.regBase ≤ a ∧ a < s.platform.regBase + 4096) ∨
          ∃ d ∈ s.platform.devices, d.base ≤ a ∧ a < d.base + d.size) := by
  simp only [forbiddenSpans, List.any_cons, Bool.or_eq_true, List.any_eq_true, spanMeets_iff]
  constructor
  · rintro (⟨a, ⟨hlo, hhi⟩, ha⟩ | ⟨d, hd, a, ⟨hlo, hhi⟩, ha⟩)
    · exact ⟨a, hlo, hhi, .inl ha⟩
    · exact ⟨a, hlo, hhi, .inr ⟨d, hd, ha⟩⟩
  · rintro ⟨a, hlo, hhi, ha | ⟨d, hd, ha⟩⟩
    · exact .inl ⟨a, ⟨hlo, hhi⟩, ha⟩
    · exact .inr ⟨d, hd, a, ⟨hlo, hhi⟩, ha⟩

/-- R113: with checks that pass, the check step is refused exactly where a frame has such a region. -/
theorem exec_check_refused_iff {i : Instr} {s : State} (hp : s.phase = .check) (hc : check i s = none) :
    (∃ n, exec i s = .refused (.sideEffectRegion n)) ↔ sideEffectFrame i s ≠ none := by
  rw [exec_check hp]
  obtain ⟨e, he, -⟩ | ⟨-, f, hf, hstep⟩ | ⟨-, hf, hstep⟩ := checkStep_cases i s
  · exact absurd (hc.symm.trans he) nofun
  · simp [hf, hstep]
  · simp [hf, hstep]

/-- Settles O20: the search for such a frame finds one exactly when there is one. -/
theorem sideEffectRegionIsRefused : Obligations.SideEffectRegionIsRefused := by
  intro i s hp hc
  rw [exec_check_refused_iff hp hc, ne_eq, sideEffectFrame_eq_none_iff]
  push Not
  exact exists_congr fun f => and_congr_right fun _ => any_spanMeets_forbidden_iff s f

end Sys2Proof.Machine
end

section
/-! PROOFS. The run step, case by case: abort, bus errors, waiting, and the end of a run (R212 to R216, R225, R459). -/

namespace Sys2Proof.Machine

/-! ## What a run step can do -/

/-- The ways a run step of command `i` goes on from `s` (R212, R215, R216, R225). -/
inductive RunStep (i : Instr) (s : State) : State → Prop
  | aborted : s.abort = true → s.wait = none →
      RunStep i s (endRun i .aborted 0 (BitVec.ofNat 32 s.unit) s)
  | readWaits (a : Access) : a ∈ openReads i s → s.answerOf false a = .silent → RunStep i s (waitForRead i a s)
  | readFails (a : Access) : a ∈ openReads i s → s.answerOf false a = .error → RunStep i s (busError i a s)
  | writeWaits (a : Access) : (∀ r ∈ openReads i s, s.answerOf false r = .ok) → a ∈ openWrites i s →
      s.answerOf true a = .silent → RunStep i s (waitForWrite i a s)
  | writeFails (a : Access) : (∀ r ∈ openReads i s, s.answerOf false r = .ok) → a ∈ openWrites i s →
      s.answerOf true a = .error →
      RunStep i s (busError i a { s with mem := freeElems s.freeCount s.mem (unitWrites i s s.unit) })
  | lastUnit : UnitAnswered i s → s.unit + 1 = unitCount i s →
      RunStep i s (endRun i .none 0 0 (finishOf i (applyUnit (workOf i s s.unit) s)))
  | innerUnit : UnitAnswered i s → s.unit + 1 ≠ unitCount i s →
      RunStep i s (applyUnit (workOf i s s.unit) s)

section
variable {i : Instr} {s t : State}

/-- A run step that goes on is one of these, and only a due unit has one. -/
theorem exec_run_cases (hp : s.phase = .run) (h : exec i s = .next t) :
    UnitDue i s ∧ (NotAborted s ∨ s.abort = true ∧ s.wait = none) ∧ RunStep i s t := by
  rw [exec_run hp] at h
  obtain ⟨-, hstep⟩ | ⟨hready, habort, hwait, hstep⟩ | ⟨hready, hnot, hstep⟩ :=
    runStep_cases i (workOf i) (finishOf i) s
  · exact absurd (hstep.symm.trans h) nofun
  · obtain rfl := Host.Outcome.next.inj (hstep.symm.trans h)
    exact ⟨⟨hp, runReady_iff.1 hready⟩, .inr ⟨habort, hwait⟩, .aborted habort hwait⟩
  · obtain rfl := Host.Outcome.next.inj (hstep.symm.trans h)
    refine ⟨⟨hp, runReady_iff.1 hready⟩, .inl hnot, ?_⟩
    obtain ⟨a, ha, hs, hunit⟩ | ⟨a, ha, he, hunit⟩ | ⟨hr, a, ha, hs, hunit⟩ | ⟨hr, a, ha, he, hunit⟩ |
      ⟨hok, hunit⟩ := runUnit_cases i (workOf i) (finishOf i) s
    all_goals rw [hunit]
    · exact .readWaits a ha hs
    · exact .readFails a ha he
    · exact .writeWaits a hr ha hs
    · exact .writeFails a hr ha he
    · by_cases hlast : s.unit + 1 = unitCount i s
      · rw [afterUnit, if_pos (by exact hlast)]
        exact .lastUnit hok hlast
      · rw [afterUnit, if_neg (by exact hlast)]
        exact .innerUnit hok hlast

/-- A due unit has a run step. -/
theorem UnitDue.exists_runStep (h : UnitDue i s) : ∃ t, exec i s = .next t ∧ RunStep i s t := by
  obtain ⟨t, ht⟩ := exec_run_next h
  obtain ⟨-, -, hstep⟩ := exec_run_cases h.1 ht
  exact ⟨t, ht, hstep⟩

/-- R215: a unit that is not aborted does not make the step of an abort. -/
theorem NotAborted.elim {p : Prop} (h : NotAborted s) (ha : s.abort = true) (hw : s.wait = none) : p := by
  obtain h | h := h
  · exact absurd (ha.symm.trans h) nofun
  · exact absurd hw h

/-! ## The frames of a unit's accesses (R101) -/

theorem mem_frameAccesses {f : FrameName} {k : Option FrameKind} {t : Nat} {a : Access}
    (h : a ∈ frameAccesses i s t f k) : a.frame = f ∧ ∃ kind, k = some kind ∧ a.size = kind.esize := by
  unfold frameAccesses at h
  cases k with
  | none => simp at h
  | some kind =>
    obtain ⟨p, -, rfl⟩ := List.mem_map.1 h
    exact ⟨rfl, kind, rfl, rfl⟩

theorem frame_of_mem_unitWrites {t : Nat} {a : Access} (h : a ∈ unitWrites i s t) : a.frame = .dst := by
  obtain ⟨hframe, -⟩ := mem_frameAccesses h
  exact hframe

theorem frame_of_mem_unitReads {t : Nat} {a : Access} (h : a ∈ unitReads i s t) : a.frame ≠ .dst := by
  obtain h | h := List.mem_append.1 h
  all_goals
    obtain ⟨hframe, -⟩ := mem_frameAccesses h
    rw [hframe]
    nofun

/-- R458: every access of a unit goes to one of the command's frames. -/
theorem mem_frames_of_access {t : Nat} {a : Access} (h : a ∈ unitReads i s t ∨ a ∈ unitWrites i s t) :
    (a.frame, a.size) ∈ frames i := by
  rw [unitReads, unitWrites, List.mem_append] at h
  obtain (h | h) | h := h
  all_goals
    obtain ⟨hframe, k, hk, hsize⟩ := mem_frameAccesses h
    simp [frames, hframe, hk, hsize]

/-! ## The end of a run (R213) -/

/-- Settles O35: of the run steps these three end the command, and the others stay in phase RUN. -/
theorem onlyAbortOrBusErrorEndsARunEarly : Obligations.OnlyAbortOrBusErrorEndsARunEarly := by
  intro i s t hp h hidle
  have hrun : s.phase ≠ .idle := by rw [hp]; decide
  obtain ⟨-, -, hstep⟩ := exec_run_cases hp h
  cases hstep with
  | aborted ha hw => exact .inl ⟨rfl, ha, hw⟩
  | readWaits | writeWaits | innerUnit => exact absurd hidle hrun
  | readFails a ha he => exact .inr (.inl ⟨rfl, .inl ⟨a, (mem_openReads.1 ha).1, he⟩⟩)
  | writeFails a _ ha he => exact .inr (.inl ⟨rfl, .inr ⟨a, (mem_openWrites.1 ha).1, he⟩⟩)
  | lastUnit _ hlast =>
    have hunit : (finishOf i (applyUnit (workOf i s s.unit) s)).unit = s.unit + 1 := by cases i <;> rfl
    refine .inr (.inr ⟨rfl, hlast, ?_⟩)
    rw [endRun_eq]
    exact hunit.trans hlast

/-! ## Abort and bus errors (R215, R216) -/

/-- R220: an error that ends a run under a quiet host. -/
theorem endRun_eq_afterRunError (hq : HostQuiet s) {c : ErrCode} (hc : c ≠ .none) (info data : Word) :
    endRun i c info data s = afterRunError i (errCodeBits c) info data s := by
  rw [endRun_of_quiet hq]
  simp only [endCommand, afterRunError, afterError, hc, ne_eq, not_false_eq_true, decide_true]

/-- Settles O30: the abort comes before any access of the unit. -/
theorem abortEndsBetweenUnits : Obligations.AbortEndsBetweenUnits := by
  intro i s ⟨hp, hc, hu⟩ ha hw hq
  rw [exec_run hp, runStep, if_neg (by simp [runReady_iff.2 ⟨hc, hu⟩]), if_pos ⟨ha, hw⟩,
    endRun_eq_afterRunError (c := .aborted) hq nofun]
  rfl

/-- Settles O31: with no read silent, and one of them failing, the only step left is that of a failing read. -/
theorem readBusErrorEndsTheCommand : Obligations.ReadBusErrorEndsTheCommand := by
  intro i s hdue hnot hq ⟨b, hb, hberr⟩ hsilent
  obtain ⟨t, ht, hstep⟩ := hdue.exists_runStep
  have hfails {p : Prop} (hok : ∀ r ∈ openReads i s, s.answerOf false r = .ok) : p :=
    absurd (hberr.symm.trans (hok b hb)) nofun
  cases hstep with
  | aborted ha hw => exact hnot.elim ha hw
  | readWaits a ha hs => exact absurd hs (hsilent a ha)
  | readFails a ha he =>
    refine ⟨a, ha, he, ht.trans ?_⟩
    rw [busError, endRun_eq_afterRunError (c := .busError) hq nofun]
    rfl
  | writeWaits _ hok => exact hfails hok
  | writeFails _ hok => exact hfails hok
  | lastUnit hok => exact hfails hok.1
  | innerUnit hok => exact hfails hok.1

/-- Settles O32: with every read answered, the only step left is that of a failing write. -/
theorem writeBusErrorEndsTheCommand : Obligations.WriteBusErrorEndsTheCommand := by
  intro i s hdue hnot hq hm hreads ⟨b, hb, hberr⟩ hsilent
  obtain ⟨t, ht, hstep⟩ := hdue.exists_runStep
  have hfails {p : Prop} (hok : UnitAnswered i s) : p := absurd (hberr.symm.trans (hok.2 b hb)) nofun
  cases hstep with
  | aborted ha hw => exact hnot.elim ha hw
  | readWaits a ha hs => exact absurd (hs.symm.trans (hreads a ha)) nofun
  | readFails a ha he => exact absurd (he.symm.trans (hreads a ha)) nofun
  | writeWaits a _ ha hs => exact absurd hs (hsilent a ha)
  | lastUnit hok => exact hfails hok
  | innerUnit hok => exact hfails hok
  | writeFails a _ ha he =>
    obtain ⟨-, hc, hu⟩ := hdue
    have hspace : ∀ w ∈ unitWrites i s s.unit, w.addr + w.size ≤ Config.dmaSpace := fun w hw => by
      obtain ⟨-, -, -, -, -, -, hspace⟩ := unitWrites_inRegion hc hu w hw
      exact hspace
    refine ⟨a, ha, he, freeElems s.freeCount s.mem (unitWrites i s s.unit), ht.trans ?_,
      fun c hc => read_freeElems_of_outside hm hspace hc, freeElems_wf hm hspace⟩
    rw [busError, endRun_eq_afterRunError (c := .busError) (by exact hq) nofun,
      frame_of_mem_unitWrites (mem_openWrites.1 ha).1]
    rfl

/-! ## Waiting (R225) -/

theorem not_responds_of_read {t : Nat} {a : Access} (ha : a ∈ unitReads i s t) (h : s.answerOf false a = .silent) :
    ¬ Responds s a := by
  rw [Responds, decide_eq_false (frame_of_mem_unitReads ha)]
  exact not_not_intro h

theorem not_responds_of_write {t : Nat} {a : Access} (ha : a ∈ unitWrites i s t) (h : s.answerOf true a = .silent) :
    ¬ Responds s a := by
  rw [Responds, decide_eq_true (frame_of_mem_unitWrites ha)]
  exact not_not_intro h

theorem mem_askedNow {w : Bool} {x a : Access} {l : List Access} :
    a ∈ s.askedNow w x l ↔ a ∈ l ∧ (a = x ∨ s.isIssued a = true) ∧ s.answerOf w a = .silent := by
  simp [State.askedNow]

theorem isIssued_of_asked {a : Access} (h : a ∈ s.waited.asked) : s.isIssued a = true := by
  simp [State.isIssued, State.isAsked, h]

/-- An issued access that is answered gets its response in this step. -/
theorem mem_answeredNow_of_asked {w : Bool} {a : Access} {l : List Access} (hl : a ∈ l)
    (h : a ∈ s.waited.asked) (hok : s.answerOf w a = .ok) : a ∈ s.answeredNow w l :=
  List.mem_filter.2 ⟨hl, by simp [isIssued_of_asked h, hok]⟩

theorem exists_fetch_of_mem {a : Access} {l : List Access} (h : a ∈ l) : ∃ r ∈ s.fetch l, r.access = a :=
  ⟨_, List.mem_map.2 ⟨a, h, rfl⟩, rfl⟩

/-- What the record of a waiting unit keeps from one step to the next (R225). -/
def WaitKeeps (i : Instr) (s : State) (w : UnitWait) : Prop :=
  (∀ r ∈ s.waited.reads, r ∈ w.reads) ∧ (∀ a ∈ s.waited.acks, a ∈ w.acks) ∧
    (∀ a ∈ s.waited.asked, a ∈ openReads i s → s.answerOf false a = .ok → ∃ r ∈ w.reads, r.access = a) ∧
    (openReads i s = [] → ∀ a ∈ s.waited.asked, a ∈ openWrites i s → s.answerOf true a = .ok → a ∈ w.acks) ∧
    w.asked ≠ [] ∧ ∀ a ∈ w.asked, ¬ Responds s a

theorem waitForRead_keeps {x : Access} (hx : x ∈ openReads i s) (hsilent : s.answerOf false x = .silent) :
    ∃ w, waitForRead i x s = { s with wait := some w } ∧ WaitKeeps i s w := by
  refine ⟨_, rfl, fun r hr => List.mem_append_left _ hr, fun a ha => ha, fun a hasked ha hok => ?got,
    fun hnil => absurd hx (by simp [hnil]), List.ne_nil_of_mem (mem_askedNow.2 ⟨hx, .inl rfl, hsilent⟩),
    fun a ha => ?silent⟩
  case got =>
    obtain ⟨r, hr, hra⟩ := exists_fetch_of_mem (s := s) (mem_answeredNow_of_asked ha hasked hok)
    exact ⟨r, List.mem_append_right _ hr, hra⟩
  case silent =>
    obtain ⟨hopen, -, hs⟩ := mem_askedNow.1 ha
    exact not_responds_of_read (mem_openReads.1 hopen).1 hs

theorem waitForWrite_keeps {x : Access} (hx : x ∈ openWrites i s) (hsilent : s.answerOf true x = .silent) :
    ∃ w, waitForWrite i x s = { s with wait := some w } ∧ WaitKeeps i s w := by
  refine ⟨_, rfl, fun r hr => List.mem_append_left _ hr, fun a ha => List.mem_append_left _ ha,
    fun a _ ha _ => ?got, fun _ a hasked ha hok => List.mem_append_right _ (mem_answeredNow_of_asked ha hasked hok),
    List.ne_nil_of_mem (mem_askedNow.2 ⟨hx, .inl rfl, hsilent⟩), fun a ha => ?silent⟩
  case got =>
    obtain ⟨r, hr, hra⟩ := exists_fetch_of_mem (s := s) ha
    exact ⟨r, List.mem_append_right _ hr, hra⟩
  case silent =>
    obtain ⟨hopen, -, hs⟩ := mem_askedNow.1 ha
    exact not_responds_of_write (mem_openWrites.1 hopen).1 hs

theorem exec_of_notAborted (hdue : UnitDue i s) (hnot : NotAborted s) :
    exec i s = .next (runUnit i (workOf i) (finishOf i) s) := by
  obtain ⟨hp, hready⟩ := hdue
  rw [exec_run hp]
  obtain ⟨hr, -⟩ | ⟨-, ha, hw, -⟩ | ⟨-, -, hstep⟩ := runStep_cases i (workOf i) (finishOf i) s
  · exact absurd (hr.symm.trans (runReady_iff.2 hready)) nofun
  · exact hnot.elim ha hw
  · exact hstep

/-- R110: an issued access with an error response ends the command in this step. -/
theorem runUnit_of_asked_error {work : State → Nat → UnitWork} {finish : State → State} {a : Access}
    (hasked : a ∈ s.waited.asked)
    (herr : (a ∈ openReads i s ∧ s.answerOf false a = .error) ∨
      (openReads i s = [] ∧ a ∈ openWrites i s ∧ s.answerOf true a = .error)) :
    ∃ b s', s'.unit = s.unit ∧ runUnit i work finish s = busError i b s' := by
  unfold runUnit
  obtain ⟨ha, he⟩ | ⟨hnil, ha, he⟩ := herr
  · obtain ⟨b, -, -, htrouble⟩ := phaseTrouble_forced ha hasked he
    rw [htrouble]
    exact ⟨b, _, rfl, rfl⟩
  · obtain ⟨b, -, -, htrouble⟩ := phaseTrouble_forced ha hasked he
    rw [phaseTrouble_eq_none.2 (by simp [hnil]), htrouble]
    exact ⟨b, { s with mem := freeElems s.freeCount s.mem (unitWrites i s s.unit) }, rfl, rfl⟩

end

/-- Settles O33: a step without an error is one of the two waiting steps, and an error of an issued access is forced
to be met. -/
theorem silentAccessWaits : Obligations.SilentAccessWaits := by
  refine ⟨fun i s hdue hnot hreads hsilent => ?waits, fun i s a hdue hnot hasked herr => ?fails⟩
  case waits =>
    obtain ⟨t, ht, hstep⟩ := hdue.exists_runStep
    have hwrite (hok : ∀ r ∈ openReads i s, s.answerOf false r = .ok) :
        (∃ a ∈ openWrites i s, s.answerOf true a = .silent) ∧
          ∀ a ∈ openWrites i s, s.answerOf true a ≠ .error := by
      obtain ⟨b, hb, hs⟩ | h := hsilent
      · exact absurd (hs.symm.trans (hok b hb)) nofun
      · exact h
    have hunanswered {p : Prop} (hok : UnitAnswered i s) : p := by
      obtain ⟨⟨b, hb, hs⟩, -⟩ := hwrite hok.1
      exact absurd (hs.symm.trans (hok.2 b hb)) nofun
    rw [ht]
    cases hstep with
    | aborted ha hw => exact hnot.elim ha hw
    | readWaits a ha hs =>
      obtain ⟨w, hw, hkeeps⟩ := waitForRead_keeps ha hs
      exact ⟨w, congrArg _ hw, hkeeps⟩
    | readFails a ha he => exact absurd he (hreads a ha)
    | writeWaits a _ ha hs =>
      obtain ⟨w, hw, hkeeps⟩ := waitForWrite_keeps ha hs
      exact ⟨w, congrArg _ hw, hkeeps⟩
    | writeFails a hok ha he => exact absurd he ((hwrite hok).2 a ha)
    | lastUnit hok => exact hunanswered hok
    | innerUnit hok => exact hunanswered hok
  case fails =>
    obtain ⟨b, s', hunit, hend⟩ := runUnit_of_asked_error hasked herr
    refine ⟨_, exec_of_notAborted hdue hnot, ?_⟩
    rw [hend, busError, endRun_eq]
    exact ⟨rfl, rfl, rfl, hunit⟩

/-! ## The codes of each command (R459) -/

/-- The numbers that `ERRINFO` can give an operand of a command (R455, R456, R466). -/
def OperandNumber (i : Instr) (w : Word) : Prop :=
  (i = .qmbuild → w = 3#32) ∧ (i = .verify → w ∈ [1#32, 2#32]) ∧
    (i ≠ .qmbuild → i ≠ .verify → w ∈ [1#32, 3#32])

theorem operandNumber_of_mem_frames {i : Instr} {f : FrameName × Nat} (h : f ∈ frames i) :
    OperandNumber i (BitVec.ofNat 32 f.1.number) := by
  unfold OperandNumber
  revert f
  cases i <;> decide

/-- The subcodes of INVALID_SHAPE for a command (R452). -/
def ShapeSubcode (i : Instr) (w : Word) : Prop :=
  (i = .qmbuild → w ∈ [1#32, 2#32, 3#32]) ∧ (i = .verify → w ∈ [2#32, 3#32, 6#32, 7#32]) ∧
    (i ≠ .qmbuild → i ≠ .verify → w ∈ [1#32, 2#32, 3#32, 4#32, 5#32])

theorem shapeSubcode_of_check {i : Instr} {s : State} {e : ErrRec} (h : checkShape i s = some e) :
    ShapeSubcode i e.info := by
  unfold ShapeSubcode
  rw [checkShape_eq] at h
  split_ifs at h with h1 h2 h3 h4 h5 h6 h7 <;> cases h
  · exact ⟨by simp, fun hv => absurd hv h1.1, by simp⟩
  · simp
  · simp
  · exact ⟨fun hq => absurd hq h4.1.1, fun hv => absurd hv h4.1.2, by simp⟩
  · exact ⟨fun hq => absurd hq h5.1.1, fun hv => absurd hv h5.1.2, by simp⟩
  · exact ⟨by simp [h6.1], by simp, fun _ hv => absurd h6.1 hv⟩
  · exact ⟨by simp [h7.1], by simp, fun _ hv => absurd h7.1 hv⟩

/-- R459 for a code and its `ERRINFO`. -/
def CodeAllowed (i : Instr) (code : BitVec 4) (info : Word) : Prop :=
  (code = 0#4 ∨ code = 1#4 ∨ code = 2#4 ∨ code = 3#4 ∨ code = 5#4 ∨ code = 6#4 ∨ code = 7#4 ∨ code = 8#4) ∧
    (code = 1#4 → ShapeSubcode i info) ∧ (code = 2#4 → i ≠ .fdct ∧ i ≠ .idct ∧ i ≠ .verify) ∧
    ((code = 3#4 ∨ code = 5#4 ∨ code = 7#4) → OperandNumber i info) ∧
    (code = 6#4 → i ≠ .qmbuild ∧ i ≠ .verify ∧ info = 1#32)

theorem operandNumber_of_checkAlign {i : Instr} {s : State} {e : ErrRec} (h : checkAlign i s = some e) :
    OperandNumber i e.info := by
  unfold checkAlign at h
  split at h
  · rename_i f hf
    cases h
    exact operandNumber_of_mem_frames (List.mem_of_find?_eq_some hf)
  · cases h

theorem operandNumber_of_checkFit {i : Instr} {s : State} {e : ErrRec} (h : checkFit i s = some e) :
    OperandNumber i e.info := by
  unfold checkFit at h
  split at h
  · rename_i f hf
    cases h
    exact operandNumber_of_mem_frames (List.mem_of_find?_eq_some hf)
  · cases h

theorem usesQm_of_checkQm {i : Instr} {s : State} {e : ErrRec} (h : checkQm i s = some e) :
    usesQm i = true := by
  by_contra huses
  rw [checkQm_eq_none_of_not_usesQm (Bool.not_eq_true _ ▸ huses)] at h
  cases h

theorem isTile_of_checkOverlap {i : Instr} {s : State} {e : ErrRec} (h : checkOverlap i s = some e) :
    isTile i = true ∧ e.info = 1#32 := by
  unfold checkOverlap at h
  split at h
  · split at h
    · split_ifs at h
      cases h
      exact ⟨‹_›, rfl⟩
    · cases h
  · cases h

theorem codeAllowed_of_check {i : Instr} {s : State} {e : ErrRec} (h : check i s = some e) :
    CodeAllowed i (errCodeBits e.code) e.info := by
  unfold CodeAllowed
  obtain ⟨hc, h⟩ | ⟨hc, h⟩ | ⟨hc, h⟩ | ⟨hc, h⟩ | ⟨hc, h⟩ := check_eq_some_cases h
  all_goals simp only [hc, errCodeBits]
  · exact ⟨by decide, fun _ => shapeSubcode_of_check h, by simp⟩
  · exact ⟨by decide, by simp, fun _ => (usesQm_iff i).1 (usesQm_of_checkQm h), by simp⟩
  · exact ⟨by decide, by simp, by simp, fun _ => operandNumber_of_checkAlign h, by simp⟩
  · exact ⟨by decide, by simp, by simp, fun _ => operandNumber_of_checkFit h, by simp⟩
  · obtain ⟨htile, hinfo⟩ := isTile_of_checkOverlap h
    obtain ⟨hqb, hv⟩ := (isTile_iff i).1 htile
    exact ⟨by decide, by simp, by simp, by simp, fun _ => ⟨hqb, hv, hinfo⟩⟩

theorem codeAllowed_success (i : Instr) : CodeAllowed i 0#4 0#32 := ⟨by decide, by simp⟩

theorem codeAllowed_aborted (i : Instr) : CodeAllowed i 8#4 0#32 := ⟨by decide, by simp⟩

/-- R216, R466: a bus error names the operand of one of the unit's accesses. -/
theorem codeAllowed_busError {i : Instr} {s : State} {t : Nat} {a : Access}
    (h : a ∈ unitReads i s t ∨ a ∈ unitWrites i s t) :
    CodeAllowed i 7#4 (BitVec.ofNat 32 a.frame.number) :=
  ⟨by decide, by simp, by simp, fun _ => operandNumber_of_mem_frames (mem_frames_of_access h), by simp⟩

/-- Settles O21: the check step ends with the error of a check, the run step with success, an abort or the error of
an access. -/
theorem errorCodesOfEachCommand : Obligations.ErrorCodesOfEachCommand := by
  intro i s t hp h hidle
  change CodeAllowed i t.errcode t.errinfo
  cases hph : s.phase with
  | idle => exact absurd hph hp
  | check =>
    rw [exec_check hph] at h
    obtain ⟨e, he, hstep⟩ | ⟨-, f, -, hstep⟩ | ⟨-, -, hstep⟩ := checkStep_cases i s
    · obtain rfl := Host.Outcome.next.inj (hstep.symm.trans h)
      exact codeAllowed_of_check he
    · exact absurd (hstep.symm.trans h) nofun
    · obtain rfl := Host.Outcome.next.inj (hstep.symm.trans h)
      cases hidle
  | run =>
    obtain ⟨-, -, hstep⟩ := exec_run_cases hph h
    cases hstep with
    | aborted => exact codeAllowed_aborted i
    | readWaits | writeWaits | innerUnit => exact absurd hidle hp
    | readFails a ha => exact codeAllowed_busError (.inl (mem_openReads.1 ha).1)
    | writeFails a _ ha => exact codeAllowed_busError (.inr (mem_openWrites.1 ha).1)
    | lastUnit => exact codeAllowed_success i

end Sys2Proof.Machine
end

section
/-! PROOFS. Everything one step of the machine can do, and the rules that follow for the flags, the report, the
operands and `irq` (R35, R45, R56, R62, R480). -/

namespace Sys2Proof.Machine

/-! ## Engine steps (R200, R205, R212, R454) -/

/-- The ways an engine step goes on from `s`. -/
inductive EngineStep (s : State) : State → Prop
  | idle : s.phase = .idle → EngineStep s s
  | checkEnds (e : ErrRec) : s.phase = .check → e.code ≠ .none → EngineStep s (raiseErr e s)
  | checkPasses (i : Instr) : s.phase = .check → decodeWord s.lastcmd = .ok i → check i s = none →
      sideEffectFrame i s = none → EngineStep s { s with phase := .run }
  | runs (i : Instr) (t : State) : decodeWord s.lastcmd = .ok i → UnitDue i s → RunStep i s t → EngineStep s t

theorem engineStep_of_next {s t : State} (h : engineStep s = .next t) : EngineStep s t := by
  obtain ⟨hp, hstep⟩ | ⟨hp, i, hd, hstep⟩ | ⟨hp, r, -, hstep⟩ := engineStep_cases s
  · obtain rfl := Host.Outcome.next.inj (hstep.symm.trans h)
    exact .idle hp
  · rw [hstep] at h
    cases hph : s.phase with
    | idle => exact absurd hph hp
    | check =>
      rw [exec_check hph] at h
      obtain ⟨e, he, hcheck⟩ | ⟨-, f, -, hcheck⟩ | ⟨hc, hf, hcheck⟩ := checkStep_cases i s
      · obtain rfl := Host.Outcome.next.inj (hcheck.symm.trans h)
        exact .checkEnds e hph (code_ne_none_of_check he)
      · exact absurd (hcheck.symm.trans h) nofun
      · obtain rfl := Host.Outcome.next.inj (hcheck.symm.trans h)
        exact .checkPasses i hph hd hc hf
    | run =>
      obtain ⟨hdue, -, hrun⟩ := exec_run_cases hph h
      exact .runs i t hd hdue hrun
  · rw [hstep, illegalStep] at h
    cases hph : s.phase with
    | idle => exact absurd hph hp
    | check =>
      rw [hph] at h
      obtain rfl := Host.Outcome.next.inj h
      exact .checkEnds ⟨.illegalCommand, 0, s.lastcmd⟩ hph nofun
    | run =>
      rw [hph] at h
      cases h

/-- `s` with the model's step counter one further and the head of the agenda taken off: what the engine or an agent
acts on. -/
def State.advance (s : State) : State := { s.tick with agenda := s.agenda.tail }

/-- A step: the engine moves, or the agent at the head of the agenda does (R414). -/
theorem step_advance_cases (s : State) :
    (EngineMoves s ∧ step s = engineStep s.advance) ∨
      ∃ e rest, s.agenda = e :: rest ∧ e ≠ .engine ∧ step s = .next (envStep e s.advance) := by
  unfold State.advance
  obtain ⟨ha, hstep⟩ | ⟨rest, ha, hstep⟩ | ⟨e, rest, ha, he, hstep⟩ := step_cases s
  · have htail : { s.tick with agenda := s.agenda.tail } = s.tick := by
      rw [ha, List.tail_nil, ← ha]
      rfl
    rw [htail]
    exact .inl ⟨.inl ha, hstep⟩
  · rw [ha]
    exact .inl ⟨.inr (by rw [ha]; rfl), hstep⟩
  · refine .inr ⟨e, rest, ha, he, ?_⟩
    rw [ha]
    exact hstep

theorem step_next_cases {s t : State} (h : step s = .next t) :
    (EngineMoves s ∧ EngineStep s.advance t) ∨
      ∃ e rest, s.agenda = e :: rest ∧ e ≠ .engine ∧ t = envStep e s.advance := by
  obtain ⟨hmoves, hstep⟩ | ⟨e, rest, ha, he, hstep⟩ := step_advance_cases s
  · exact .inl ⟨hmoves, engineStep_of_next (hstep.symm.trans h)⟩
  · exact .inr ⟨e, rest, ha, he, Host.Outcome.next.inj (h.symm.trans hstep)⟩

/-! ## The actions of the other agents -/

/-- Every register and every field of the engine is the same in both states: what differs is memory, the stores
under way and the records of the agents. -/
def SameEngine (s t : State) : Prop :=
  t = { s with
    mem := t.mem, pending := t.pending, touched := t.touched, landed := t.landed
    dmaWritten := t.dmaWritten, hostResp := t.hostResp, answers := t.answers }

/-- What a write to the register window makes of `s`, the bus response left out (R412 to R419). -/
inductive RegWritten (s : State) (width off : Nat) (w : Word) : State → Prop
  | ctrl : width = 4 → off = 0x004 → RegWritten s width off w (writeCtrl w s)
  | status : width = 4 → off = 0x008 → RegWritten s width off w
      { s with
        done := if w.getLsbD 1 = true then false else s.done
        wdrop := if w.getLsbD 3 = true then false else s.wdrop }
  | accepted : width = 4 → off = 0x00C → s.busy = false → RegWritten s width off w (acceptCommand w s)
  | locked : width = 4 → s.busy = true →
      (off ∈ [0x00C, 0x010, 0x014, 0x018, 0x01C, 0x020, 0x024, 0x028] ∨ (0x100 ≤ off ∧ off ≤ 0x4FC)) →
      RegWritten s width off w { s with wdrop := true }
  | operand (log2n : BitVec 3) (dim dim2 src src2 dst tol : Word) (qm : Vector Word 256) : s.busy = false →
      RegWritten s width off w
        { s with
          log2n := log2n, dim := dim, dim2 := dim2, src := src, src2 := src2, dst := dst, tol := tol, qm := qm }
  | ignored : RegWritten s width off w s

/-- R33: where the registers stand that a write does more to than store an operand. -/
theorem offset_of_regAt {off : Nat} :
    (regAt off = .ctrl → off = 0x004) ∧ (regAt off = .status → off = 0x008) ∧ (regAt off = .cmd → off = 0x00C) := by
  by_cases hge : 0x048 ≤ off
  · rw [regAt_of_ge hge]
    split_ifs <;> exact ⟨nofun, nofun, nofun⟩
  · have hnamed : ∀ off < 0x048,
        (regAt off = .ctrl → off = 0x004) ∧ (regAt off = .status → off = 0x008) ∧
          (regAt off = .cmd → off = 0x00C) := by decide
    exact hnamed off (by omega)

/-- R33, R415: where the registers stand that BUSY locks. -/
theorem offset_of_locked {off : Nat} (hok : accessOk 4 off = true) (h : (regAt off).locked = true) :
    off ∈ [0x00C, 0x010, 0x014, 0x018, 0x01C, 0x020, 0x024, 0x028] ∨ (0x100 ≤ off ∧ off ≤ 0x4FC) := by
  by_cases hge : 0x048 ≤ off
  · obtain ⟨-, hmod, -⟩ := accessOk_iff.1 hok
    rw [regAt_of_ge hge] at h
    split_ifs at h with hqm
    · exact .inr (by omega)
    · cases h
  · have hnamed : ∀ off < 0x048, (regAt off).locked = true →
        off ∈ [0x00C, 0x010, 0x014, 0x018, 0x01C, 0x020, 0x024, 0x028] := by decide
    exact .inl (hnamed off (by omega) h)

theorem hostWrite_cases (width off : Nat) (w : Word) (s : State) :
    ∃ r t, hostWrite width off w s = respond r t ∧ RegWritten s width off w t := by
  by_cases hok : accessOk width off = true
  · obtain ⟨rfl, -⟩ := accessOk_iff.1 hok
    obtain ⟨hctrl, hstatus, hcmd⟩ := @offset_of_regAt off
    refine ⟨.ack, _, hostWrite_of_ok hok, ?_⟩
    cases hlocked : (regAt off).locked
    · cases hr : regAt off
      case ctrl => exact .ctrl rfl (hctrl hr)
      case status =>
        rw [regWrite, writeStatus_eq]
        exact .status rfl (hstatus hr)
      case id | rptExceed | rptTotal | rptMaxerr | rptFlags | errinfo | errdata | progress | reserved =>
        exact .ignored
      case cmd | cfg | dim | dim2 | src | src2 | dst | tol | qm =>
        rw [hr] at hlocked
        cases hlocked
    · cases hbusy : s.busy
      · cases hr : regAt off
        case cmd =>
          rw [regWrite, whenIdle_idle hbusy]
          exact .accepted rfl (hcmd hr) hbusy
        case cfg | dim | dim2 | src | src2 | dst | tol | qm =>
          rw [regWrite, whenIdle_idle hbusy]
          exact .operand _ _ _ _ _ _ _ _ hbusy
        all_goals
          rw [hr] at hlocked
          cases hlocked
      · rw [regWrite_locked_busy hlocked hbusy]
        exact .locked rfl hbusy (offset_of_locked hok hlocked)
  · rw [hostWrite, if_neg hok]
    exact ⟨.error, s, rfl, .ignored⟩

/-- An agent's action: it leaves the engine alone, writes the register window, or is a reset. -/
theorem envStep_cases (e : Event) (s : State) :
    SameEngine s (envStep e s) ∨
    (∃ width off w, e = .regWrite width off w ∧
      ∃ r t, envStep e s = respond r t ∧ RegWritten s width off w t) ∨
    (e = .reset ∧ envStep e s = resetStep s) := by
  cases e with
  | regWrite width off w => exact .inr (.inl ⟨width, off, w, rfl, hostWrite_cases width off w s⟩)
  | reset => exact .inr (.inr ⟨rfl, rfl⟩)
  | regRead | memLoad =>
    left
    simp only [envStep, hostRead, hostLoad]
    split_ifs <;> rfl
  | fence =>
    left
    simp only [envStep, hostFence]
    split_ifs <;> rfl
  | engine | memStore | cacheClean | cacheInvalidate | memAgent => exact .inl rfl

/-! ## The end of a command, field by field (R220) -/

/-- The fields that `complete` gives fixed values. -/
structure Ended (c : ErrCode) (t : State) : Prop where
  busy : t.busy = false
  done : t.done = true
  phase : t.phase = .idle
  abort : t.abort = false
  wait : t.wait = none
  errcode : t.errcode = errCodeBits c
  err : t.err = decide (c ≠ .none)

theorem ended_raiseErr (e : ErrRec) (s : State) : Ended e.code (raiseErr e s) :=
  ⟨rfl, rfl, rfl, rfl, rfl, rfl, rfl⟩

section
variable {i : Instr} {c : ErrCode} {info data : Word} {s : State}

theorem ended_endRun : Ended c (endRun i c info data s) := ⟨rfl, rfl, rfl, rfl, rfl, rfl, rfl⟩

@[simp] theorem endRun_ie : (endRun i c info data s).ie = s.ie := by rw [endRun_eq]; rfl
@[simp] theorem endRun_wdrop : (endRun i c info data s).wdrop = s.wdrop := by rw [endRun_eq]; rfl
@[simp] theorem endRun_qmUnaligned : (endRun i c info data s).qmUnaligned = s.qmUnaligned := by
  rw [endRun_eq]; rfl
@[simp] theorem endRun_rptExceed : (endRun i c info data s).rptExceed = s.rptExceed := by rw [endRun_eq]; rfl
@[simp] theorem endRun_rptTotal : (endRun i c info data s).rptTotal = s.rptTotal := by rw [endRun_eq]; rfl
@[simp] theorem endRun_rptMaxerr : (endRun i c info data s).rptMaxerr = s.rptMaxerr := by rw [endRun_eq]; rfl
@[simp] theorem endRun_rptPassed : (endRun i c info data s).rptPassed = s.rptPassed := by rw [endRun_eq]; rfl

end

theorem errCodeBits_eq_zero_iff (c : ErrCode) : errCodeBits c = 0#4 ↔ c = .none := by
  cases c <;> decide

/-! ## The status bits agree (R35, R60) -/

theorem Ended.statusInv {c : ErrCode} {t : State} (h : Ended c t) : StatusInv t := by
  obtain ⟨hbusy, hdone, hphase, habort, hwait, hcode, herr⟩ := h
  unfold StatusInv
  rw [hbusy, hdone, hphase, habort, hwait, hcode, herr]
  refine ⟨by simp, ?_, by cases c <;> decide, by simp, by simp, by simp⟩
  rw [decide_eq_true_eq, ne_eq, ne_eq, errCodeBits_eq_zero_iff]

theorem EngineStep.keeps_statusInv {s t : State} (hinv : StatusInv s) (h : EngineStep s t) : StatusInv t := by
  cases h with
  | idle => exact hinv
  | checkEnds e => exact (ended_raiseErr e s).statusInv
  | checkPasses i hp =>
    obtain ⟨hbusy, herr, hcode, hrun, habort, -⟩ := hinv
    have hb : s.busy ≠ false := fun h => absurd (hbusy.1 h) (by rw [hp]; decide)
    exact ⟨⟨fun h => absurd h hb, nofun⟩, herr, hcode, hrun, habort, fun _ => rfl⟩
  | runs i t _ hdue hstep =>
    obtain ⟨hp, -⟩ := hdue
    obtain ⟨hbusy, herr, hcode, hrun, habort, -⟩ := hinv
    cases hstep with
    | aborted | readFails | writeFails | lastUnit => exact ended_endRun.statusInv
    | readWaits | writeWaits => exact ⟨hbusy, herr, hcode, hrun, habort, fun _ => hp⟩
    | innerUnit => exact ⟨hbusy, herr, hcode, hrun, habort, fun h => absurd rfl h⟩

theorem statusInv_resetStep (s : State) : StatusInv (resetStep s) := by
  simp [StatusInv, resetStep, State.resetOn]

theorem RegWritten.keeps_statusInv {s t : State} {width off : Nat} {w : Word} (hinv : StatusInv s)
    (h : RegWritten s width off w t) : StatusInv t := by
  obtain ⟨hbusy, herr, hcode, hrun, habort, hwait⟩ := hinv
  cases h with
  | ctrl =>
    refine ⟨hbusy, herr, hcode, hrun, fun h => ?_, hwait⟩
    change (if _ then true else s.abort) = true at h
    split_ifs at h with hset
    · exact hset.2
    · exact habort h
  | status =>
    refine ⟨hbusy, herr, hcode, fun h => ?_, habort, hwait⟩
    obtain ⟨hdone, hrest⟩ := hrun h
    exact ⟨by simp only [hdone, ite_self], hrest⟩
  | accepted =>
    exact ⟨⟨nofun, nofun⟩, ⟨nofun, fun h => absurd rfl h⟩, Nat.zero_le 8, fun _ => ⟨rfl, rfl, rfl, rfl, rfl⟩,
      nofun, fun h => absurd rfl h⟩
  | locked | operand | ignored => exact ⟨hbusy, herr, hcode, hrun, habort, hwait⟩

theorem SameEngine.keeps_statusInv {s t : State} (hinv : StatusInv s) (h : SameEngine s t) : StatusInv t := by
  rw [h]
  exact hinv

theorem envStep_keeps_statusInv {s : State} (e : Event) (hinv : StatusInv s) : StatusInv (envStep e s) := by
  obtain h | ⟨_, _, _, -, r, t, heq, h⟩ | ⟨-, heq⟩ := envStep_cases e s
  · exact h.keeps_statusInv hinv
  · rw [heq]
    exact (h.keeps_statusInv hinv : StatusInv t)
  · rw [heq]
    exact statusInv_resetStep s

/-- Settles O53: by the kinds of steps. -/
theorem stepKeepsStatusInv : Obligations.StepKeepsStatusInv := by
  intro s t hinv h
  obtain ⟨-, hengine⟩ | ⟨e, rest, -, -, rfl⟩ := step_next_cases h
  · exact hengine.keeps_statusInv (by exact hinv)
  · exact envStep_keeps_statusInv e (by exact hinv)

/-! ## The operands of a running command (R62) -/

/-- The accepted word, the operands and the platform are the same in both states. -/
def SameOperands (s t : State) : Prop :=
  t.lastcmd = s.lastcmd ∧ t.log2n = s.log2n ∧ t.dim = s.dim ∧ t.dim2 = s.dim2 ∧ t.src = s.src ∧
    t.src2 = s.src2 ∧ t.dst = s.dst ∧ t.tol = s.tol ∧ t.qm = s.qm ∧ t.platform = s.platform

theorem SameOperands.refl (s : State) : SameOperands s s := ⟨rfl, rfl, rfl, rfl, rfl, rfl, rfl, rfl, rfl, rfl⟩

theorem SameEngine.sameOperands {s t : State} (h : SameEngine s t) : SameOperands s t := by
  rw [h]
  exact .refl s

theorem EngineStep.sameOperands {s t : State} (h : EngineStep s t) (hbusy : t.busy = true) : SameOperands s t := by
  cases h with
  | idle => exact .refl s
  | checkEnds e => exact absurd ((ended_raiseErr e s).busy.symm.trans hbusy) nofun
  | checkPasses => exact .refl s
  | runs i t _ _ hstep =>
    cases hstep with
    | aborted | readFails | writeFails | lastUnit => exact absurd (ended_endRun.busy.symm.trans hbusy) nofun
    | readWaits | writeWaits | innerUnit => exact .refl s

theorem RegWritten.sameOperands {s t : State} {width off : Nat} {w : Word} (h : RegWritten s width off w t)
    (hbusy : s.busy = true) : SameOperands s t := by
  cases h with
  | ctrl | status | locked | ignored => exact .refl s
  | accepted _ _ hidle => exact absurd (hbusy.symm.trans hidle) nofun
  | operand _ _ _ _ _ _ _ _ hidle => exact absurd (hbusy.symm.trans hidle) nofun

/-- Settles O56: while BUSY stays 1, no step accepts, resets, or stores an operand. -/
theorem operandsStayFixedWhileBusy : Obligations.OperandsStayFixedWhileBusy := by
  intro s t h hs ht
  obtain ⟨-, hengine⟩ | ⟨e, rest, -, -, rfl⟩ := step_next_cases h
  · exact hengine.sameOperands ht
  · obtain h | ⟨_, _, _, -, r, t, heq, h⟩ | ⟨-, heq⟩ := envStep_cases e s.advance
    · exact h.sameOperands
    · rw [heq]
      exact (h.sameOperands hs : SameOperands s.advance t)
    · rw [heq] at ht
      cases ht

/-! ## The report (R45, R386) -/

/-- The report registers are the same in both states. -/
def SameReport (s t : State) : Prop :=
  t.rptExceed = s.rptExceed ∧ t.rptTotal = s.rptTotal ∧ t.rptMaxerr = s.rptMaxerr ∧ t.rptPassed = s.rptPassed

theorem SameReport.refl (s : State) : SameReport s s := ⟨rfl, rfl, rfl, rfl⟩

theorem SameEngine.sameReport {s t : State} (h : SameEngine s t) : SameReport s t := by
  rw [h]
  exact .refl s

theorem sameReport_endRun (i : Instr) (c : ErrCode) (info data : Word) (s : State) :
    SameReport s (endRun i c info data s) :=
  ⟨endRun_rptExceed, endRun_rptTotal, endRun_rptMaxerr, endRun_rptPassed⟩

/-- R386: only the completion action of VERIFY writes the report. -/
theorem sameReport_finishOf {i : Instr} (hi : i ≠ .verify) (s : State) : SameReport s (finishOf i s) := by
  cases i
  case verify => exact absurd rfl hi
  all_goals exact .refl s

theorem EngineStep.report_cases {s t : State} (h : EngineStep s t) :
    (s.phase = .run ∧ decodeWord s.lastcmd = .ok .verify ∧ t.phase = .idle ∧ t.errcode = 0#4 ∧
      t = endRun .verify .none 0 0 (verifyFinish (applyUnit (verifyWork s s.unit) s))) ∨ SameReport s t := by
  cases h with
  | idle | checkEnds | checkPasses => exact .inr (.refl s)
  | runs i t hd hdue hstep =>
    cases hstep with
    | aborted | readFails | writeFails => exact .inr (sameReport_endRun _ _ _ _ _)
    | readWaits | writeWaits | innerUnit => exact .inr (.refl s)
    | lastUnit =>
      by_cases hi : i = .verify
      · subst hi
        exact .inl ⟨hdue.1, hd, rfl, rfl, rfl⟩
      · obtain ⟨h1, h2, h3, h4⟩ := sameReport_finishOf hi (applyUnit (workOf i s s.unit) s)
        exact .inr ⟨endRun_rptExceed.trans h1, endRun_rptTotal.trans h2, endRun_rptMaxerr.trans h3,
          endRun_rptPassed.trans h4⟩

theorem RegWritten.sameReport {s t : State} {width off : Nat} {w : Word} (h : RegWritten s width off w t) :
    SameReport s t := by
  cases h <;> exact .refl s

/-- Settles O58: by `EngineStep.report_cases`; no other agent but a reset writes the report. -/
theorem onlyVerifyWritesTheReport : Obligations.OnlyVerifyWritesTheReport := by
  intro s t h hreset
  obtain ⟨-, hengine⟩ | ⟨e, rest, ha, -, rfl⟩ := step_next_cases h
  · obtain ⟨hp, hd, hidle, hcode, heq⟩ | hsame := hengine.report_cases
    · exact .inl ⟨hp, hd, hidle, hcode, by rw [heq]; exact endRun_rptTotal⟩
    · exact .inr hsame
  · right
    obtain h | ⟨_, _, _, -, r, t, heq, h⟩ | ⟨rfl, -⟩ := envStep_cases e s.advance
    · exact h.sameReport
    · rw [heq]
      exact (h.sameReport : SameReport s.advance t)
    · exact absurd (by rw [ha]; rfl) hreset

/-! ## The interrupt output (R480) -/

/-- `irq` does not rise where IE and DONE stay. -/
theorem not_irq_of_same {s t : State} {p : Prop} (hs : s.irq = false) (ht : t.irq = true) (hie : t.ie = s.ie)
    (hdone : t.done = s.done) : p := by
  rw [State.irq, hie, hdone] at ht
  exact absurd (hs.symm.trans ht) nofun

/-- No run step writes IE (R36). -/
theorem RunStep.ie {i : Instr} {s t : State} (h : RunStep i s t) : t.ie = s.ie := by
  cases h with
  | aborted | readFails | writeFails => exact endRun_ie
  | readWaits | writeWaits | innerUnit => rfl
  | lastUnit => exact endRun_ie.trans (by cases i <;> rfl)

theorem EngineStep.irq_rises {s t : State} (h : EngineStep s t) (hs : s.irq = false) (ht : t.irq = true) :
    s.ie = true ∧ s.phase ≠ .idle ∧ t.phase = .idle ∧ t.done = true := by
  have hparts : t.ie = true ∧ t.done = true := by simpa [State.irq] using ht
  obtain ⟨hie, hdone⟩ := hparts
  cases h with
  | idle | checkPasses => exact not_irq_of_same hs ht rfl rfl
  | checkEnds e hp => exact ⟨hie, by rw [hp]; decide, rfl, rfl⟩
  | runs i t _ hdue hstep =>
    have hp : s.phase ≠ .idle := by rw [hdue.1]; decide
    rw [hstep.ie] at hie
    cases hstep with
    | aborted | readFails | writeFails | lastUnit => exact ⟨hie, hp, rfl, rfl⟩
    | readWaits | writeWaits | innerUnit => exact not_irq_of_same hs ht rfl rfl

theorem RegWritten.irq_rises {s t : State} {width off : Nat} {w : Word} (h : RegWritten s width off w t)
    (hs : s.irq = false) (ht : t.irq = true) :
    width = 4 ∧ off = 0x004 ∧ w.getLsbD 0 = true ∧ s.done = true := by
  have hparts : t.ie = true ∧ t.done = true := by simpa [State.irq] using ht
  obtain ⟨hie, hdone⟩ := hparts
  cases h with
  | ctrl hwidth hoff => exact ⟨hwidth, hoff, hie, hdone⟩
  | status =>
    simp only at hie hdone
    split_ifs at hdone
    rw [State.irq, hie, hdone] at hs
    cases hs
  | accepted => cases hdone
  | locked | operand | ignored => exact not_irq_of_same hs ht rfl rfl

/-- Settles O59: only the end of a command sets DONE, and only a CTRL write sets IE. -/
theorem irqRisesOnlyByCompletionOrEnable : Obligations.IrqRisesOnlyByCompletionOrEnable := by
  intro s t h hs ht
  obtain ⟨-, hengine⟩ | ⟨e, rest, ha, -, rfl⟩ := step_next_cases h
  · exact .inl (hengine.irq_rises hs ht)
  · obtain h | ⟨_, _, w, rfl, r, t, heq, h⟩ | ⟨-, heq⟩ := envStep_cases e s.advance
    · rw [h] at ht
      exact not_irq_of_same hs ht rfl rfl
    · rw [heq] at ht
      obtain ⟨rfl, rfl, hbit, hdone⟩ := h.irq_rises hs ht
      exact .inr ⟨w, rest, ha, hbit, hdone⟩
    · rw [heq] at ht
      cases ht

end Sys2Proof.Machine
end

section
/-! PROOFS. What sets and what clears each flag (R56), and that a step never faults under the invariant. -/

namespace Sys2Proof.Machine

/-! ## The flag table (R56) -/

/-- A flag goes from `b` to `b'`, and where it changes, the event that the table names for that change has come. -/
def FlagRule (b b' : Bool) (set clear : Prop) : Prop :=
  (b = false → b' = true → set) ∧ (b = true → b' = false → clear)

section
variable {b b' : Bool} {set clear : Prop}

theorem FlagRule.same (h : b' = b) : FlagRule b b' set clear := by
  rw [h]
  exact ⟨fun h h' => absurd (h.symm.trans h') nofun, fun h h' => absurd (h.symm.trans h') nofun⟩

/-- A flag that ends at 1 may have been set. -/
theorem FlagRule.of_set (h : b' = true) (hset : b = false → set) : FlagRule b b' set clear :=
  ⟨fun hb _ => hset hb, fun _ hb' => absurd (h.symm.trans hb') nofun⟩

/-- A flag that ends at 0 may have been cleared. -/
theorem FlagRule.of_clear (h : b' = false) (hclear : b = true → clear) : FlagRule b b' set clear :=
  ⟨fun _ hb' => absurd (h.symm.trans hb') nofun, fun hb _ => hclear hb⟩

/-- A flag that can only be set keeps a 1. -/
theorem FlagRule.of_ite_set {p : Prop} [Decidable p] (hset : p → set) :
    FlagRule b (if p then true else b) set clear := by
  by_cases hp : p
  · rw [if_pos hp]
    exact .of_set rfl fun _ => hset hp
  · rw [if_neg hp]
    exact .same rfl

/-- A flag that can only be cleared keeps a 0. -/
theorem FlagRule.of_ite_clear {p : Prop} [Decidable p] (hclear : p → clear) :
    FlagRule b (if p then false else b) set clear := by
  by_cases hp : p
  · rw [if_pos hp]
    exact .of_clear rfl fun _ => hclear hp
  · rw [if_neg hp]
    exact .same rfl

end

/-- The step is a 32-bit write of `w` at `off`, with `p`. -/
def IsRegWrite (s : State) (off : Nat) (p : Word → Prop) : Prop :=
  ∃ w rest, s.agenda = .regWrite 4 off w :: rest ∧ p w

/-- R56, row by row, for a step from `s` to `t`. -/
structure FlagsListed (s t : State) : Prop where
  busy : FlagRule s.busy t.busy (∃ w rest, s.agenda = .regWrite 4 0x00C w :: rest)
    (s.phase ≠ .idle ∧ t.phase = .idle ∧ t.done = true)
  done : FlagRule s.done t.done (s.busy = true ∧ t.busy = false)
    (IsRegWrite s 0x008 (fun w => w.getLsbD 1 = true) ∨ IsRegWrite s 0x00C fun _ => s.busy = false)
  err : FlagRule s.err t.err (s.busy = true ∧ t.busy = false ∧ t.errcode ≠ 0#4)
    (IsRegWrite s 0x00C fun _ => s.busy = false)
  wdrop : FlagRule s.wdrop t.wdrop
    (∃ off w rest, s.agenda = .regWrite 4 off w :: rest ∧ s.busy = true ∧
      (off ∈ [0x00C, 0x010, 0x014, 0x018, 0x01C, 0x020, 0x024, 0x028] ∨ (0x100 ≤ off ∧ off ≤ 0x4FC)))
    (IsRegWrite s 0x008 fun w => w.getLsbD 3 = true)
  qmUnaligned : FlagRule s.qmUnaligned t.qmUnaligned
    (s.phase = .run ∧ decodeWord s.lastcmd = .ok .qmbuild ∧ t.phase = .idle ∧ t.errcode = 0#4 ∧
      (s.rows % s.blockSize ≠ 0 ∨ s.cols % s.blockSize ≠ 0))
    (IsRegWrite s 0x00C fun _ => s.busy = false)
  abort : FlagRule s.abort t.abort (IsRegWrite s 0x004 fun w => w.getLsbD 1 = true ∧ s.busy = true)
    (s.busy = true ∧ t.busy = false)
  passed : s.rptPassed ≠ t.rptPassed → s.phase = .run ∧ decodeWord s.lastcmd = .ok .verify ∧
    t.phase = .idle ∧ t.errcode = 0#4

/-- The seven flags are the same in both states. -/
def SameFlags (s t : State) : Prop :=
  t.busy = s.busy ∧ t.done = s.done ∧ t.err = s.err ∧ t.wdrop = s.wdrop ∧ t.qmUnaligned = s.qmUnaligned ∧
    t.abort = s.abort ∧ t.rptPassed = s.rptPassed

theorem SameFlags.refl (s : State) : SameFlags s s := ⟨rfl, rfl, rfl, rfl, rfl, rfl, rfl⟩

theorem SameFlags.flagsListed {s t : State} (h : SameFlags s t) : FlagsListed s t := by
  obtain ⟨hbusy, hdone, herr, hwdrop, hqm, habort, hpassed⟩ := h
  exact ⟨.same hbusy, .same hdone, .same herr, .same hwdrop, .same hqm, .same habort,
    fun hne => absurd hpassed.symm hne⟩

/-! ## The flags over an engine step -/

theorem StatusInv.of_active {s : State} (hinv : StatusInv s) (hp : s.phase ≠ .idle) :
    s.busy = true ∧ s.done = false ∧ s.err = false ∧ s.qmUnaligned = false := by
  obtain ⟨hbusy, herr, -, hrun, -, -⟩ := hinv
  have hb : s.busy = true := by
    rw [← Bool.not_eq_false, hbusy]
    exact hp
  obtain ⟨hdone, hcode, -, -, hqm⟩ := hrun hb
  refine ⟨hb, hdone, ?_, hqm⟩
  rw [← Bool.not_eq_true, herr, hcode]
  exact fun h => h rfl

/-- R220, R56: the end of a command, for the flags that `complete` writes; the two that completion actions write are
left to the caller. -/
theorem Ended.flagsListed {c : ErrCode} {s t : State} (h : Ended c t) (hinv : StatusInv s) (hp : s.phase ≠ .idle)
    (hwdrop : t.wdrop = s.wdrop)
    (hqm : t.qmUnaligned = true → s.phase = .run ∧ decodeWord s.lastcmd = .ok .qmbuild ∧ t.phase = .idle ∧
      t.errcode = 0#4 ∧ (s.rows % s.blockSize ≠ 0 ∨ s.cols % s.blockSize ≠ 0))
    (hpassed : s.rptPassed ≠ t.rptPassed → s.phase = .run ∧ decodeWord s.lastcmd = .ok .verify ∧
      t.phase = .idle ∧ t.errcode = 0#4) : FlagsListed s t := by
  obtain ⟨hbusy, hdone, herr, hunaligned⟩ := hinv.of_active hp
  refine ⟨.of_clear h.busy fun _ => ⟨hp, h.phase, h.done⟩, .of_set h.done fun _ => ⟨hbusy, h.busy⟩, ?_,
    .same hwdrop, ⟨fun _ => hqm, fun hs => absurd (hs.symm.trans hunaligned) nofun⟩,
    .of_clear h.abort fun _ => ⟨hbusy, h.busy⟩, hpassed⟩
  refine ⟨fun _ ht => ⟨hbusy, h.busy, ?_⟩, fun hs => absurd (hs.symm.trans herr) nofun⟩
  rw [h.err, decide_eq_true_eq] at ht
  rwa [h.errcode, ne_eq, errCodeBits_eq_zero_iff]

theorem wdrop_finishOf (i : Instr) (w : UnitWork) (s : State) : (finishOf i (applyUnit w s)).wdrop = s.wdrop := by
  cases i <;> rfl

/-- R254, R56: of the completion actions QMBUILD's sets QM_UNALIGNED. -/
theorem qmUnaligned_finishOf {i : Instr} {w : UnitWork} {s : State} (hs : s.qmUnaligned = false)
    (h : (finishOf i (applyUnit w s)).qmUnaligned = true) :
    i = .qmbuild ∧ (s.rows % s.blockSize ≠ 0 ∨ s.cols % s.blockSize ≠ 0) := by
  cases i
  case qmbuild => exact ⟨rfl, of_decide_eq_true ((qmUnalignedFlag_eq s).symm.trans h)⟩
  all_goals exact absurd (hs.symm.trans h) nofun

/-- R386, R56: of the completion actions VERIFY's writes PASSED. -/
theorem rptPassed_finishOf {i : Instr} {w : UnitWork} {s : State}
    (h : s.rptPassed ≠ (finishOf i (applyUnit w s)).rptPassed) : i = .verify := by
  by_contra hi
  obtain ⟨-, -, -, hsame⟩ := sameReport_finishOf hi (applyUnit w s)
  exact h hsame.symm

/-- The same for the end of a run, in terms of the state it is reached from. -/
theorem flagsListed_endRun {i : Instr} {c : ErrCode} {info data : Word} {s s' : State} (hinv : StatusInv s)
    (hp : s.phase ≠ .idle) (hwdrop : s'.wdrop = s.wdrop)
    (hqm : s'.qmUnaligned = true → s.phase = .run ∧ decodeWord s.lastcmd = .ok .qmbuild ∧
      c = .none ∧ (s.rows % s.blockSize ≠ 0 ∨ s.cols % s.blockSize ≠ 0))
    (hpassed : s.rptPassed ≠ s'.rptPassed → s.phase = .run ∧ decodeWord s.lastcmd = .ok .verify ∧ c = .none) :
    FlagsListed s (endRun i c info data s') := by
  refine ended_endRun.flagsListed hinv hp (endRun_wdrop.trans hwdrop) (fun h => ?_) fun h => ?_
  · obtain ⟨hrun, hd, rfl, hmod⟩ := hqm (endRun_qmUnaligned.symm.trans h)
    exact ⟨hrun, hd, rfl, rfl, hmod⟩
  · rw [endRun_rptPassed] at h
    obtain ⟨hrun, hd, rfl⟩ := hpassed h
    exact ⟨hrun, hd, rfl, rfl⟩

theorem EngineStep.flagsListed {s t : State} (hinv : StatusInv s)
    (h : EngineStep s.advance t) : FlagsListed s t := by
  cases h with
  | idle => exact SameFlags.flagsListed (.refl s)
  | checkPasses => exact SameFlags.flagsListed (.refl s)
  | checkEnds e hp =>
    have hactive : s.phase ≠ .idle := fun h => absurd (hp.symm.trans h) nofun
    obtain ⟨-, -, -, hqm⟩ := hinv.of_active hactive
    exact (ended_raiseErr e _).flagsListed hinv hactive rfl (fun h => absurd (hqm.symm.trans h) nofun)
      fun h => absurd rfl h
  | runs i t hd hdue hstep =>
    have hrun : s.phase = .run := hdue.1
    have hactive : s.phase ≠ .idle := fun h => absurd (hrun.symm.trans h) nofun
    obtain ⟨-, -, -, hqm⟩ := hinv.of_active hactive
    cases hstep with
    | readWaits | writeWaits | innerUnit => exact SameFlags.flagsListed (.refl s)
    | aborted | readFails | writeFails =>
      exact flagsListed_endRun hinv hactive rfl (fun h => absurd (hqm.symm.trans h) nofun) fun h => absurd rfl h
    | lastUnit =>
      refine flagsListed_endRun hinv hactive (wdrop_finishOf _ _ _) (fun h => ?_) fun h => ?_
      · obtain ⟨rfl, hmod⟩ := qmUnaligned_finishOf (s := s.advance) hqm h
        exact ⟨hrun, hd, rfl, hmod⟩
      · obtain rfl := rptPassed_finishOf (s := s.advance) h
        exact ⟨hrun, hd, rfl⟩

/-! ## The flags over an agent's action -/

theorem SameEngine.sameFlags {s t : State} (h : SameEngine s t) : SameFlags s t := by
  rw [h]
  exact .refl s

/-- R56: a write to the register window, where the agenda says which it is. -/
theorem RegWritten.flagsListed {s t : State} {rest : List Event} {width off : Nat} {w : Word} {r : Response}
    (hinv : StatusInv s) (ha : s.agenda = .regWrite width off w :: rest)
    (h : RegWritten s.advance width off w t) : FlagsListed s (respond r t) := by
  cases h with
  | operand => exact SameFlags.flagsListed (.refl s)
  | ignored => exact SameFlags.flagsListed (.refl s)
  | ctrl hwidth hoff =>
    subst hwidth hoff
    exact ⟨.same rfl, .same rfl, .same rfl, .same rfl, .same rfl,
      .of_ite_set fun hset => ⟨w, rest, ha, hset⟩, fun hne => absurd rfl hne⟩
  | status hwidth hoff =>
    subst hwidth hoff
    exact ⟨.same rfl, .of_ite_clear fun hbit => .inl ⟨w, rest, ha, hbit⟩, .same rfl,
      .of_ite_clear fun hbit => ⟨w, rest, ha, hbit⟩, .same rfl, .same rfl, fun hne => absurd rfl hne⟩
  | accepted hwidth hoff hidle =>
    subst hwidth hoff
    have hcmd : IsRegWrite s 0x00C fun _ => s.busy = false := ⟨w, rest, ha, hidle⟩
    obtain ⟨-, -, -, -, habort, -⟩ := hinv
    exact ⟨.of_set rfl fun _ => ⟨w, rest, ha⟩, .of_clear rfl fun _ => .inr hcmd, .of_clear rfl fun _ => hcmd,
      .same rfl, .of_clear rfl fun _ => hcmd,
      .of_clear rfl fun h => absurd ((habort h).symm.trans hidle) nofun, fun hne => absurd rfl hne⟩
  | locked hwidth hbusy hoff =>
    subst hwidth
    exact ⟨.same rfl, .same rfl, .same rfl, .of_set rfl fun _ => ⟨off, w, rest, ha, hbusy, hoff⟩, .same rfl,
      .same rfl, fun hne => absurd rfl hne⟩

/-- R56 for every step that is no reset. -/
theorem flagsListed_of_step {s t : State} (hinv : StatusInv s) (h : step s = .next t)
    (hreset : s.agenda.head? ≠ some .reset) : FlagsListed s t := by
  obtain ⟨-, hengine⟩ | ⟨e, rest, ha, -, rfl⟩ := step_next_cases h
  · exact hengine.flagsListed hinv
  · obtain h | ⟨_, _, _, rfl, r, t, heq, h⟩ | ⟨rfl, -⟩ := envStep_cases e s.advance
    · exact h.sameFlags.flagsListed (s := s)
    · rw [heq]
      exact h.flagsListed hinv ha
    · exact absurd (by rw [ha]; rfl) hreset

/-- Settles O57: the rows of `FlagsListed`, one after another. -/
theorem flagsChangeOnlyAsListed : Obligations.FlagsChangeOnlyAsListed := by
  intro s t hinv h hreset
  obtain ⟨hbusy, hdone, herr, hwdrop, hqm, habort, hpassed⟩ := flagsListed_of_step hinv h hreset
  exact ⟨hbusy.1, hbusy.2, hdone.1, hdone.2, herr.1, herr.2, hwdrop.1, hwdrop.2, hqm.1, hqm.2, habort.1, habort.2,
    hpassed⟩

/-! ## No fault under the invariant -/

section
variable {s : State}

/-- The engine's step: what can stop it is R113's refusal. -/
theorem engineStep_next_or_refused (hinv : CommandInv s) :
    (∃ t, engineStep s = .next t) ∨
    (s.phase = .check ∧ ∃ i n, decodeWord s.lastcmd = .ok i ∧ check i s = none ∧ sideEffectFrame i s ≠ none ∧
      engineStep s = .refused (.sideEffectRegion n)) := by
  obtain ⟨-, hstep⟩ | ⟨hp, i, hd, hstep⟩ | ⟨hp, r, hr, hstep⟩ := engineStep_cases s
  · exact .inl ⟨s, hstep⟩
  · rw [hstep]
    cases hph : s.phase with
    | idle => exact absurd hph hp
    | check =>
      rw [exec_check hph]
      obtain ⟨e, -, hcheck⟩ | ⟨hc, f, hf, hcheck⟩ | ⟨-, -, hcheck⟩ := checkStep_cases i s
      · exact .inl ⟨_, hcheck⟩
      · exact .inr ⟨rfl, i, f.number, hd, hc, by rw [hf]; nofun, hcheck⟩
      · exact .inl ⟨_, hcheck⟩
    | run =>
      obtain ⟨j, hj, hc, -, hu, -⟩ := hinv.2 hph
      obtain rfl : i = j := Except.ok.inj (hd.symm.trans hj)
      exact .inl (exec_run_next ⟨hph, hc, hu⟩)
  · rw [hstep, illegalStep]
    cases hph : s.phase with
    | idle => exact absurd hph hp
    | check => exact .inl ⟨_, rfl⟩
    | run =>
      obtain ⟨j, hj, -⟩ := hinv.2 hph
      exact absurd (hr.symm.trans hj) nofun

end

/-- Settles O55: agents always act, and the engine's fault needs a run state outside `CommandInv`. -/
theorem noFaultUnderInv : Obligations.NoFaultUnderInv := by
  intro s hinv
  obtain ⟨-, -, hcommand, -⟩ := hinv
  obtain ⟨-, hstep⟩ | ⟨e, rest, -, -, hstep⟩ := step_advance_cases s
  · rw [hstep]
    exact engineStep_next_or_refused (s := s.advance) hcommand
  · exact .inl ⟨_, hstep⟩

end Sys2Proof.Machine
end

section
/-! PROOFS. Every step keeps the invariant: memory, the running command, the waiting unit and the report (R100, R205,
R225, R385, R46). -/

namespace Sys2Proof.Machine

/-! ## Memory in canonical form -/

section
variable {i : Instr} {s : State}

theorem memInv_endRun (hc : check i s = none) (hm : s.mem.wf = true) (hp : PendingOk s) (c : ErrCode)
    (info data : Word) : MemInv (endRun i c info data s) := by
  rw [endRun_eq]
  exact ⟨settle_mem_wf hc hm, rfl, settle_pendingOk hp⟩

theorem check_finishOf (i : Instr) (w : UnitWork) (s : State) : check i (finishOf i (applyUnit w s)) = check i s := by
  cases i <;> rfl

theorem mem_finishOf (i : Instr) (s : State) : (finishOf i s).mem = s.mem := by
  cases i <;> rfl

theorem pending_finishOf (i : Instr) (s : State) : (finishOf i s).pending = s.pending := by
  cases i <;> rfl

theorem RunStep.keeps_memInv {t : State} (hdue : UnitDue i s) (hinv : MemInv s) (h : RunStep i s t) : MemInv t := by
  obtain ⟨-, hc, hu⟩ := hdue
  obtain ⟨hm, hold, hp⟩ := hinv
  have hwork := writeElems_wf hm (workOf_writes_inRegion hc hu)
  cases h with
  | aborted | readFails => exact memInv_endRun hc hm hp _ _ _
  | readWaits | writeWaits => exact ⟨hm, hold, hp⟩
  | writeFails =>
    refine memInv_endRun (s := { s with mem := freeElems s.freeCount s.mem (unitWrites i s s.unit) }) hc
      (freeElems_wf hm fun w hw => ?_) hp _ _ _
    obtain ⟨-, -, -, -, -, -, hspace⟩ := unitWrites_inRegion hc hu w hw
    exact hspace
  | lastUnit =>
    refine memInv_endRun ((check_finishOf _ _ _).trans hc) ?_ ?_ _ _ _
    · rw [mem_finishOf]
      exact hwork
    · rw [PendingOk, pending_finishOf]
      exact hp
  | innerUnit => exact ⟨hwork, hold, hp⟩

theorem EngineStep.keeps_memInv {t : State} (hinv : MemInv s) (h : EngineStep s t) : MemInv t := by
  obtain ⟨hm, hold, hp⟩ := hinv
  cases h with
  | idle | checkPasses => exact ⟨hm, hold, hp⟩
  | checkEnds => exact ⟨hm, rfl, hp⟩
  | runs i t _ hdue hstep => exact hstep.keeps_memInv hdue ⟨hm, hold, hp⟩

/-- R125: an active command has passed its checks, or will. -/
theorem CommandInv.check_of_active (hinv : CommandInv s) (h : activeCommand s = some i) : check i s = none := by
  obtain ⟨-, hrun⟩ := hinv
  unfold activeCommand at h
  cases hp : s.phase with
  | idle => simp [hp] at h
  | check =>
    rw [hp] at h
    exact Option.isNone_iff_eq_none.1 (Option.filter_eq_some_iff.1 h).2
  | run =>
    obtain ⟨j, hd, hc, -⟩ := hrun hp
    simp only [hp, hd, Except.toOption, Option.some.injEq] at h
    rwa [← h]

theorem decodeWord_of_active (hp : s.phase = .run) (h : activeCommand s = some i) :
    decodeWord s.lastcmd = .ok i := by
  unfold activeCommand at h
  rw [hp] at h
  cases hd : decodeWord s.lastcmd with
  | error r => simp [hd, Except.toOption] at h
  | ok j => simpa [hd, Except.toOption] using h

/-- R520: what a reset leaves of memory and of the stores under way. -/
theorem abandon_keeps (hinv : CommandInv s) (hm : s.mem.wf = true) (hp : PendingOk s) :
    (abandon s).mem.wf = true ∧ PendingOk (abandon s) := by
  unfold abandon
  split
  case h_1 i hactive hrun =>
    rw [closeRun_eq]
    have hspace := hinv.unitWrites_inSpace hrun (decodeWord_of_active hrun hactive)
    exact ⟨settle_mem_wf (hinv.check_of_active hactive) (freeElems_wf hm hspace), settle_pendingOk hp⟩
  case h_2 i hactive _ => exact ⟨settle_mem_wf (hinv.check_of_active hactive) hm, settle_pendingOk hp⟩
  case h_3 => exact ⟨hm, hp⟩
  case h_4 => exact ⟨hm, hp⟩

theorem RegWritten.keeps_memInv {t : State} {width off : Nat} {w : Word} (hinv : MemInv s)
    (h : RegWritten s width off w t) : MemInv t := by
  obtain ⟨hm, hold, hp⟩ := hinv
  cases h with
  | ctrl | status | locked | operand | ignored => exact ⟨hm, hold, hp⟩
  | accepted => exact ⟨hm, hm, hp⟩

theorem envStep_keeps_memInv (e : Event) (hinv : MemInv s) (hcommand : CommandInv s) : MemInv (envStep e s) := by
  obtain ⟨hm, hold, hp⟩ := hinv
  have hdrain (p : List Host.Cell → Bool) : MemInv (drainWhere p s) :=
    ⟨(drainWhere_ok hm hp).1, hold, (drainWhere_ok hm hp).2⟩
  cases e with
  | engine | cacheInvalidate | memAgent => exact ⟨hm, hold, hp⟩
  | regRead | memLoad =>
    simp only [envStep, hostRead, hostLoad]
    split_ifs <;> exact ⟨hm, hold, hp⟩
  | regWrite width off w =>
    obtain ⟨r, t, heq, h⟩ := hostWrite_cases width off w s
    rw [envStep, heq]
    exact (h.keeps_memInv ⟨hm, hold, hp⟩ : MemInv t)
  | memStore => exact ⟨hm, hold, hostStore_pendingOk hp⟩
  | fence =>
    simp only [envStep, hostFence]
    split_ifs
    · exact hdrain _
    · exact ⟨hm, hold, hp⟩
  | cacheClean => exact hdrain _
  | reset =>
    obtain ⟨hm', hp'⟩ := abandon_keeps hcommand hm hp
    exact ⟨hm', rfl, hp'⟩

end

theorem memInv_of_step {s t : State} (hinv : MemInv s) (hcommand : CommandInv s) (h : step s = .next t) :
    MemInv t := by
  obtain ⟨-, hengine⟩ | ⟨e, rest, -, -, rfl⟩ := step_next_cases h
  · exact hengine.keeps_memInv (by exact hinv)
  · exact envStep_keeps_memInv e (by exact hinv) (by exact hcommand)

/-- Settles O52: by `memInv_of_step`. -/
theorem stepKeepsMemInv : Obligations.StepKeepsMemInv := fun _ _ hinv hcommand h => memInv_of_step hinv hcommand h

/-! ## The running command -/

/-- A command whose checks pass has a unit to do. -/
theorem unitCount_pos_of_check {i : Instr} {s : State} (hc : check i s = none) : 0 < unitCount i s := by
  cases hi : isTile i
  · rw [unitCount, if_neg (by simp [hi])]
    exact rows_pos hc
  · exact unitCount_pos hi ((check_eq_none_iff i s).1 hc).1

theorem foldl_max_le {B : Nat} {l : List Nat} : ∀ {x : Nat}, x ≤ B → (∀ d ∈ l, d ≤ B) → l.foldl max x ≤ B := by
  induction l with
  | nil => exact fun hx _ => hx
  | cons d l ih =>
    intro x hx hl
    obtain ⟨hd, hl⟩ := List.forall_mem_cons.1 hl
    exact ih (max_le hx hd) hl

/-- R385: two 16-bit samples are at most 65535 apart. -/
theorem rowDiffs_le (s : State) (t : Nat) : ∀ d ∈ rowDiffs s t, d ≤ 65535 := by
  intro d hd
  obtain ⟨j, -, rfl⟩ := List.mem_map.1 hd
  have hsample (f : FrameName) :
      -32768 ≤ s.readElem f .sample t j ∧ s.readElem f .sample t j ≤ 32767 := by
    have hlo := BitVec.le_toInt (BitVec.ofNat 16 (s.dmaRead f (s.elemAddr f 2 t j) 2))
    have hhi := BitVec.toInt_lt (x := BitVec.ofNat 16 (s.dmaRead f (s.elemAddr f 2 t j) 2))
    rw [State.readElem, sext16]
    omega
  have hsrc := hsample .src
  have hsrc2 := hsample .src2
  omega

/-- R383, R385: what one unit adds to the accumulators. -/
theorem workOf_accumulators (i : Instr) (s : State) (t : Nat) :
    (workOf i s t).accExceed ≤ s.accExceed + s.cols ∧
      (s.accMax ≤ 65535 → (workOf i s t).accMax ≤ 65535) := by
  cases i
  case verify =>
    refine ⟨Nat.add_le_add_left ?_ _, fun h => foldl_max_le h (rowDiffs_le s t)⟩
    calc ((rowDiffs s t).filter (exceedsTol s.tol)).length ≤ (rowDiffs s t).length := List.length_filter_le _ _
      _ = s.cols := by rw [rowDiffs, List.length_map, List.length_range]
  all_goals exact ⟨Nat.le_add_right _ _, fun h => h⟩

theorem commandInv_of_idle {s : State} (h : s.phase = .idle) : CommandInv s :=
  ⟨fun hp => absurd (h.symm.trans hp) nofun, fun hp => absurd (h.symm.trans hp) nofun⟩

theorem EngineStep.keeps_commandInv {s t : State} (hinv : CommandInv s) (h : EngineStep s t) : CommandInv t := by
  cases h with
  | idle => exact hinv
  | checkEnds => exact commandInv_of_idle rfl
  | checkPasses i hp hd hc hf =>
    obtain ⟨hunit, hexceed, hmax⟩ := hinv.1 hp
    refine ⟨nofun, fun _ => ⟨i, hd, hc, hf, ?_, ?_, ?_⟩⟩
    · exact hunit.trans_lt (unitCount_pos_of_check hc)
    · exact hexceed.trans_le (Nat.zero_le _)
    · exact hmax.trans_le (Nat.zero_le _)
  | runs i t hd hdue hstep =>
    cases hstep with
    | aborted | readFails | writeFails | lastUnit => exact commandInv_of_idle rfl
    | readWaits | writeWaits => exact hinv
    | innerUnit _ hlast =>
      obtain ⟨hp, hc, hu⟩ := hdue
      obtain ⟨j, hj, -, hf, -, hexceed, hmax⟩ := hinv.2 hp
      obtain rfl : i = j := Except.ok.inj (hd.symm.trans hj)
      obtain ⟨hexceed', hmax'⟩ := workOf_accumulators i s s.unit
      refine ⟨fun h => absurd (hp.symm.trans h) nofun, fun _ => ⟨i, hd, hc, hf, ?_, ?_, hmax' hmax⟩⟩
      · exact lt_of_le_of_ne hu hlast
      · calc (workOf i s s.unit).accExceed ≤ s.unit * s.cols + s.cols := by omega
          _ = (s.unit + 1) * s.cols := (Nat.succ_mul _ _).symm

theorem RegWritten.keeps_commandInv {s t : State} {width off : Nat} {w : Word} (hstatus : StatusInv s)
    (hinv : CommandInv s) (h : RegWritten s width off w t) : CommandInv t := by
  cases h with
  | ctrl | status | locked | ignored => exact hinv
  | accepted => exact ⟨fun _ => ⟨rfl, rfl, rfl⟩, nofun⟩
  | operand _ _ _ _ _ _ _ _ hidle => exact commandInv_of_idle (hstatus.1.1 hidle)

theorem envStep_keeps_commandInv {s : State} (e : Event) (hstatus : StatusInv s) (hinv : CommandInv s) :
    CommandInv (envStep e s) := by
  obtain h | ⟨_, _, _, -, r, t, heq, h⟩ | ⟨-, heq⟩ := envStep_cases e s
  · rw [h]
    exact hinv
  · rw [heq]
    exact (h.keeps_commandInv hstatus hinv : CommandInv t)
  · rw [heq]
    exact commandInv_of_idle rfl

/-! ## The waiting unit (R225) -/

theorem waitInv_of_fresh {s : State} (h : s.wait = none) : WaitInv s :=
  fun _ _ _ => ⟨.inl (by simp [h]), fun _ => readsAgree_of_fresh h⟩

/-- R225: the data that reads get in this step is what memory holds. -/
theorem readsAgree_fetch {s : State} {l : List Access} (hq : HostQuiet s) (hr : ReadsAgree s) :
    ∀ r ∈ s.waited.reads ++ s.fetch l, r.value = s.mem.readLE r.access.addr r.access.size := by
  intro r hmem
  obtain h | h := List.mem_append.1 hmem
  · exact hr r h
  · obtain ⟨a, -, rfl⟩ := List.mem_map.1 h
    exact dmaRead_of_quiet hq hr _ _ _

theorem waitInv_waitForRead {i : Instr} {x : Access} {s : State} (hd : decodeWord s.lastcmd = .ok i)
    (hr : HostQuiet s → ReadsAgree s) : WaitInv (waitForRead i x s) := by
  intro j _ hj
  obtain rfl : i = j := Except.ok.inj (hd.symm.trans hj)
  refine ⟨.inl fun a ha => ?_, fun hq => readsAgree_fetch hq (hr hq)⟩
  obtain ⟨hopen, -, hsilent⟩ := mem_askedNow.1 ha
  obtain ⟨hunit, hnew⟩ := mem_openReads.1 hopen
  refine mem_openReads.2 ⟨hunit, fun r hmem => ?_⟩
  obtain h | h := List.mem_append.1 hmem
  · exact hnew r h
  · obtain ⟨b, hb, rfl⟩ := List.mem_map.1 h
    rintro rfl
    have hok : s.answerOf false b = .ok := by
      have := (List.mem_filter.1 hb).2
      simp only [Bool.and_eq_true, decide_eq_true_eq] at this
      exact this.2
    exact absurd (hsilent.symm.trans hok) nofun

theorem waitInv_waitForWrite {i : Instr} {x : Access} {s : State} (hd : decodeWord s.lastcmd = .ok i)
    (hr : HostQuiet s → ReadsAgree s) : WaitInv (waitForWrite i x s) := by
  intro j _ hj
  obtain rfl : i = j := Except.ok.inj (hd.symm.trans hj)
  refine ⟨.inr ⟨List.eq_nil_iff_forall_not_mem.2 fun a ha => ?read, fun a ha => ?write⟩,
    fun hq => readsAgree_fetch hq (hr hq)⟩
  case read =>
    obtain ⟨hunit, hnew⟩ := mem_openReads.1 ha
    have hold : a ∈ openReads i s :=
      mem_openReads.2 ⟨hunit, fun r hmem => hnew r (List.mem_append_left _ hmem)⟩
    obtain ⟨r, hmem, hra⟩ := exists_fetch_of_mem (s := s) hold
    exact hnew r (List.mem_append_right _ hmem) hra
  case write =>
    obtain ⟨hopen, -, hsilent⟩ := mem_askedNow.1 ha
    obtain ⟨hunit, hnew⟩ := mem_openWrites.1 hopen
    refine mem_openWrites.2 ⟨hunit, fun hack => ?_⟩
    obtain h | h := List.mem_append.1 hack
    · exact hnew h
    · have hok : s.answerOf true a = .ok := by
        have := (List.mem_filter.1 h).2
        simp only [Bool.and_eq_true, decide_eq_true_eq] at this
        exact this.2
      exact absurd (hsilent.symm.trans hok) nofun

theorem EngineStep.keeps_waitInv {s t : State} (hstatus : StatusInv s) (hinv : WaitInv s) (h : EngineStep s t) :
    WaitInv t := by
  cases h with
  | idle => exact hinv
  | checkEnds => exact waitInv_of_fresh rfl
  | checkPasses i hp =>
    obtain ⟨-, -, -, -, -, hwait⟩ := hstatus
    exact waitInv_of_fresh (not_not.1 fun h => absurd (hp.symm.trans (hwait h)) nofun)
  | runs i t hd hdue hstep =>
    obtain ⟨-, hreads⟩ := hinv i hdue.1 hd
    cases hstep with
    | aborted | readFails | writeFails | lastUnit | innerUnit => exact waitInv_of_fresh rfl
    | readWaits => exact waitInv_waitForRead hd hreads
    | writeWaits => exact waitInv_waitForWrite hd hreads

/-- R125: where the host turns out quiet after an action of an agent during a command, it was quiet before, and the
action has left memory alone. -/
theorem hostQuiet_of_envStep {s : State} {e : Event} (hbusy : s.busy = true) (hreset : e ≠ .reset)
    (hwrite : ∀ width off w, e ≠ .regWrite width off w) (hq : HostQuiet (envStep e s)) :
    HostQuiet s ∧ (envStep e s).mem = s.mem := by
  have hdrain {p : List Host.Cell → Bool} (hq : HostQuiet (drainWhere p s)) :
      HostQuiet s ∧ (drainWhere p s).mem = s.mem := by
    obtain ⟨hpending, htouched, hlanded⟩ := hq
    simp only [drainWhere, hbusy, if_true, List.append_eq_nil_iff] at hpending htouched hlanded
    refine ⟨⟨?_, htouched.1, hlanded.1⟩, ?_⟩
    · refine List.eq_nil_iff_forall_not_mem.2 fun st hst => ?_
      cases hp : p st
      · exact List.ne_nil_of_mem (List.mem_filter.2 ⟨hst, by simp [hp]⟩) hpending
      · exact List.ne_nil_of_mem (List.mem_filter.2 ⟨hst, hp⟩) hlanded.2
    · simp only [drainWhere, hlanded.2]
      rfl
  cases e with
  | reset => exact absurd rfl hreset
  | regWrite => exact absurd rfl (hwrite _ _ _)
  | engine | cacheInvalidate | memAgent => exact ⟨hq, rfl⟩
  | regRead | memLoad =>
    simp only [envStep, hostRead, hostLoad] at hq ⊢
    split_ifs at hq ⊢ <;> exact ⟨hq, rfl⟩
  | memStore =>
    obtain ⟨hpending, htouched, hlanded⟩ := hq
    simp only [envStep, hostStore, hbusy, if_true, List.append_eq_nil_iff] at hpending htouched
    exact ⟨⟨hpending.1, htouched.1, hlanded⟩, rfl⟩
  | fence =>
    simp only [envStep, hostFence] at hq ⊢
    split_ifs at hq ⊢
    · exact hdrain hq
    · exact ⟨hq, rfl⟩
  | cacheClean => exact hdrain hq

theorem SameEngine.keeps_waitInv {s t : State} (hinv : WaitInv s) (h : SameEngine s t)
    (hquiet : s.phase = .run → HostQuiet t → HostQuiet s ∧ t.mem = s.mem) : WaitInv t := by
  have hphase : t.phase = s.phase := by rw [h]
  have hword : t.lastcmd = s.lastcmd := by rw [h]
  have hwaited : t.waited = s.waited := by rw [h]; rfl
  intro i hp hd
  rw [hphase] at hp
  rw [hword] at hd
  obtain ⟨hasked, hreads⟩ := hinv i hp hd
  refine ⟨by rw [h]; exact hasked, fun hq r hr => ?_⟩
  obtain ⟨hqs, hm⟩ := hquiet hp hq
  rw [hm]
  exact hreads hqs r (hwaited ▸ hr)

theorem RegWritten.keeps_waitInv {s t : State} {width off : Nat} {w : Word} (hstatus : StatusInv s)
    (hinv : WaitInv s) (h : RegWritten s width off w t) : WaitInv t := by
  cases h with
  | ctrl | status | locked | ignored => exact hinv
  | accepted => exact waitInv_of_fresh rfl
  | operand _ _ _ _ _ _ _ _ hidle => exact fun _ hp => absurd ((hstatus.1.1 hidle).symm.trans hp) nofun

theorem envStep_keeps_waitInv {s : State} (e : Event) (hstatus : StatusInv s) (hinv : WaitInv s) :
    WaitInv (envStep e s) := by
  by_cases hreset : e = .reset
  · subst hreset
    exact waitInv_of_fresh rfl
  · by_cases hwrite : ∃ width off w, e = .regWrite width off w
    · obtain ⟨width, off, w, rfl⟩ := hwrite
      obtain ⟨r, t, heq, h⟩ := hostWrite_cases width off w s
      rw [envStep, heq]
      exact (h.keeps_waitInv hstatus hinv : WaitInv t)
    · obtain h | ⟨width, off, w, he, -⟩ | ⟨he, -⟩ := envStep_cases e s
      · refine h.keeps_waitInv hinv fun hp => hostQuiet_of_envStep ?_ hreset
          fun width off w he => hwrite ⟨width, off, w, he⟩
        rw [← Bool.not_eq_false, hstatus.1, hp]
        nofun
      · exact absurd ⟨width, off, w, he⟩ hwrite
      · exact absurd he hreset

/-! ## The report (R46 to R48) -/

theorem SameReport.keeps_reportInv {s t : State} (hinv : ReportInv s) (h : SameReport s t) : ReportInv t := by
  obtain ⟨hexceed, -, hmax, hpassed⟩ := h
  rw [ReportInv, hexceed, hmax, hpassed]
  exact hinv

theorem EngineStep.keeps_reportInv {s t : State} (hcommand : CommandInv s) (hinv : ReportInv s)
    (h : EngineStep s t) : ReportInv t := by
  obtain ⟨hp, -, -, -, heq⟩ | h := h.report_cases
  · obtain ⟨-, -, -, -, -, -, hmax⟩ := hcommand.2 hp
    obtain ⟨-, hmax'⟩ := workOf_accumulators .verify s s.unit
    rw [heq, ReportInv, endRun_rptPassed, endRun_rptExceed, endRun_rptMaxerr]
    refine ⟨fun h => ?passed, ?max⟩
    case passed => exact congrArg (BitVec.ofNat 32) (of_decide_eq_true h)
    case max =>
      refine le_trans ?_ (hmax' hmax)
      exact (BitVec.toNat_ofNat _ _).trans_le (Nat.mod_le _ _)
  · exact h.keeps_reportInv hinv

theorem envStep_keeps_reportInv {s : State} (e : Event) (hinv : ReportInv s) : ReportInv (envStep e s) := by
  obtain h | ⟨_, _, _, -, r, t, heq, h⟩ | ⟨-, heq⟩ := envStep_cases e s
  · exact h.sameReport.keeps_reportInv hinv
  · rw [heq]
    exact (h.sameReport.keeps_reportInv hinv : ReportInv t)
  · rw [heq]
    exact ⟨nofun, Nat.zero_le _⟩

/-! ## The whole invariant -/

theorem EngineStep.keeps_inv {s t : State} (hinv : Inv s) (h : EngineStep s t) : Inv t := by
  obtain ⟨hmem, hstatus, hcommand, hwait, hreport⟩ := hinv
  exact ⟨h.keeps_memInv hmem, h.keeps_statusInv hstatus, h.keeps_commandInv hcommand,
    h.keeps_waitInv hstatus hwait, h.keeps_reportInv hcommand hreport⟩

theorem envStep_keeps_inv {s : State} (e : Event) (hinv : Inv s) : Inv (envStep e s) := by
  obtain ⟨hmem, hstatus, hcommand, hwait, hreport⟩ := hinv
  exact ⟨envStep_keeps_memInv e hmem hcommand, envStep_keeps_statusInv e hstatus,
    envStep_keeps_commandInv e hstatus hcommand, envStep_keeps_waitInv e hstatus hwait,
    envStep_keeps_reportInv e hreport⟩

/-- The model's step counter and the agenda stand in no part of the invariant. -/
theorem inv_advance {s : State} (hinv : Inv s) : Inv s.advance := hinv

/-- Settles O54: each part of the invariant over each kind of step. -/
theorem stepKeepsInv : Obligations.StepKeepsInv := by
  intro s t hinv h
  obtain ⟨-, hengine⟩ | ⟨e, rest, -, -, rfl⟩ := step_next_cases h
  · exact hengine.keeps_inv (inv_advance hinv)
  · exact envStep_keeps_inv e (inv_advance hinv)

end Sys2Proof.Machine
end

section
/-! PROOFS. With weakly fair responses every command ends (R225). -/

namespace Sys2Proof.Machine

/-! ## Steps of a command that does not end -/

section
variable {s t : State}

/-- A step takes the head of the agenda, and puts nothing on it. -/
theorem agenda_of_step (h : step s = .next t) (hbusy : t.busy = true) : t.agenda = s.agenda.tail := by
  obtain ⟨-, hengine⟩ | ⟨e, rest, -, -, rfl⟩ := step_next_cases h
  · cases hengine with
    | idle | checkPasses => rfl
    | checkEnds e => exact absurd ((ended_raiseErr e _).busy.symm.trans hbusy) nofun
    | runs i t _ _ hstep =>
      cases hstep with
      | aborted | readFails | writeFails | lastUnit => exact absurd (ended_endRun.busy.symm.trans hbusy) nofun
      | readWaits | writeWaits | innerUnit => rfl
  · obtain h | ⟨_, _, _, -, r, t, heq, h⟩ | ⟨-, heq⟩ := envStep_cases e s.advance
    · rw [h]
      rfl
    · rw [heq]
      cases h <;> rfl
    · rw [heq]
      rfl

theorem engineStep_of_agenda_nil (ha : s.agenda = []) (h : step s = .next t) : EngineStep s.advance t := by
  obtain ⟨-, hengine⟩ | ⟨e, rest, he, -, -⟩ := step_next_cases h
  · exact hengine
  · exact absurd (ha.symm.trans he) nofun

theorem EngineStep.answers (h : EngineStep s t) (hbusy : t.busy = true) : t.answers = s.answers := by
  cases h with
  | idle | checkPasses => rfl
  | checkEnds e => exact absurd ((ended_raiseErr e s).busy.symm.trans hbusy) nofun
  | runs i t _ _ hstep =>
    cases hstep with
    | aborted | readFails | writeFails | lastUnit => exact absurd (ended_endRun.busy.symm.trans hbusy) nofun
    | readWaits | writeWaits | innerUnit => rfl

theorem responds_congr (h : t.answers = s.answers) (a : Access) : Responds t a ↔ Responds s a := by
  unfold Responds State.answerOf
  rw [h]

/-- R205, R212: after an engine step that does not end the command a unit is due. -/
theorem EngineStep.phase_run (h : EngineStep s t) (hp : s.phase ≠ .idle) (hbusy : t.busy = true) :
    t.phase = .run := by
  cases h with
  | idle hidle => exact absurd hidle hp
  | checkPasses => rfl
  | checkEnds e => exact absurd ((ended_raiseErr e s).busy.symm.trans hbusy) nofun
  | runs i t _ hdue hstep =>
    cases hstep with
    | aborted | readFails | writeFails | lastUnit => exact absurd (ended_endRun.busy.symm.trans hbusy) nofun
    | readWaits | writeWaits | innerUnit => exact hdue.1

/-- R212, R225: an engine step in phase RUN that does not end the command waits for an access without a response, or
has done a unit. -/
theorem EngineStep.waits_or_advances (h : EngineStep s t) (hp : s.phase = .run) (hbusy : t.busy = true) :
    (∃ a ∈ t.waited.asked, ¬ Responds s a) ∨ t.unit = s.unit + 1 := by
  cases h with
  | idle hidle => exact absurd (hp.symm.trans hidle) nofun
  | checkPasses i hcheck => exact absurd (hp.symm.trans hcheck) nofun
  | checkEnds e hcheck => exact absurd (hp.symm.trans hcheck) nofun
  | runs i t _ hdue hstep =>
    cases hstep with
    | aborted | readFails | writeFails | lastUnit => exact absurd (ended_endRun.busy.symm.trans hbusy) nofun
    | readWaits a ha hs =>
      exact .inl ⟨a, mem_askedNow.2 ⟨ha, .inl rfl, hs⟩, not_responds_of_read (mem_openReads.1 ha).1 hs⟩
    | writeWaits a _ ha hs =>
      exact .inl ⟨a, mem_askedNow.2 ⟨ha, .inl rfl, hs⟩, not_responds_of_write (mem_openWrites.1 ha).1 hs⟩
    | innerUnit => exact .inr rfl

/-- R225: an issued access that the memory agent does not answer stays issued. -/
theorem EngineStep.asked_of_silent {a : Access} (h : EngineStep s t) (hp : s.phase = .run) (hwait : WaitInv s)
    (hbusy : t.busy = true) (ha : a ∈ s.waited.asked) (hs : ¬ Responds s a) :
    a ∈ t.waited.asked := by
  have hsilent : s.answerOf (decide (a.frame = .dst)) a = .silent := not_not.1 hs
  cases h with
  | idle hidle => exact absurd (hp.symm.trans hidle) nofun
  | checkPasses i hcheck => exact absurd (hp.symm.trans hcheck) nofun
  | checkEnds e hcheck => exact absurd (hp.symm.trans hcheck) nofun
  | runs i t hd hdue hstep =>
    obtain ⟨hread | ⟨hnil, hwrite⟩, -⟩ := hwait i hp hd
    · have hopen := hread a ha
      rw [decide_eq_false (frame_of_mem_unitReads (mem_openReads.1 hopen).1)] at hsilent
      have hno {p : Prop} (hok : ∀ r ∈ openReads i s, s.answerOf false r = .ok) : p :=
        absurd (hsilent.symm.trans (hok a hopen)) nofun
      cases hstep with
      | aborted | readFails | writeFails | lastUnit => exact absurd (ended_endRun.busy.symm.trans hbusy) nofun
      | readWaits => exact mem_askedNow.2 ⟨hopen, .inr (isIssued_of_asked ha), hsilent⟩
      | writeWaits _ hok => exact hno hok
      | innerUnit hok => exact hno hok.1
    · have hopen := hwrite a ha
      rw [decide_eq_true (frame_of_mem_unitWrites (mem_openWrites.1 hopen).1)] at hsilent
      cases hstep with
      | aborted | readFails | writeFails | lastUnit => exact absurd (ended_endRun.busy.symm.trans hbusy) nofun
      | readWaits b hb => exact absurd hb (by simp [hnil])
      | writeWaits => exact mem_askedNow.2 ⟨hopen, .inr (isIssued_of_asked ha), hsilent⟩
      | innerUnit hok => exact absurd (hsilent.symm.trans (hok.2 a hopen)) nofun

/-- R39: ROWS and COLS are 16-bit fields, so no command has more than `2^32` units. -/
theorem unitCount_lt (i : Instr) (s : State) : unitCount i s < 2 ^ 32 := by
  have hrows : s.rows < 2 ^ 16 := (s.dim.extractLsb' 0 16).isLt
  have hcols : s.cols < 2 ^ 16 := (s.dim.extractLsb' 16 16).isLt
  unfold unitCount
  split
  · have hr : s.tileRows < 2 ^ 16 := (Nat.div_le_self _ _).trans_lt hrows
    have hc : s.tileCols < 2 ^ 16 := (Nat.div_le_self _ _).trans_lt hcols
    calc s.tileRows * s.tileCols < 2 ^ 16 * 2 ^ 16 := Nat.mul_lt_mul'' hr hc
      _ = 2 ^ 32 := by norm_num
  · omega

end

/-! ## A command that would never end -/

/-- An endless run in which a command is busy for ever and only the engine moves. -/
structure EndlessCommand (q : Nat → State) : Prop where
  run : IsRun q
  inv : ∀ k, Inv (q k)
  busy : ∀ k, (q k).busy = true
  agenda : ∀ k, (q k).agenda = []

namespace EndlessCommand

variable {q : Nat → State} (h : EndlessCommand q)
include h

theorem engineStep (k : Nat) : EngineStep (q k).advance (q (k + 1)) :=
  engineStep_of_agenda_nil (h.agenda k) (h.run k)

theorem phase_ne_idle (k : Nat) : (q k).phase ≠ .idle := by
  obtain ⟨-, ⟨hbusy, -⟩, -⟩ := h.inv k
  exact fun hp => absurd ((hbusy.2 hp).symm.trans (h.busy k)) nofun

theorem phase_run (k : Nat) : (q (k + 1)).phase = .run :=
  (h.engineStep k).phase_run (h.phase_ne_idle k) (h.busy (k + 1))

theorem answers (k j : Nat) : (q (k + j)).answers = (q k).answers := by
  induction j with
  | zero => rfl
  | succ j ih => exact ((h.engineStep (k + j)).answers (h.busy _)).trans ih

/-- The memory agent changes no more, so an access that it does not answer stays issued for ever. -/
theorem asked_forever {k : Nat} {a : Access} (ha : a ∈ (q (k + 1)).waited.asked) (hs : ¬ Responds (q (k + 1)) a)
    (j : Nat) : a ∈ (q (k + 1 + j)).waited.asked := by
  induction j with
  | zero => exact ha
  | succ j ih =>
    obtain ⟨-, -, -, hwait, -⟩ := h.inv (k + 1 + j)
    have hrun : (q (k + 1 + j)).phase = .run := by
      rw [Nat.add_right_comm]
      exact h.phase_run (k + j)
    refine (h.engineStep (k + 1 + j)).asked_of_silent hrun hwait (h.busy _) ih ?_
    exact fun hr => hs ((responds_congr (h.answers (k + 1) j) a).1 hr)

/-- R225: with fair responses no unit waits for ever, so every step does a unit. -/
theorem unit_succ (hfair : WeaklyFair q) (k : Nat) : (q (k + 2)).unit = (q (k + 1)).unit + 1 := by
  obtain ⟨a, ha, hs⟩ | hunit := (h.engineStep (k + 1)).waits_or_advances (h.phase_run k) (h.busy (k + 2))
  · have hs' : ¬ Responds (q (k + 1 + 1)) a := fun hr => hs ((responds_congr (h.answers (k + 1) 1) a).1 hr)
    obtain ⟨m, hm, -, hm'⟩ := hfair (k + 1 + 1) a ha
    obtain ⟨j, rfl⟩ := Nat.exists_eq_add_of_le hm
    obtain hgone | hr := hm'
    · exact absurd (h.asked_forever ha hs' j) hgone
    · exact absurd ((responds_congr (h.answers (k + 1 + 1) j) a).1 hr) hs'
  · exact hunit

theorem not_weaklyFair : ¬ WeaklyFair q := by
  intro hfair
  have hunit : ∀ k, (q (k + 1)).unit = (q 1).unit + k := by
    intro k
    induction k with
    | zero => rfl
    | succ k ih => rw [h.unit_succ hfair k, ih, Nat.add_assoc]
  obtain ⟨-, -, ⟨-, hcommand⟩, -⟩ := h.inv (2 ^ 32 + 1)
  obtain ⟨i, -, -, -, hlt, -⟩ := hcommand (h.phase_run _)
  have hbound := unitCount_lt i (q (2 ^ 32 + 1))
  rw [hunit] at hlt
  omega

end EndlessCommand

theorem inv_of_isRun {r : Nat → State} (hrun : IsRun r) (hinv : Inv (r 0)) (n : Nat) : Inv (r n) := by
  induction n with
  | zero => exact hinv
  | succ n ih => exact stepKeepsInv _ _ ih (hrun n)

theorem agenda_of_busy_run {r : Nat → State} (hrun : IsRun r) {n : Nat} (hbusy : ∀ m, n ≤ m → (r m).busy = true)
    (k : Nat) : (r (n + k)).agenda = (r n).agenda.drop k := by
  induction k with
  | zero => rfl
  | succ k ih => rw [← Nat.add_assoc, agenda_of_step (hrun (n + k)) (hbusy _ (by omega)), ih, List.tail_drop]

theorem weaklyFair_shift {r : Nat → State} (hfair : WeaklyFair r) (n : Nat) : WeaklyFair fun k => r (n + k) := by
  intro k a ha
  obtain ⟨m, hm, h⟩ := hfair (n + k) a ha
  obtain ⟨j, rfl⟩ := Nat.exists_eq_add_of_le (show n ≤ m by omega)
  exact ⟨j, by omega, h⟩

/-- Settles O34: a command that stayed busy would outlive the agenda, and then be an endless command. -/
theorem fairResponsesEndEveryCommand : Obligations.FairResponsesEndEveryCommand := by
  intro r hrun hinv hfair n _
  by_contra hnever
  push Not at hnever
  have hbusy : ∀ m, n ≤ m → (r m).busy = true := fun m hm => Bool.not_eq_false _ ▸ hnever m hm
  refine EndlessCommand.not_weaklyFair (q := fun k => r (n + (r n).agenda.length + k))
    ⟨fun k => hrun _, fun k => inv_of_isRun hrun hinv _, fun k => hbusy _ (by omega), fun k => ?_⟩
    (weaklyFair_shift hfair _)
  rw [Nat.add_assoc, agenda_of_busy_run hrun hbusy]
  exact List.drop_eq_nil_of_le (by omega)

end Sys2Proof.Machine
end

section
/-! PROOFS. A register that a command does not read has no influence on it (R153, R53). -/

namespace Sys2Proof.Machine

/-- Values for the operand registers and the QM file. -/
structure OperandValues where
  log2n : BitVec 3
  dim2 : Word
  src : Word
  src2 : Word
  dst : Word
  tol : Word
  qm : Vector Word 256

/-- `r` with the registers that command `i` does not read replaced (R153). Of QM the whole file is replaced. -/
def OperandValues.putUnread (v : OperandValues) (i : Instr) (r : State) : State :=
  match i with
  | .qmbuild => { r with dim2 := v.dim2, src := v.src, src2 := v.src2, tol := v.tol, qm := v.qm }
  | .fdct | .idct | .quant | .dequant | .encode | .decode =>
    { r with dim2 := v.dim2, src2 := v.src2, tol := v.tol, qm := v.qm }
  | .verify => { r with log2n := v.log2n, dst := v.dst, qm := v.qm }

/-- The new QM file agrees with the old one on the corner that the command reads (R53). -/
def OperandValues.AgreesOnCorner (v : OperandValues) (i : Instr) (s : State) : Prop :=
  usesQm i = true → ∀ u < s.blockSize, ∀ w < s.blockSize, v.qm.get (qmIndex u w) = s.qmGet u w

section
variable (v : OperandValues) (i : Instr) (s : State)

@[simp] theorem putUnread_unit : (v.putUnread i s).unit = s.unit := by cases i <;> rfl
@[simp] theorem putUnread_mem : (v.putUnread i s).mem = s.mem := by cases i <;> rfl
@[simp] theorem putUnread_freeCount : (v.putUnread i s).freeCount = s.freeCount := by cases i <;> rfl
@[simp] theorem putUnread_abort : (v.putUnread i s).abort = s.abort := by cases i <;> rfl
@[simp] theorem putUnread_wait : (v.putUnread i s).wait = s.wait := by cases i <;> rfl
@[simp] theorem putUnread_phase : (v.putUnread i s).phase = s.phase := by cases i <;> rfl

/-! ## What the unread registers do not enter -/

theorem checkShape_putUnread : checkShape i (v.putUnread i s) = checkShape i s := by cases i <;> rfl

/-- The bases of the frames that a command uses are among the registers it reads. -/
theorem base_putUnread : ∀ f ∈ frames i, (v.putUnread i s).base f.1 = s.base f.1 := by
  cases i <;> simp [frames, srcKind, src2Kind, dstKind, OperandValues.putUnread, State.base]

theorem checkAlign_putUnread : checkAlign i (v.putUnread i s) = checkAlign i s := by
  have hbase := base_putUnread v i s
  have hfind : (frames i).find? (fun f => decide (((v.putUnread i s).base f.1).toNat % f.2 ≠ 0)) =
      (frames i).find? fun f => decide ((s.base f.1).toNat % f.2 ≠ 0) :=
    List.find?_congr fun f hf => by rw [hbase f hf]
  rw [checkAlign, checkAlign, hfind]
  cases h : (frames i).find? fun f => decide ((s.base f.1).toNat % f.2 ≠ 0) with
  | none => rfl
  | some f => simp only [hbase f (List.mem_of_find?_eq_some h)]

theorem frameBytes_putUnread (n : Nat) : (v.putUnread i s).frameBytes n = s.frameBytes n := by cases i <;> rfl

theorem checkFit_putUnread : checkFit i (v.putUnread i s) = checkFit i s := by
  have hbase := base_putUnread v i s
  have hfind : (frames i).find? (fun f =>
        decide (Config.dmaSpace < ((v.putUnread i s).base f.1).toNat + (v.putUnread i s).frameBytes f.2)) =
      (frames i).find? fun f => decide (Config.dmaSpace < (s.base f.1).toNat + s.frameBytes f.2) :=
    List.find?_congr fun f hf => by rw [hbase f hf, frameBytes_putUnread]
  rw [checkFit, checkFit, hfind]
  cases h : (frames i).find? fun f => decide (Config.dmaSpace < (s.base f.1).toNat + s.frameBytes f.2) with
  | none => rfl
  | some f => simp only [hbase f (List.mem_of_find?_eq_some h)]

theorem checkOverlap_putUnread : checkOverlap i (v.putUnread i s) = checkOverlap i s := by cases i <;> rfl
theorem sideEffectFrame_putUnread : sideEffectFrame i (v.putUnread i s) = sideEffectFrame i s := by
  cases i <;> rfl
theorem unitCount_putUnread : unitCount i (v.putUnread i s) = unitCount i s := by cases i <;> rfl
theorem openReads_putUnread : openReads i (v.putUnread i s) = openReads i s := by cases i <;> rfl
theorem openWrites_putUnread : openWrites i (v.putUnread i s) = openWrites i s := by cases i <;> rfl
theorem unitWrites_putUnread (t : Nat) : unitWrites i (v.putUnread i s) t = unitWrites i s t := by cases i <;> rfl
theorem phaseTrouble_putUnread (w : Bool) (l : List Access) :
    (v.putUnread i s).phaseTrouble w l = s.phaseTrouble w l := by cases i <;> rfl
theorem disturbed_putUnread : disturbed i (v.putUnread i s) = disturbed i s := by cases i <;> rfl
theorem noteDmaWritten_putUnread : noteDmaWritten i (v.putUnread i s) = noteDmaWritten i s := by cases i <;> rfl
theorem waitForRead_putUnread (a : Access) :
    waitForRead i a (v.putUnread i s) = v.putUnread i (waitForRead i a s) := by cases i <;> rfl
theorem waitForWrite_putUnread (a : Access) :
    waitForWrite i a (v.putUnread i s) = v.putUnread i (waitForWrite i a s) := by cases i <;> rfl
theorem applyUnit_putUnread (w : UnitWork) :
    applyUnit w (v.putUnread i s) = v.putUnread i (applyUnit w s) := by cases i <;> rfl
theorem finishOf_putUnread : finishOf i (v.putUnread i s) = v.putUnread i (finishOf i s) := by cases i <;> rfl
theorem raiseErr_putUnread (e : ErrRec) : raiseErr e (v.putUnread i s) = v.putUnread i (raiseErr e s) := by
  cases i <;> rfl
theorem settle_putUnread : settle i (v.putUnread i s) = v.putUnread i (settle i s) := by
  unfold settle
  rw [disturbed_putUnread]
  cases disturbed i s with
  | nil => rfl
  | cons a l => cases i <;> rfl
theorem endRun_putUnread (c : ErrCode) (info data : Word) :
    endRun i c info data (v.putUnread i s) = v.putUnread i (endRun i c info data s) := by
  rw [endRun, endRun, closeRun, closeRun, settle_putUnread, noteDmaWritten_putUnread]
  cases i <;> rfl

theorem blockSize_putUnread (hi : usesQm i = true) : (v.putUnread i s).blockSize = s.blockSize := by
  cases i <;> cases hi <;> rfl

theorem qmGet_putUnread (u w : Nat) : (v.putUnread i s).qmGet u w = v.qm.get (qmIndex u w) := by cases i <;> rfl

end

/-! ## The corner of QM (R53) -/

section
variable {v : OperandValues} {i : Instr} {s : State}

theorem checkQm_putUnread (h : v.AgreesOnCorner i s) : checkQm i (v.putUnread i s) = checkQm i s := by
  cases hi : usesQm i
  · rw [checkQm_eq_none_of_not_usesQm hi, checkQm_eq_none_of_not_usesQm hi]
  · have hget : ∀ p ∈ blockPositions s.blockSize, (v.putUnread i s).qmGet p.1 p.2 = s.qmGet p.1 p.2 := by
      intro p hp
      obtain ⟨hu, hw⟩ := mem_blockPositions.1 hp
      rw [qmGet_putUnread, h hi _ hu _ hw]
    have hfind : (blockPositions s.blockSize).find? (fun p => !qmLegal (v.putUnread i s) p.1 p.2) =
        (blockPositions s.blockSize).find? fun p => !qmLegal s p.1 p.2 :=
      List.find?_congr fun p hp => by rw [qmLegal, qmLegal, State.qmStep, State.qmStep, hget p hp]
    rw [checkQm, checkQm, blockSize_putUnread v i s hi, hfind]
    cases hf : (blockPositions s.blockSize).find? fun p => !qmLegal s p.1 p.2 with
    | none => rfl
    | some p => simp only [hget p (List.mem_of_find?_eq_some hf)]

/-- R458: the steps are looked at only where the shape is legal. -/
theorem check_putUnread (h : checkShape i s = none → v.AgreesOnCorner i s) :
    check i (v.putUnread i s) = check i s := by
  rw [check_eq_or, check_eq_or, checkShape_putUnread, checkAlign_putUnread, checkFit_putUnread,
    checkOverlap_putUnread]
  cases hs : checkShape i s with
  | some e => rfl
  | none => rw [checkQm_putUnread (h hs)]

theorem qmStep_putUnread (h : v.AgreesOnCorner i s) (hi : usesQm i = true) {u w : Nat} (hu : u < s.blockSize)
    (hw : w < s.blockSize) : (v.putUnread i s).qmStep u w = s.qmStep u w := by
  rw [State.qmStep, State.qmStep, qmGet_putUnread, h hi u hu w hw]

theorem qmBlock_putUnread (h : v.AgreesOnCorner i s) (hi : usesQm i = true) :
    (v.putUnread i s).qmBlock = s.qmBlock := by
  rw [State.qmBlock, State.qmBlock, blockSize_putUnread v i s hi]
  exact List.map_congr_left fun u hu => List.map_congr_left fun w hw =>
    qmStep_putUnread h hi (List.mem_range.1 hu) (List.mem_range.1 hw)

theorem workOf_putUnread (h : v.AgreesOnCorner i s) (t : Nat) : workOf i (v.putUnread i s) t = workOf i s t := by
  cases i with
  | fdct | idct | verify => rfl
  | quant | dequant | encode | decode =>
    have hsteps := qmBlock_putUnread h rfl
    simp only [workOf, quantWork, dequantWork, encodeWork, decodeWork, tileWork, hsteps]
    rfl
  | qmbuild =>
    have hrow : (qmbuildWork (v.putUnread .qmbuild s) t).writes = (qmbuildWork s t).writes :=
      List.map_congr_left fun j _ => congrArg (s.dstWrite .tiledQm t j)
        (qmStep_putUnread h rfl (Nat.mod_lt _ (blockSize_pos s)) (Nat.mod_lt _ (blockSize_pos s)))
    exact congrArg (fun ws => UnitWork.mk ws s.accExceed s.accMax) hrow

/-! ## The engine step -/

theorem checkStep_putUnread (h : checkShape i s = none → v.AgreesOnCorner i s) :
    checkStep i (v.putUnread i s) = mapNext (v.putUnread i) (checkStep i s) := by
  rw [checkStep, checkStep, check_putUnread h, sideEffectFrame_putUnread]
  cases check i s with
  | some e => exact congrArg Host.Outcome.next (raiseErr_putUnread v i s e)
  | none =>
    cases sideEffectFrame i s with
    | some f => rfl
    | none => cases i <;> rfl

theorem afterUnit_putUnread :
    afterUnit i (finishOf i) (v.putUnread i s) = v.putUnread i (afterUnit i (finishOf i) s) := by
  rw [afterUnit, afterUnit, putUnread_unit, unitCount_putUnread]
  split
  · rw [finishOf_putUnread, endRun_putUnread]
  · rfl

theorem withMem_putUnread (m : Memory) :
    { v.putUnread i s with mem := m } = v.putUnread i { s with mem := m } := by
  cases i <;> rfl

theorem runUnit_putUnread (h : v.AgreesOnCorner i s) :
    runUnit i (workOf i) (finishOf i) (v.putUnread i s) =
      v.putUnread i (runUnit i (workOf i) (finishOf i) s) := by
  rw [runUnit, runUnit, openReads_putUnread, openWrites_putUnread, phaseTrouble_putUnread, phaseTrouble_putUnread,
    unitWrites_putUnread, withMem_putUnread, putUnread_unit, putUnread_mem, putUnread_freeCount,
    workOf_putUnread h, applyUnit_putUnread, afterUnit_putUnread]
  cases s.phaseTrouble false (openReads i s) with
  | some x =>
    cases x with
    | silent a => exact waitForRead_putUnread v i s a
    | error a => exact endRun_putUnread v i s _ _ _
  | none =>
    cases s.phaseTrouble true (openWrites i s) with
    | some x =>
      cases x with
      | silent a => exact waitForWrite_putUnread v i s a
      | error a => exact endRun_putUnread v i _ _ _ _
    | none => rfl

theorem runStep_putUnread (h : checkShape i s = none → v.AgreesOnCorner i s) :
    runStep i (workOf i) (finishOf i) (v.putUnread i s) =
      mapNext (v.putUnread i) (runStep i (workOf i) (finishOf i) s) := by
  have hready : runReady i (v.putUnread i s) = runReady i s := by
    rw [runReady, runReady, check_putUnread h, putUnread_unit, unitCount_putUnread]
  rw [runStep, runStep, hready, putUnread_abort, putUnread_wait, putUnread_unit, endRun_putUnread]
  split_ifs with hnot haborted
  · rfl
  · rfl
  · obtain ⟨hc, -⟩ := runReady_iff.1 (Bool.not_eq_false _ ▸ hnot)
    exact congrArg Host.Outcome.next (runUnit_putUnread (h ((check_eq_none_iff i s).1 hc).1))

theorem exec_putUnread (h : checkShape i s = none → v.AgreesOnCorner i s) :
    exec i (v.putUnread i s) = mapNext (v.putUnread i) (exec i s) := by
  cases hp : s.phase with
  | idle =>
    rw [exec_idle ((putUnread_phase v i s).trans hp), exec_idle hp]
    rfl
  | check =>
    rw [exec_check ((putUnread_phase v i s).trans hp), exec_check hp]
    exact checkStep_putUnread h
  | run =>
    rw [exec_run ((putUnread_phase v i s).trans hp), exec_run hp]
    exact runStep_putUnread h

/-- R38: a legal block size stays in the QM file. -/
theorem blockSize_le_of_checkShape (hs : checkShape i s = none) (hi : i ≠ .verify) : s.blockSize ≤ 16 := by
  obtain ⟨hlog, -⟩ := (checkShape_eq_none_iff i s).1 hs
  obtain ⟨-, hhi⟩ := (log2nLegal_iff s).1 (hlog ((usesBlockSize_iff i).2 hi))
  exact Nat.pow_le_pow_right (by decide) hhi

end

/-- Settles O60: `exec` reads none of the replaced registers, and of QM only the corner. -/
theorem unreadRegistersDoNotMatter : Obligations.UnreadRegistersDoNotMatter := by
  intro i s log2n dim2 src src2 dst tol qm alter hcorner halter
  have hput : alter = OperandValues.putUnread ⟨log2n, dim2, src, src2, dst, tol, qm⟩ i := by
    funext r
    rw [halter]
    cases i <;> rfl
  rw [hput]
  refine exec_putUnread fun hs hi u hu w hw => ?_
  obtain hi' := (usesQm_iff i).1 hi
  have hsize := blockSize_le_of_checkShape hs hi'.2.2
  exact hcorner hi' u (by omega) w (by omega) hu hw

end Sys2Proof.Machine
end

section
/-! PROOFS. A host load of the active DST frame (R125, R111). -/

namespace Sys2Proof.Machine

section
variable {i : Instr} {s : State} {t t' : Nat} {w w' : Access}

/-! ## The one write of a DST byte -/

theorem touches_iff (w : Access) (bytes : List Nat) :
    w.touches bytes = true ↔ ∃ b ∈ bytes, InElem b w.addr w.size := by
  simp [Access.touches, InElem]

theorem touches_singleton (w : Access) (b : Nat) : w.touches [b] = true ↔ InElem b w.addr w.size := by
  simp [touches_iff]

theorem touches_eq_false {w : Access} {bytes : List Nat} (h : ∀ b ∈ bytes, ¬ InElem b w.addr w.size) :
    w.touches bytes = false := by
  rw [Bool.eq_false_iff, ne_eq, touches_iff]
  exact fun ⟨b, hb, hin⟩ => h b hb hin

/-- R122: no frame position belongs to two units. -/
theorem unit_unique_of_position {p : Nat × Nat} (h : p ∈ unitPositions i s t) (h' : p ∈ unitPositions i s t') :
    t = t' := by
  unfold unitPositions at h h'
  split_ifs at h h'
  · obtain ⟨⟨x, y⟩, hxy, rfl⟩ := List.mem_map.1 h
    obtain ⟨⟨x', y'⟩, hxy', heq⟩ := List.mem_map.1 h'
    obtain ⟨hx, hy⟩ := mem_blockPositions.1 hxy
    obtain ⟨hx', hy'⟩ := mem_blockPositions.1 hxy'
    exact (tilePos_inj hx hx' hy hy' heq.symm).1
  · obtain ⟨j, -, rfl⟩ := List.mem_map.1 h
    obtain ⟨j', -, heq⟩ := List.mem_map.1 h'
    exact congrArg Prod.fst heq.symm

/-- R104: two element writes of a command that share a byte are one write of one unit. -/
theorem write_unique_of_byte (hs : checkShape i s = none) (ht : t < unitCount i s) (ht' : t' < unitCount i s)
    (hw : w ∈ unitWrites i s t) (hw' : w' ∈ unitWrites i s t') {b : Nat} (hb : InElem b w.addr w.size)
    (hb' : InElem b w'.addr w'.size) : t = t' ∧ w = w' := by
  unfold unitWrites frameAccesses at hw hw'
  cases hd : dstKind i with
  | none => simp [hd] at hw
  | some k =>
    rw [hd] at hw hw'
    obtain ⟨p, hp, rfl⟩ := List.mem_map.1 hw
    obtain ⟨p', hp', rfl⟩ := List.mem_map.1 hw'
    have heq : p = p' := by
      by_contra hne
      have hapart := elemAddr_apart (f := .dst) (e := k.esize) (unitPositions_inFrame hs ht p hp).2
        (unitPositions_inFrame hs ht' p' hp').2 hne
      obtain ⟨hlo, hhi⟩ := hb
      obtain ⟨hlo', hhi'⟩ := hb'
      dsimp only at hlo hhi hlo' hhi'
      omega
    subst heq
    exact ⟨unit_unique_of_position hp hp', rfl⟩

theorem writerOf_eq_some (hs : checkShape i s = none) (ht : t < unitCount i s) (hw : w ∈ unitWrites i s t)
    {b : Nat} (hb : InElem b w.addr w.size) : writerOf i s b = some (t, w) := by
  cases h : writerOf i s b with
  | none =>
    have hnone := List.findSome?_eq_none_iff.1 h t (List.mem_range.2 ht)
    exact absurd ((touches_singleton w b).2 hb) (List.find?_eq_none.1 (Option.map_eq_none_iff.1 hnone) w hw)
  | some r =>
    obtain ⟨t', ht', hr⟩ := List.exists_of_findSome?_eq_some h
    obtain ⟨w', hw', rfl⟩ := Option.map_eq_some_iff.1 hr
    obtain ⟨rfl, rfl⟩ := write_unique_of_byte hs ht (List.mem_range.1 ht') hw (List.mem_of_find?_eq_some hw') hb
      ((touches_singleton w' b).1 (List.find?_some (p := fun v : Access => v.touches [b]) hw'))
    rfl

/-! ## The value that is loaded -/

/-- R125: a command with legal operands is active from acceptance on. -/
theorem activeCommand_eq_some (hp : s.phase = .run ∨ s.phase = .check) (hd : decodeWord s.lastcmd = .ok i)
    (hc : check i s = none) : activeCommand s = some i := by
  obtain hp | hp := hp <;> rw [activeCommand, hp, hd]
  · rfl
  · simp [Except.toOption, Option.filter, hc]

/-- R125: an element that the host left alone, with its source tile, has its old or its new value. -/
theorem loadOpen_eq_false (hpend : s.pending = [])
    (h : ∀ b ∈ s.touched, ¬ InElem b w.addr w.size ∧ ∀ r ∈ unitReads i s t, ¬ InElem b r.addr r.size) :
    loadOpen i s t w = false := by
  have hw : w.touches s.touched = false := touches_eq_false fun b hb => (h b hb).1
  have hr : ∀ r ∈ unitReads i s t, r.touches s.touched = false := fun r hr =>
    touches_eq_false fun b hb => (h b hb).2 r hr
  have hnone : ∀ r : Access, r.touches s.pendingAddrs = false := fun r => by
    rw [State.pendingAddrs, hpend]
    rfl
  simp only [loadOpen, hw, hnone, Bool.and_false, Bool.or_false, Bool.false_or, List.any_eq_false,
    Bool.not_eq_true]
  exact hr

theorem hostByte_of_writer {b : Nat} (ha : activeCommand s = some i) (hwriter : writerOf i s b = some (t, w))
    (hstale : s.dmaWritten = []) : hostByte s b = activeByte i s t w b := by
  rw [hostByte, activeWriter, ha, Option.bind_some, hwriter]
  simp [isStale, hstale]

end

/-- Settles O48: a byte of the element has no other writer, and the choice between old and new is drawn for the
element's address. -/
theorem hostLoadIsOldOrNew : Obligations.HostLoadIsOldOrNew := by
  intro s i t w hphase hdecode hcheck hpend hstale ht hw htouched
  have hs := ((check_eq_none_iff i s).1 hcheck).1
  have hbyte : ∀ b, InElem b w.addr w.size → hostByte s b = activeByte i s t w b := fun b hb =>
    hostByte_of_writer (activeCommand_eq_some hphase hdecode hcheck) (writerOf_eq_some hs ht hw hb) hstale
  have hopen := loadOpen_eq_false hpend htouched
  by_cases hpick : Config.freePick s.freeCount (16 * w.addr) % 2 = 0
  · refine .inl fun b hb => ?_
    rw [hbyte b hb, activeByte, hopen, if_neg Bool.false_ne_true, if_pos hpick]
  · refine .inr fun b hb => ?_
    rw [hbyte b hb, activeByte, hopen, if_neg Bool.false_ne_true, if_neg hpick]

end Sys2Proof.Machine
end

section
/-! PROOFS. What a host store puts in memory (R124, U18). -/

namespace Sys2Proof.Machine

/-! ## The cells of a store -/

theorem storeCells_cons {a : Nat} (ha : a < Config.dmaSpace) (b : Byte) (bs : List Byte) :
    storeCells a (b :: bs) = (a, b) :: storeCells (a + 1) bs := by
  have htail : (bs.zipIdx 1).map (fun p => (a + p.2, p.1)) = bs.zipIdx.map fun p => (a + 1 + p.2, p.1) := by
    rw [List.zipIdx_succ, List.map_map]
    exact List.map_congr_left fun p _ => by simp [Nat.add_assoc, Nat.add_comm 1]
  simp [storeCells, ha, htail]

theorem inElem_of_mem_storeCells {a : Nat} {bs : List Byte} {c : Host.Cell} (h : c ∈ storeCells a bs) :
    InElem c.1 a bs.length := by
  obtain ⟨p, hp, rfl⟩ := List.mem_map.1 (List.mem_filter.1 h).1
  have hlt := List.snd_lt_of_mem_zipIdx hp
  exact ⟨Nat.le_add_right _ _, Nat.add_lt_add_left hlt a⟩

theorem Memory.read_writeCells_of_outside {cells : List Host.Cell} {b : Nat} : ∀ {m : Memory}, m.wf = true →
    (∀ c ∈ cells, c.1 < Config.dmaSpace) → (∀ c ∈ cells, c.1 ≠ b) → (m.writeCells cells).read b = m.read b := by
  induction cells with
  | nil => exact fun _ _ _ => rfl
  | cons c cs ih =>
    intro m hm hin hb
    obtain ⟨hc, hcs⟩ := List.forall_mem_cons.1 hin
    obtain ⟨hcb, hcsb⟩ := List.forall_mem_cons.1 hb
    calc (m.writeCells (c :: cs)).read b
      _ = (m.write c.1 c.2).read b := ih (Memory.write_wf hm hc) hcs hcsb
      _ = m.read b := by rw [Memory.read_write hm, if_neg hcb.symm]

/-- The same cells, stored in two memories, hide where the memories differ. -/
theorem Memory.read_writeCells_congr {cells : List Host.Cell} {b : Nat} : ∀ {m m' : Memory}, m.wf = true →
    m'.wf = true → (∀ c ∈ cells, c.1 < Config.dmaSpace) → m.read b = m'.read b →
    (m.writeCells cells).read b = (m'.writeCells cells).read b := by
  induction cells with
  | nil => exact fun _ _ _ h => h
  | cons c cs ih =>
    intro m m' hm hm' hin h
    obtain ⟨hc, hcs⟩ := List.forall_mem_cons.1 hin
    refine ih (Memory.write_wf hm hc) (Memory.write_wf hm' hc) hcs ?_
    rw [Memory.read_write hm, Memory.read_write hm', h]

theorem Memory.readBytes_writeCells_storeCells {bs : List Byte} : ∀ {m : Memory} {a : Nat}, m.wf = true →
    a + bs.length ≤ Config.dmaSpace → (m.writeCells (storeCells a bs)).readBytes a bs.length = bs := by
  induction bs with
  | nil => exact fun _ _ => rfl
  | cons b bs ih =>
    intro m a hm ha
    rw [List.length_cons] at ha
    have hlt : a < Config.dmaSpace := by omega
    have hw := Memory.write_wf (v := b) hm hlt
    have hhead : ((m.write a b).writeCells (storeCells (a + 1) bs)).read a = b := by
      rw [Memory.read_writeCells_of_outside hw storeCells_inSpace fun c hc heq => ?_, Memory.read_write hm,
        if_pos rfl]
      obtain ⟨hlo, -⟩ := inElem_of_mem_storeCells hc
      omega
    rw [storeCells_cons hlt, List.length_cons, Memory.readBytes]
    exact congrArg₂ List.cons hhead (ih hw (by omega))

theorem splitWords_of_oneWord {q : Nat} {cells : List Host.Cell} (h : ∀ c ∈ cells, c.1 / 4 = q) :
    splitWords cells = if cells = [] then [] else [cells] := by
  induction cells with
  | nil => rfl
  | cons c cs ih =>
    obtain ⟨hc, hcs⟩ := List.forall_mem_cons.1 h
    rw [splitWords, ih hcs]
    cases cs with
    | nil => rfl
    | cons d ds => simp [hc, hcs d List.mem_cons_self]

/-- R106: a store inside one aligned word is whole or not done. -/
theorem flatten_take_splitWords {q : Nat} {cells : List Host.Cell} (h : ∀ c ∈ cells, c.1 / 4 = q) (k : Nat) :
    ((splitWords cells).take k).flatten = [] ∨ ((splitWords cells).take k).flatten = cells := by
  rw [splitWords_of_oneWord h]
  split_ifs with hnil
  · exact .inl (by simp)
  · cases k with
    | zero => exact .inl rfl
    | succ k => exact .inr (by simp)

theorem storeCells_oneWord {a : Nat} {bs : List Byte} (h : a % 4 + bs.length ≤ 4) :
    ∀ c ∈ storeCells a bs, c.1 / 4 = a / 4 := by
  intro c hc
  obtain ⟨hlo, hhi⟩ := inElem_of_mem_storeCells hc
  omega

/-! ## Making the stores under way visible -/

/-- A clean over the stored bytes reaches every word of the store. -/
theorem clean_reaches_store {a : Nat} {bs : List Byte} : ∀ st ∈ splitWords (storeCells a bs),
    (st.any fun c => spanMeets (wordSpan c.1) { base := a, size := bs.length }) = true := by
  intro st hst
  obtain ⟨c, hc, -⟩ := splitWords_oneWord _ st hst
  have hmem : c ∈ storeCells a bs := by
    rw [← flatten_splitWords (storeCells a bs)]
    exact List.mem_flatten.2 ⟨st, hst, hc⟩
  refine List.any_eq_true.2 ⟨c, hc, (spanMeets_iff _ _).2 ⟨c.1, ?_, inElem_of_mem_storeCells hmem⟩⟩
  simp only [wordSpan, InElem]
  omega

section
variable {s t : State} {cells : List Host.Cell} {p : List Host.Cell → Bool}

theorem drainWhere_pending_of_all (h : ∀ st ∈ s.pending, p st = true) : (drainWhere p s).pending = [] := by
  rw [drainWhere_pending, List.filter_eq_nil_iff]
  exact fun st hst => by simp [h st hst]

theorem drainWhere_mem_of_all (h : ∀ st ∈ s.pending, p st = true) :
    (drainWhere p s).mem = s.mem.writeCells s.pending.flatten := by
  rw [drainWhere_mem, List.filter_eq_self.2 h]

theorem drainWhere_landed_of_all (h : ∀ st ∈ s.pending, p st = true) :
    (drainWhere p s).landed = if s.busy then s.landed ++ s.pending else s.landed := by
  rw [drainWhere_landed, List.filter_eq_self.2 h]

/-- R124, R129: a fence drains all stores or does nothing, and so does a clean drain a store that it covers. -/
theorem hostFence_cases (s : State) :
    hostFence s = s ∨ ∃ p, (∀ st ∈ s.pending, p st = true) ∧ hostFence s = drainWhere p s := by
  rw [hostFence]
  split
  · exact .inr ⟨fun _ => true, fun _ _ => rfl, rfl⟩
  · exact .inl rfl

/-! ## What the engine reads -/

/-- The late stores that a read does not see are the latest ones. -/
theorem exists_dmaView_eq (s : State) (f : FrameName) (a : Nat) :
    ∃ k, s.dmaView f a = s.dmaBase.writeCells (s.lateStores.take k).flatten := by
  obtain ⟨hlate, hview⟩ | ⟨k, -, hview⟩ := dmaView_cases s f a
  · refine ⟨0, ?_⟩
    rw [hview, State.dmaBase, (List.append_eq_nil_iff.1 hlate).1]
    rfl
  · exact ⟨k, hview⟩

theorem dmaRead_of_fresh (h : s.wait = none) (f : FrameName) (a n : Nat) :
    s.dmaRead f a n = (s.dmaView f a).readLE a n := by
  simp [State.dmaRead, State.waited, h]

/-- R124: a command accepted with no store under way reads memory. -/
theorem dmaRead_acceptCommand (h : s.pending = []) (w : Word) (f : FrameName) (a n : Nat) :
    (acceptCommand w s).dmaRead f a n = s.mem.readLE a n := by
  rw [dmaRead_of_fresh rfl]
  simp [State.dmaView, State.lateStores, h]

/-- U18: the only late stores are those of `cells`, on top of memory that reads as `old` on the element; or none
is late, and `cells` is in memory. -/
def StoreIsLateOrDone (old : Memory) (cells : List Host.Cell) (a n : Nat) (t : State) : Prop :=
  (t.lateStores = splitWords cells ∧ t.dmaBase.wf = true ∧
    ∀ b, InElem b a n → t.dmaBase.read b = old.read b) ∨
  (t.lateStores = [] ∧ t.mem = old.writeCells cells)

section
variable {a n : Nat}

theorem dmaRead_of_storeIsLateOrDone {old : Memory} {q : Nat} (hwait : t.wait = none) (hold : old.wf = true)
    (hin : ∀ c ∈ cells, c.1 < Config.dmaSpace) (hword : ∀ c ∈ cells, c.1 / 4 = q)
    (h : StoreIsLateOrDone old cells a n t) (f : FrameName) :
    t.dmaRead f a n = old.readLE a n ∨ t.dmaRead f a n = (old.writeCells cells).readLE a n := by
  rw [dmaRead_of_fresh hwait]
  obtain ⟨hlate, hbase, hread⟩ | ⟨hlate, hmem⟩ := h
  · obtain ⟨k, hview⟩ := exists_dmaView_eq t f a
    rw [hview, hlate]
    obtain hk | hk := flatten_take_splitWords hword k <;> rw [hk]
    · exact .inl (Memory.readLE_congr fun b hlo hhi => hread b ⟨hlo, hhi⟩)
    · exact .inr (Memory.readLE_congr fun b hlo hhi =>
        Memory.read_writeCells_congr hbase hold hin (hread b ⟨hlo, hhi⟩))
  · rw [State.dmaView, hlate]
    exact .inr (by rw [hmem])

/-! ### The states between the store and its fence -/

variable (hpend : s.pending = splitWords cells) (hland : s.landed = [])
include hpend hland

theorem storeIsLateOrDone_of_underWay (hmem : s.mem.wf = true) : StoreIsLateOrDone s.mem cells a n s := by
  have hbase : s.dmaBase = s.mem := by rw [State.dmaBase, hland]; rfl
  exact .inl ⟨by rw [State.lateStores, hland, hpend]; rfl, hbase ▸ hmem, fun b _ => by rw [hbase]⟩

/-- U18: a store that lands while a command is busy is late, and memory at acceptance lies under it. -/
theorem storeIsLateOrDone_of_drained
    (hacc : s.busy = true → s.memOld.wf = true ∧ ∀ b, InElem b a n → s.memOld.read b = s.mem.read b)
    (hall : ∀ st ∈ s.pending, p st = true) :
    StoreIsLateOrDone s.mem cells a n (drainWhere p s) := by
  have hlate : (drainWhere p s).lateStores = if s.busy then splitWords cells else [] := by
    rw [State.lateStores, drainWhere_pending_of_all hall, drainWhere_landed_of_all hall, hland, hpend]
    split <;> simp
  have hdone : (drainWhere p s).mem = s.mem.writeCells cells := by
    rw [drainWhere_mem_of_all hall, hpend, flatten_splitWords]
  by_cases hbusy : s.busy = true ∧ splitWords cells ≠ []
  · obtain ⟨hbusy, hne⟩ := hbusy
    obtain ⟨hwf, hread⟩ := hacc hbusy
    have hbase : (drainWhere p s).dmaBase = s.memOld := by
      rw [State.dmaBase, drainWhere_landed_of_all hall, hland, hpend, if_pos hbusy]
      simp [hne]
    exact .inl ⟨by rw [hlate, if_pos hbusy], hbase ▸ hwf, fun b hb => by rw [hbase, hread b hb]⟩
  · refine .inr ⟨?_, hdone⟩
    rw [hlate]
    split
    · exact by_contra fun hne => hbusy ⟨‹_›, hne⟩
    · rfl

end

/-- U18: fenced, cleaned or neither, the store reads whole, as stored or as before. -/
theorem dmaRead_after_store {a : Nat} {bs : List Byte} (hpend : s.pending = splitWords (storeCells a bs))
    (hland : s.landed = []) (hwait : s.wait = none) (hmem : s.mem.wf = true)
    (hacc : s.busy = true → s.memOld.wf = true ∧ ∀ b, InElem b a bs.length → s.memOld.read b = s.mem.read b)
    (hword : a % 4 + bs.length ≤ 4) (ht : t = s ∨ t = hostFence s ∨ t = cleanCaches a bs.length s)
    (f : FrameName) :
    t.dmaRead f a bs.length = s.mem.readLE a bs.length ∨
      t.dmaRead f a bs.length = (s.mem.writeCells (storeCells a bs)).readLE a bs.length := by
  have hcases : t = s ∨ ∃ p, (∀ st ∈ s.pending, p st = true) ∧ t = drainWhere p s := by
    obtain rfl | rfl | rfl := ht
    · exact .inl rfl
    · exact hostFence_cases s
    · exact .inr ⟨_, hpend ▸ clean_reaches_store, rfl⟩
  obtain rfl | ⟨p, hall, rfl⟩ := hcases
  · exact dmaRead_of_storeIsLateOrDone hwait hmem storeCells_inSpace (storeCells_oneWord hword)
      (storeIsLateOrDone_of_underWay hpend hland hmem) f
  · exact dmaRead_of_storeIsLateOrDone (t := drainWhere p s) hwait hmem storeCells_inSpace
      (storeCells_oneWord hword) (storeIsLateOrDone_of_drained hpend hland hacc hall) f

end

/-! ## Host loads with no command active -/

theorem hostByte_of_idle {s : State} (hp : s.phase = .idle) (hpend : s.pending = []) (b : Nat) :
    hostByte s b = if isStale s b then Config.freeByte s.freeCount b else s.mem.read b := by
  rw [hostByte, activeWriter, activeCommand, hp, Option.bind_none, quietByte, hpend]
  rfl

theorem spanHas_iff (p : Span) (b : Nat) : spanHas p b = true ↔ InElem b p.base p.size := by
  simp [spanHas, InElem]

/-! ## The four parts of O47 -/

/-- R124, R129: a store that a fence or a clean made visible before the command. -/
theorem store_visible {s t : State} {a : Nat} {bs : List Byte} {p : List Host.Cell → Bool} (hpend : s.pending = [])
    (hmem : s.mem.wf = true) (ha : a + bs.length ≤ Config.dmaSpace)
    (hall : ∀ st ∈ (hostStore a bs s).pending, p st = true) (ht : t = drainWhere p (hostStore a bs s)) :
    t.pending = [] ∧ t.mem.readBytes a bs.length = bs ∧
      (∀ b, ¬ InElem b a bs.length → t.mem.read b = s.mem.read b) ∧ t.mem.wf = true ∧
      ∀ (w : Word) (f : FrameName) (x n : Nat), (acceptCommand w t).dmaRead f x n = t.mem.readLE x n := by
  have hdrained : t.pending = [] := ht ▸ drainWhere_pending_of_all hall
  have hstored : t.mem = s.mem.writeCells (storeCells a bs) := by
    rw [ht, drainWhere_mem_of_all hall, hostStore_mem, hostStore_pending, hpend, List.nil_append, flatten_splitWords]
  refine ⟨hdrained, ?_, fun b hb => ?_, ?_, dmaRead_acceptCommand hdrained⟩ <;> rw [hstored]
  · exact Memory.readBytes_writeCells_storeCells hmem ha
  · exact Memory.read_writeCells_of_outside hmem storeCells_inSpace fun c hc heq =>
      hb (heq ▸ inElem_of_mem_storeCells hc)
  · exact Memory.writeCells_wf hmem storeCells_inSpace

theorem hostByte_invalidate {s : State} (hp : s.phase = .idle) (hpend : s.pending = []) (base size b : Nat) :
    hostByte (invalidate base size s) b = if spanHas ⟨base, size⟩ b then s.mem.read b else hostByte s b := by
  rw [hostByte_of_idle hp hpend, hostByte_of_idle (s := invalidate base size s) hp hpend, isStale_invalidate]
  cases spanHas ⟨base, size⟩ b <;> simp

/-- Settles O47: a store that is drained before acceptance is in memory; one that is late is whole or not done. -/
theorem fencesAndCacheCareMakeMemoryVisible : Obligations.FencesAndCacheCareMakeMemoryVisible := by
  refine ⟨?_, ?_, ?_, ?_⟩
  · intro s a bs t hpend hmem ha ht
    obtain ⟨hcoherent, ht⟩ | ht := ht
    · refine store_visible (p := fun _ => true) hpend hmem ha (fun _ _ => rfl) ?_
      rw [ht, hostFence, if_pos (by exact hcoherent)]
      rfl
    · refine store_visible hpend hmem ha ?_ ht
      rw [hostStore_pending, hpend]
      exact clean_reaches_store
  · intro s base size b hp hpend
    rw [hostByte_invalidate hp hpend]
    exact ⟨fun h => if_pos ((spanHas_iff ⟨base, size⟩ b).2 h),
      fun h => if_neg (mt (spanHas_iff ⟨base, size⟩ b).1 h)⟩
  · intro s f a bs t hpend hland hwait hmem hacc hword _ ht
    exact dmaRead_after_store (s := hostStore a bs s) (by rw [hostStore_pending, hpend]; rfl) hland hwait hmem hacc
      hword ht f
  · intro s w f a bs t hpend hmem hword _ ht
    exact dmaRead_after_store (s := acceptCommand w (hostStore a bs s))
      (by rw [acceptCommand_pending, hostStore_pending, hpend]; rfl) rfl rfl hmem (fun _ => ⟨hmem, fun _ _ => rfl⟩)
      hword ht f

end Sys2Proof.Machine
end
